-- ==== Sys2Proof/Word.lean ====
section
/-! DEFINITION. The widths of the TVE: bytes of DMEM and of GF(2^8), 32-bit registers, 128-bit cipher blocks and the
sixteen register numbers (00_scope.md R9, R11, R12). -/

namespace Sys2Proof

/-- A byte of DMEM, and a field element of GF(2^8) (00_scope.md R15). -/
abbrev Byte := BitVec 8

/-- The width XLEN of every register (00_scope.md R9). -/
abbrev Word := BitVec 32

/-- A cipher block read as one number, byte 0 most significant (44_aead_cipher.md R536). -/
abbrev Block := BitVec 128

/-- The number of a general register, 0 to 15 (10_state.md R101). -/
abbrev RegNum := Fin 16

end Sys2Proof
end

