-- ==== Sys2Proof/Syntax.lean ====
section
/-! DEFINITION. The sixteen commands of 30_encoding.md R303 (one constructor per row of spec/opcode_table.json), their
operand forms (R302) and the fields of a command word (R300). -/

namespace Sys2Proof

/-- A command of the TVE with its register operands (30_encoding.md R302, R303). The bulk commands of form B have no
operand: they take their arguments from fixed registers (92_eei_decisions.md D11). -/
inductive Instr where
  | nop
  | gadd (rd rs1 rs2 : RegNum)
  | gmul (rd rs1 rs2 : RegNum)
  | gdiv (rd rs1 rs2 : RegNum)
  | gpow (rd rs1 rs2 : RegNum)
  | ginv (rd rs1 : RegNum)
  | geval (rd rs1 rs2 rs3 : RegNum)
  | split
  | combine
  | encode
  | decode
  | aenc
  | adec
  | hash
  | vseal
  | vopen
  deriving DecidableEq, Repr

/-- The operand forms of 30_encoding.md R302. -/
inductive Form where
  | n | r1 | r2 | r3 | b
  deriving DecidableEq, Repr

/-- The six fields of a command word (30_encoding.md R300). -/
structure Fields where
  rsv : BitVec 8
  rs3 : BitVec 4
  rs2 : BitVec 4
  rs1 : BitVec 4
  rd  : BitVec 4
  opc : BitVec 8
  deriving DecidableEq, Repr

end Sys2Proof
end

