-- ==== Sys2Proof/WellFormed.lean ====
section
/-! DEFINITION. Which fields of a command word a form allows to be nonzero (30_encoding.md R302). The operands of `Instr`
are register numbers below 16 by their type, so every `Instr` is well formed; what can be ill formed is a command word,
and the checks here are on its fields. -/

namespace Sys2Proof

/-- The column "fields that must be 0" of 30_encoding.md R302, one check a field. -/
def Fields.wellFormed (form : Form) (f : Fields) : Bool :=
  f.rsv == 0
  && (f.rs3 == 0 || form == .r3)
  && (f.rs2 == 0 || form == .r3 || form == .r2)
  && (f.rs1 == 0 || form == .r3 || form == .r2 || form == .r1)
  && (f.rd == 0 || form == .r3 || form == .r2 || form == .r1)

end Sys2Proof
end

