-- ==== Sys2Proof/Decode.lean ====
section
/-! DEFINITION. From a command word to a command and back (30_encoding.md R300-R306). The decoder is total: every 32-bit
word selects exactly one row of the opcode map or is rejected by name (R304). -/

namespace Sys2Proof

/-- Why a word selects no row of 30_encoding.md R303: the reasons R304 lists. All of them are IllegalCommand. -/
inductive DecodeError where
  /-- The opcode is in the reserved space of R305. -/
  | reservedOpcode
  /-- The opcode is in the table, and a field that its form wants to be 0 is not. -/
  | nonzeroReservedField
  deriving DecidableEq, Repr

/-- Field extraction (30_encoding.md R301). -/
def fieldsOf (w : Word) : Fields where
  opc := w.extractLsb' 0 8
  rd  := w.extractLsb' 8 4
  rs1 := w.extractLsb' 12 4
  rs2 := w.extractLsb' 16 4
  rs3 := w.extractLsb' 20 4
  rsv := w.extractLsb' 24 8

/-- The word of six fields, rsv in the high bits (30_encoding.md R300). -/
def wordOf (f : Fields) : Word := f.rsv ++ f.rs3 ++ f.rs2 ++ f.rs1 ++ f.rd ++ f.opc

/-- The masks of 30_encoding.md R302. -/
def formMask : Form → Word
  | .n  => 0xFFFF_FFFF
  | .r1 => 0xFFFF_00FF
  | .r2 => 0xFFF0_00FF
  | .r3 => 0xFF00_00FF
  | .b  => 0xFFFF_FFFF

/-- The register number in a field. -/
def regNum (b : BitVec 4) : RegNum := b.toFin

/-- The field that holds a register number. -/
def regField (r : RegNum) : BitVec 4 := BitVec.ofFin r

/-- A row of the opcode map: its match value is the opcode in bits [7:0] and 0 elsewhere (30_encoding.md R303). -/
structure OpRow where
  opc   : BitVec 8
  form  : Form
  build : Fields → Instr

/-- The mask of a row. -/
def rowMask (r : OpRow) : Word := formMask r.form

/-- The match value of a row. -/
def rowMatch (r : OpRow) : Word := r.opc.setWidth 32

/-- The complete command set (30_encoding.md R303). -/
def opRows : List OpRow :=
  [ ⟨0x00, .n,  fun _ => .nop⟩,
    ⟨0x01, .r2, fun f => .gadd (regNum f.rd) (regNum f.rs1) (regNum f.rs2)⟩,
    ⟨0x02, .r2, fun f => .gmul (regNum f.rd) (regNum f.rs1) (regNum f.rs2)⟩,
    ⟨0x03, .r2, fun f => .gdiv (regNum f.rd) (regNum f.rs1) (regNum f.rs2)⟩,
    ⟨0x04, .r2, fun f => .gpow (regNum f.rd) (regNum f.rs1) (regNum f.rs2)⟩,
    ⟨0x05, .r1, fun f => .ginv (regNum f.rd) (regNum f.rs1)⟩,
    ⟨0x06, .r3, fun f => .geval (regNum f.rd) (regNum f.rs1) (regNum f.rs2) (regNum f.rs3)⟩,
    ⟨0x10, .b,  fun _ => .split⟩,
    ⟨0x11, .b,  fun _ => .combine⟩,
    ⟨0x12, .b,  fun _ => .encode⟩,
    ⟨0x13, .b,  fun _ => .decode⟩,
    ⟨0x20, .b,  fun _ => .aenc⟩,
    ⟨0x21, .b,  fun _ => .adec⟩,
    ⟨0x22, .b,  fun _ => .hash⟩,
    ⟨0x30, .b,  fun _ => .vseal⟩,
    ⟨0x31, .b,  fun _ => .vopen⟩ ]

/-- Whether a word selects a row: `(w & mask) == match` (30_encoding.md R303). -/
def selects (w : Word) (r : OpRow) : Bool := w &&& rowMask r == rowMatch r

/-- Decode a command word (30_encoding.md R303, R304). The matches differ in bits [7:0], which every mask covers, so the
row of the word's opcode is the only one that can select it. -/
def decode (w : Word) : Except DecodeError Instr :=
  match opRows.find? (fun r => r.opc == (fieldsOf w).opc) with
  | none => .error .reservedOpcode
  | some r => if selects w r then .ok (r.build (fieldsOf w)) else .error .nonzeroReservedField

/-- The opcode of a command (30_encoding.md R303). -/
def opcodeOf : Instr → BitVec 8
  | .nop => 0x00
  | .gadd _ _ _ => 0x01
  | .gmul _ _ _ => 0x02
  | .gdiv _ _ _ => 0x03
  | .gpow _ _ _ => 0x04
  | .ginv _ _ => 0x05
  | .geval _ _ _ _ => 0x06
  | .split => 0x10
  | .combine => 0x11
  | .encode => 0x12
  | .decode => 0x13
  | .aenc => 0x20
  | .adec => 0x21
  | .hash => 0x22
  | .vseal => 0x30
  | .vopen => 0x31

/-- The form of a command (30_encoding.md R303). -/
def formOf : Instr → Form
  | .nop => .n
  | .gadd _ _ _ | .gmul _ _ _ | .gdiv _ _ _ | .gpow _ _ _ => .r2
  | .ginv _ _ => .r1
  | .geval _ _ _ _ => .r3
  | .split | .combine | .encode | .decode | .aenc | .adec | .hash | .vseal | .vopen => .b

/-- The fields of a command's word: the fields it does not use are 0 (30_encoding.md R302). -/
def encodeFields (i : Instr) : Fields :=
  match i with
  | .gadd rd rs1 rs2 | .gmul rd rs1 rs2 | .gdiv rd rs1 rs2 | .gpow rd rs1 rs2 =>
      ⟨0, 0, regField rs2, regField rs1, regField rd, opcodeOf i⟩
  | .ginv rd rs1 => ⟨0, 0, 0, regField rs1, regField rd, opcodeOf i⟩
  | .geval rd rs1 rs2 rs3 => ⟨0, regField rs3, regField rs2, regField rs1, regField rd, opcodeOf i⟩
  | .nop | .split | .combine | .encode | .decode | .aenc | .adec | .hash | .vseal | .vopen =>
      ⟨0, 0, 0, 0, 0, opcodeOf i⟩

/-- The command word of a command. -/
def encode (i : Instr) : Word := wordOf (encodeFields i)

/-- The command the decoder reads from the low nbits bits of w, the bits above them 0. A command is one 32-bit word in the
register CMD (30_encoding.md R306), numbered as the opcode table numbers it, so there is no byte order to choose. -/
def decodeTableWord (nbits w : Nat) : Option Instr :=
  (decode (BitVec.ofNat 32 (w % 2 ^ nbits))).toOption

/-! ### Assembler notation (30_encoding.md R330, R332) -/

/-- The mnemonic of a command (30_encoding.md R303). -/
def mnemonicOf : Instr → String
  | .nop => "NOP"
  | .gadd _ _ _ => "GADD"
  | .gmul _ _ _ => "GMUL"
  | .gdiv _ _ _ => "GDIV"
  | .gpow _ _ _ => "GPOW"
  | .ginv _ _ => "GINV"
  | .geval _ _ _ _ => "GEVAL"
  | .split => "SPLIT"
  | .combine => "COMBINE"
  | .encode => "ENCODE"
  | .decode => "DECODE"
  | .aenc => "AENC"
  | .adec => "ADEC"
  | .hash => "HASH"
  | .vseal => "VSEAL"
  | .vopen => "VOPEN"

/-- The register operands of a command in the order rd, rs1, rs2, rs3, only those its form uses (30_encoding.md R330). -/
def operandsOf : Instr → List RegNum
  | .gadd rd rs1 rs2 | .gmul rd rs1 rs2 | .gdiv rd rs1 rs2 | .gpow rd rs1 rs2 => [rd, rs1, rs2]
  | .ginv rd rs1 => [rd, rs1]
  | .geval rd rs1 rs2 rs3 => [rd, rs1, rs2, rs3]
  | .nop | .split | .combine | .encode | .decode | .aenc | .adec | .hash | .vseal | .vopen => []

/-- A command as the assembler writes it (30_encoding.md R330). -/
def asmText (i : Instr) : String :=
  match operandsOf i with
  | [] => mnemonicOf i
  | rs => mnemonicOf i ++ " " ++ String.intercalate ", " (rs.map (fun r => "r" ++ toString r.val))

/-- The pseudo-command GSUB: subtraction is GADD (30_encoding.md R332). -/
def pseudoGsub (rd rs1 rs2 : RegNum) : Instr := .gadd rd rs1 rs2

/-- The pseudo-command GSQR (30_encoding.md R332). -/
def pseudoGsqr (rd rs1 : RegNum) : Instr := .gmul rd rs1 rs1

/-- The pseudo-command GCLR (30_encoding.md R332). -/
def pseudoGclr (rd : RegNum) : Instr := .gadd rd rd rd

end Sys2Proof
end

