-- ==== Sys2Proof/Config.lean ====
section
/-! DEFINITION. What a build of the TVE fixes (the size of DMEM) and the free values: bytes the spec leaves unspecified.
A free value is a constant without a body, so nothing in Lean can evaluate it or prove a value of it. -/

namespace Sys2Proof.Config

/-- The OPEN parameter DMEM_BYTES of 00_scope.md R9: a power of two from 2^16 to 2^28, so there are thirteen sizes.
DESIGN CHOICE (log 2): held in State as data that no step changes; statements hold for every size. -/
structure Params where
  /-- The size is 2^(16 + sizeSel). -/
  sizeSel : Fin 13
  deriving DecidableEq, Repr

/-- log2(DMEM_BYTES), the field PARAM[7:0] of 10_state.md R119. -/
def Params.dmemLog (p : Params) : Nat := 16 + p.sizeSel.val

/-- DMEM_BYTES. -/
def Params.dmemBytes (p : Params) : Nat := 2 ^ p.dmemLog

/-- The reference size 2^24 of 00_scope.md R9. -/
def Params.reference : Params := ⟨8⟩

/-- FREE VALUE (log 1, safe): the byte of DMEM at an address that nothing has written since power-on: "a model must treat
them as unknown, never as zero" (20_memory.md R200). -/
opaque powerOnByte : Nat → Byte

/-- FREE VALUE (log 7, safe): the byte at an address of an output range whose command a reset abandoned: "a model must
treat those bytes as unknown" (70_reset_and_hazards.md R801). The first argument counts the abandoned commands, the
second is the address. -/
opaque abandonedByte : Nat → Nat → Byte

end Sys2Proof.Config
end

