-- ==== Sys2Proof/Machine/State.lean ====
section
/-! DEFINITION. The state of the TVE: everything 10_state.md, 20_memory.md and 46_vault_fsm.md give the machine, the
events of the outside world that are still to come, the errors a command can raise, and the state after reset
(70_reset_and_hazards.md R800). -/

namespace Sys2Proof.Machine

/-- DMEM (20_memory.md R200): the bytes written since power-on, by strictly rising address. An unlisted address holds an
unknown byte, `Config.powerOnByte` (log 1). -/
abbrev Mem := List Host.Cell

/-- The orchestrator states of 46_vault_fsm.md R600. "No other value appears." -/
inductive Fsm where
  | idle | dispatch | exec
  | sealKeygen | sealEncrypt | sealDigest | sealSplit | sealScrub | sealEncode
  | openDecode | openIvCheck | openCombine | openAuth | openDecrypt | openDigest
  deriving DecidableEq, Repr

/-- The errors of a command with the numbers their detail words are made of (60_exceptions.md R700, R701). -/
inductive CmdError where
  | illegalCommand (w : Word)
  | invalidParameters (which : Nat)
  | divisionByZero
  | malformedShare (position reason : Nat)
  | insufficientShares (k : Nat)
  | inconsistent (i : Nat)
  | thresholdNotMet (k : Nat)
  | authenticationFailed (why : Nat)
  | invalidKeyLength (len : Nat)
  | invalidNonceLength (info : Nat)
  | addressFault (id : Nat)
  | bufferOverlap (idOut idOther : Nat)
  deriving DecidableEq, Repr

/-- What the outside world does to the engine, and when the engine moves (10_state.md R100; log 3). -/
inductive Event where
  /-- A host write of `size` bytes of `v` at an aperture offset (20_memory.md R201). -/
  | busWrite (off size : Nat) (v : Word)
  /-- A host read of `size` bytes at an aperture offset. -/
  | busRead (off size : Nat)
  /-- The external entropy source offers one more byte (20_memory.md R232). -/
  | entropyByte (b : Byte)
  /-- The input `rst_n` is driven high or low (70_reset_and_hazards.md R800; log 8). -/
  | rstPin (high : Bool)
  /-- The engine takes one turn: one draw, or the work of one FSM state (log 10). -/
  | engineTurn
  /-- The engine takes turns until its command completes or waits for a byte. -/
  | engineRun
  deriving DecidableEq, Repr

/-- The state of the TVE. -/
structure State where
  /-- The build parameter (00_scope.md R9); no step changes it. -/
  params : Config.Params
  /-- R0..R15 (10_state.md R101). -/
  regs : Vector Word 16
  /-- CTRL.RNG_SRC: true is replay (10_state.md R111). -/
  rngSrc : Bool
  /-- CTRL.IRQ_EN. -/
  irqEn : Bool
  /-- STATUS.BUSY (10_state.md R112). -/
  busy : Bool
  /-- STATUS.DONE. -/
  done : Bool
  /-- STATUS.ERR. -/
  err : Bool
  /-- STATUS.WARN. -/
  warn : Bool
  /-- STATUS.HERR. -/
  herr : Bool
  /-- STATUS.ERRCODE. -/
  errCode : Byte
  /-- STATUS.FSM, the orchestrator state (10_state.md R134). -/
  fsm : Fsm
  /-- CMD (10_state.md R113). -/
  cmd : Word
  /-- ERRINFO (10_state.md R114). -/
  errInfo : Word
  /-- RNG_PTR (10_state.md R115). -/
  rngPtr : Word
  /-- RNG_CNT (10_state.md R116). -/
  rngCnt : Word
  /-- DMEM (20_memory.md R200). -/
  dmem : Mem
  /-- KEYBUF (10_state.md R130): the bytes written since the last scrub, in order; every later byte is zero (log 6). -/
  keyBuf : List Byte
  /-- IVBUF (10_state.md R131), in the same form. -/
  ivBuf : List Byte
  /-- COEFBUF (10_state.md R132), in draw order, in the same form. -/
  coefBuf : List Byte
  /-- SHAREBUF (10_state.md R133): the share records, in order. -/
  shareBuf : List (List Byte)
  /-- The level of the input `rst_n`, true for high (60_exceptions.md R751): while it is low the engine is held in reset
  (70_reset_and_hazards.md R800). -/
  rstN : Bool
  /-- The model's own: the bytes the external entropy port has on offer, next first (20_memory.md R232; log 5). -/
  entropy : List Byte
  /-- The model's own: the events still to come, next first (log 3). -/
  pending : List Event
  /-- The model's own: what the bus returned for the last host read (log 11). -/
  rdata : Word
  /-- The model's own: how many commands a reset has abandoned; `Config.abandonedByte` is taken at it (log 7). -/
  freeCount : Nat
  deriving DecidableEq, Repr

/-- The engine has no fault: every command error completes the command (60_exceptions.md R710), and every refused host
access sets HERR (60_exceptions.md R720), so both are next states and nothing raises a fault. -/
inductive Fault
  deriving DecidableEq, Repr

/-- Why a command has no meaning. Every command has one, so no step answers with a refusal. -/
inductive Refusal where
  /-- Raised by an arm of `exec` for a command without a meaning yet; safe. No arm raises it. -/
  | notModelled (mnemonic : String)
  deriving DecidableEq, Repr

/-- The machine after power-on and hardware reset, `rst_n` high again (70_reset_and_hazards.md R800), with nothing in DMEM known, no entropy
on offer, no event to come, and the reference DMEM size (log 1, 2, 3, 5, 7, 11). -/
def State.reset : State where
  params := Config.Params.reference
  regs := Vector.replicate 16 0
  rngSrc := false
  irqEn := false
  busy := false
  done := false
  err := false
  warn := false
  herr := false
  errCode := 0
  fsm := .idle
  cmd := 0
  errInfo := 0
  rngPtr := 0
  rngCnt := 0
  dmem := []
  keyBuf := []
  ivBuf := []
  coefBuf := []
  shareBuf := []
  rstN := true
  entropy := []
  pending := []
  rdata := 0
  freeCount := 0

end Sys2Proof.Machine
end

