-- ==== Sys2Proof/Machine/Flags.lean ====
section
/-! DEFINITION. The codes and words the host reads: FSM codes (46_vault_fsm.md R600), error codes and detail words
(60_exceptions.md R700, R701), the STATUS and CTRL registers (10_state.md R111, R112) and the irq output
(60_exceptions.md R730). -/

namespace Sys2Proof.Machine

/-- The state codes of 46_vault_fsm.md R600. -/
def Fsm.code : Fsm → Byte
  | .idle        => 0x00
  | .dispatch    => 0x01
  | .exec        => 0x02
  | .sealKeygen  => 0x10
  | .sealEncrypt => 0x11
  | .sealDigest  => 0x12
  | .sealSplit   => 0x13
  | .sealScrub   => 0x14
  | .sealEncode  => 0x15
  | .openDecode  => 0x20
  | .openIvCheck => 0x21
  | .openCombine => 0x22
  | .openAuth    => 0x23
  | .openDecrypt => 0x24
  | .openDigest  => 0x25

/-- The error codes of 60_exceptions.md R700. -/
def CmdError.code : CmdError → Byte
  | .invalidParameters _    => 0x01
  | .divisionByZero         => 0x02
  | .malformedShare _ _     => 0x03
  | .insufficientShares _   => 0x04
  | .inconsistent _         => 0x05
  | .thresholdNotMet _      => 0x06
  | .authenticationFailed _ => 0x07
  | .invalidKeyLength _     => 0x08
  | .invalidNonceLength _   => 0x09
  | .illegalCommand _       => 0x10
  | .addressFault _         => 0x11
  | .bufferOverlap _ _      => 0x12

/-- The detail words of 60_exceptions.md R701. -/
def CmdError.info : CmdError → Word
  | .illegalCommand w            => w
  | .invalidParameters which     => BitVec.ofNat 32 which
  | .divisionByZero              => 0
  | .malformedShare position why => (BitVec.ofNat 32 position <<< 8) ||| BitVec.ofNat 32 why
  | .insufficientShares k        => BitVec.ofNat 32 k
  | .inconsistent i              => BitVec.ofNat 32 i
  | .thresholdNotMet k           => BitVec.ofNat 32 k
  | .authenticationFailed why    => BitVec.ofNat 32 why
  | .invalidKeyLength len        => BitVec.ofNat 32 len
  | .invalidNonceLength info     => BitVec.ofNat 32 info
  | .addressFault id             => BitVec.ofNat 32 id
  | .bufferOverlap idOut idOther => (BitVec.ofNat 32 idOut <<< 16) ||| BitVec.ofNat 32 idOther

/-- The STATUS register (10_state.md R112): reserved bits read 0. -/
def State.statusWord (s : State) : Word :=
  (0 : BitVec 8) ++ s.fsm.code ++ s.errCode ++ (0 : BitVec 3) ++ BitVec.ofBool s.herr ++ BitVec.ofBool s.warn
    ++ BitVec.ofBool s.err ++ BitVec.ofBool s.done ++ BitVec.ofBool s.busy

/-- The CTRL register as it reads (10_state.md R111): bits 0 and 1 and the reserved bits read 0. -/
def State.ctrlWord (s : State) : Word :=
  (0 : BitVec 28) ++ BitVec.ofBool s.irqEn ++ BitVec.ofBool s.rngSrc ++ (0 : BitVec 2)

/-- The PARAM register (10_state.md R119). -/
def State.paramWord (s : State) : Word :=
  (0 : BitVec 8) ++ (0x03 : BitVec 8) ++ (0x1B : BitVec 8) ++ BitVec.ofNat 8 s.params.dmemLog

/-- A host write of STATUS (10_state.md R112, R122): bits 1 to 4 are write-1-to-clear, every other bit ignores it. -/
def State.clearStatus (s : State) (v : Word) : State :=
  { s with
    done := s.done && !v.getLsbD 1
    err  := s.err && !v.getLsbD 2
    warn := s.warn && !v.getLsbD 3
    herr := s.herr && !v.getLsbD 4 }

/-- The interrupt output (60_exceptions.md R730). -/
def State.irq (s : State) : Bool := s.irqEn && (s.done || s.err)

end Sys2Proof.Machine
end

