-- ==== Sys2Proof/Machine/Ops.lean ====
section
/-! DEFINITION. The named operations the commands share: DMEM and register access, draws from the entropy source, the
start and the completion of a command, error completion (the one way a command error is taken), and the engine's turns. -/

namespace Sys2Proof.Machine

/-! ### DMEM (20_memory.md R200, 00_scope.md R13) -/

/-- The canonical form of DMEM: strictly rising addresses. No entry can equal what an unlisted address reads as, since
that is an unknown byte and no value (log 1). -/
abbrev Mem.wf (m : Mem) : Prop := m.Pairwise (fun x y => x.1 < y.1)

/-- The byte written last at an address, if any was written since power-on. -/
def Mem.lookup (m : Mem) (a : Nat) : Option Byte := (m.find? (fun c => c.1 == a)).map (fun c => c.2)

/-- DMEM[a]: the one place that says what an unlisted address reads as (20_memory.md R200). -/
def Mem.byte (m : Mem) (a : Nat) : Byte := (m.lookup a).getD (Config.powerOnByte a)

/-- `MemRead(addr, n)` (00_scope.md R13). -/
def Mem.read (m : Mem) (a n : Nat) : List Byte := (List.range n).map (fun i => m.byte (a + i))

/-- The entries of a byte list stored at an address. -/
def Mem.cells : Nat → List Byte → Mem
  | _, [] => []
  | a, b :: bs => (a, b) :: Mem.cells (a + 1) bs

/-- `MemWrite(addr, n, bs)` (00_scope.md R13). -/
def Mem.write (m : Mem) (a : Nat) (bs : List Byte) : Mem :=
  m.filter (fun c => c.1 < a) ++ Mem.cells a bs ++ m.filter (fun c => a + bs.length ≤ c.1)

/-- The little-endian number of a byte list (20_memory.md R202, R208). -/
def leNat : List Byte → Nat
  | [] => 0
  | b :: bs => b.toNat + 2 ^ 8 * leNat bs

/-- `MemRead32(addr)` (00_scope.md R13). -/
def Mem.read32 (m : Mem) (a : Nat) : Nat := leNat (m.read a 4)

def State.memRead (s : State) (a n : Nat) : List Byte := s.dmem.read a n

def State.memWrite (s : State) (a : Nat) (bs : List Byte) : State := { s with dmem := s.dmem.write a bs }

/-! ### General registers (10_state.md R101) -/

/-- `x[i]`. -/
def State.reg (s : State) (r : RegNum) : Word := s.regs.get r

/-- `x[i] <- v`. -/
def State.setReg (s : State) (r : RegNum) (v : Word) : State := { s with regs := s.regs.set r.val v r.isLt }

/-! ### Draws (20_memory.md R230-R232) -/

/-- `Rng()`: the next byte of the selected source and the state after it, or none while the external port offers no
byte. Either source counts in RNG_CNT. -/
def State.rng (s : State) : Option (Byte × State) :=
  if s.rngSrc then
    some (s.dmem.byte s.rngPtr.toNat, { s with rngPtr := s.rngPtr + 1, rngCnt := s.rngCnt + 1 })
  else
    match s.entropy with
    | [] => none
    | b :: rest => some (b, { s with entropy := rest, rngCnt := s.rngCnt + 1 })

/-- Whether `n` draws can be made without waiting (40_command_lifecycle.md R409). -/
def State.canDraw (s : State) (n : Nat) : Bool := s.rngSrc || n ≤ s.entropy.length

/-- The bytes the next `n` draws give when they need not wait. -/
def State.nextBytes (s : State) (n : Nat) : List Byte :=
  if s.rngSrc then s.memRead s.rngPtr.toNat n else s.entropy.take n

/-- The state after `n` draws that need not wait, but for where their bytes go. -/
def State.afterDraws (s : State) (n : Nat) : State :=
  { s with
    rngPtr := if s.rngSrc then s.rngPtr + BitVec.ofNat 32 n else s.rngPtr
    entropy := if s.rngSrc then s.entropy else s.entropy.drop n
    rngCnt := s.rngCnt + BitVec.ofNat 32 n }

/-! ### Start and completion (40_command_lifecycle.md R400, R407, R408; 60_exceptions.md R710) -/

/-- The START step (40_command_lifecycle.md R400). HERR is not changed. -/
def State.start (s : State) : State :=
  { s with busy := true, done := false, err := false, warn := false, errCode := 0, errInfo := 0, fsm := .dispatch }

/-- Set every hidden buffer to all zero (10_state.md R130-R133). Scrubbing the buffers a command did not write changes
nothing, since they are zero (log 6). -/
def State.scrub (s : State) : State := { s with keyBuf := [], ivBuf := [], coefBuf := [], shareBuf := [] }

/-- What every completion ends with: the scrub, FSM <- IDLE, BUSY <- 0 (40_command_lifecycle.md R407). -/
def State.complete (s : State) : State := { s.scrub with fsm := .idle, busy := false }

/-- Success completion (40_command_lifecycle.md R408). -/
def State.succeed (s : State) : State := { s.complete with done := true }

/-- Success completion of a bulk command with its result in x[0] (92_eei_decisions.md D11). -/
def State.succeedWith (s : State) (result : Nat) : State := (s.setReg 0 (BitVec.ofNat 32 result)).succeed

/-- Success completion with the one non-fatal condition set or not (60_exceptions.md R716). -/
def State.succeedWarn (s : State) (result : Nat) (mismatch : Bool) : State :=
  { s.succeedWith result with warn := s.warn || mismatch }

/-- Error completion, the one way `raise E(info)` is taken (60_exceptions.md R710). -/
def State.fail (s : State) (e : CmdError) : State :=
  { s.complete with errCode := e.code, errInfo := e.info, err := true }

/-! ### The engine's turns (log 10) -/

/-- The outcome of one turn of the engine. -/
inductive Progress where
  /-- The command goes on from this state. -/
  | more (s : State)
  /-- The engine has nothing more to do now: the command has completed, or it waits for an entropy byte. -/
  | ends (s : State)
  deriving DecidableEq, Repr

/-- The state after a turn. -/
def Progress.state : Progress → State
  | .more s => s
  | .ends s => s

/-- Leave DISPATCH (46_vault_fsm.md R603): the first failing check raises its error, else the FSM moves on. -/
def dispatchTo (next : Fsm) (check : Option CmdError) (s : State) : Progress :=
  match check with
  | some e => .ends (s.fail e)
  | none => .more { s with fsm := next }

/-- While draws are left, make one, or wait for it (20_memory.md R232); then go on with `k`. -/
def drawThen (left : Nat) (put : Byte → State → State) (k : State → Progress) (s : State) : Progress :=
  match left with
  | 0 => k s
  | _ + 1 =>
    match s.rng with
    | none => .ends s
    | some (b, s') => .more (put b s')

/-- A command whose checks of phases 1 to 3 are in DISPATCH and whose work is in EXEC (46_vault_fsm.md R600, R601). -/
def simpleTurn (check : State → Option CmdError) (work : State → Progress) (s : State) : Progress :=
  match s.fsm with
  | .exec => work s
  | _ => dispatchTo .exec (check s) s

/-- Take at most so many turns, stopping when the engine has nothing more to do. -/
def runTurns : Nat → (State → Progress) → State → State
  | 0, _, s => s
  | n + 1, turn, s =>
    match turn s with
    | .more s' => runTurns n turn s'
    | .ends s' => s'

/-- More turns than any command takes: SPLIT draws at most 256·254 bytes (10_state.md R132). A run that reached the bound
would go on at the next step from where it stands (log 10). -/
def maxTurns : Nat := 65536

/-- Run a command from where its FSM state says it stands until it completes or waits (40_command_lifecycle.md R412). -/
def runCommand (turn : State → Progress) (s : State) : Host.Outcome State Fault Refusal :=
  .next (runTurns maxTurns turn s)

end Sys2Proof.Machine
end

