-- ==== Sys2Proof/Machine/Operands.lean ====
section
/-! DEFINITION. Operands: byte operands and result registers of the GF commands (92_eei_decisions.md D7), argument registers
of the bulk commands (D11), and DMEM ranges with their range and overlap checks (20_memory.md R210-R212). -/

namespace Sys2Proof.Machine

/-- A byte operand: bits [7:0] of a register; bits [31:8] are ignored (92_eei_decisions.md D7). -/
def State.byteOp (s : State) (r : RegNum) : Byte := (s.reg r).setWidth 8

/-- A whole-register operand as an unsigned number: an address, a length, a count, an exponent (00_scope.md R11). -/
def State.arg (s : State) (r : RegNum) : Nat := (s.reg r).toNat

/-- `x[rd] <- zext_32(b)`. -/
def State.setByte (s : State) (rd : RegNum) (b : Byte) : State := s.setReg rd (b.setWidth 32)

/-- Whether a command reads a range or writes it. -/
inductive Dir where
  | input | output
  deriving DecidableEq, Repr

/-- A DMEM range of a command with its range id (20_memory.md R211). -/
structure Range where
  dir  : Dir
  id   : Nat
  addr : Nat
  len  : Nat
  deriving DecidableEq, Repr

/-- The range id of the replay buffer (20_memory.md R211). -/
def replayId : Nat := 0x20

/-- The range id of the i-th token of VOPEN (20_memory.md R211). -/
def tokenId (i : Nat) : Nat := 0x100 + i

/-- Whether a range lies in a DMEM of `size` bytes, on unbounded naturals; an empty range is always legal (R210). -/
def Range.legal (size : Nat) (r : Range) : Bool := r.len == 0 || r.addr + r.len ≤ size

/-- Whether two ranges overlap (20_memory.md R212). -/
def Range.overlaps (x y : Range) : Bool :=
  0 < x.len && 0 < y.len && x.addr < y.addr + y.len && y.addr < x.addr + x.len

/-- Phase 2 (20_memory.md R211): the first illegal range, in the order listed. -/
def rangeError (size : Nat) (rs : List Range) : Option CmdError :=
  (rs.find? (fun r => !r.legal size)).map (fun r => .addressFault r.id)

/-- The output ranges among the ranges of a command. -/
def outputs (rs : List Range) : List Range := rs.filter (fun r => r.dir == .output)

/-- The input ranges among the ranges of a command. -/
def inputs (rs : List Range) : List Range := rs.filter (fun r => r.dir == .input)

/-- Each output in order against the inputs in order and then the outputs after it; the first overlapping pair (R212). -/
def firstOverlap (ins : List Range) : List Range → Option CmdError
  | [] => none
  | o :: later =>
    match (ins ++ later).find? (fun r => o.overlaps r) with
    | some r => some (.bufferOverlap o.id r.id)
    | none => firstOverlap ins later

/-- Phases 2 and 3 for the ranges of a command in check order (40_command_lifecycle.md R403). -/
def checkRanges (size : Nat) (rs : List Range) : Option CmdError :=
  match rangeError size rs with
  | some e => some e
  | none => firstOverlap (inputs rs) (outputs rs)

/-- The replay buffer as an input range of a command that makes `need` draws, in replay mode (20_memory.md R231). -/
def State.replayRange (s : State) (need : Nat) : List Range :=
  if s.rngSrc then [⟨.input, replayId, s.rngPtr.toNat, need⟩] else []

/-- Checks of phases 1 to 3: the parameter error if there is one, else the range and overlap errors. -/
def checkAll (param : Option CmdError) (s : State) (rs : List Range) : Option CmdError :=
  match param with
  | some e => some e
  | none => checkRanges s.params.dmemBytes rs

end Sys2Proof.Machine
end

