-- ==== Sys2Proof/Machine/Sha256.lean ====
section
/-! DEFINITION. SHA-256, as 45_digest.md R580-R586 states it (general knowledge in the spec's own words, log 15). -/

namespace Sys2Proof.Machine

/-- `[v]_64`: a number as 8 big-endian bytes (44_aead_cipher.md R536, 45_digest.md R583). -/
def be64 (v : Nat) : List Byte := (List.range 8).map (fun i => BitVec.ofNat 8 (v >>> (8 * (7 - i))))

/-- The big-endian word of four bytes (45_digest.md R580). -/
def beWord (b0 b1 b2 b3 : Byte) : Word := b0 ++ b1 ++ b2 ++ b3

/-- The four big-endian bytes of a word (45_digest.md R586). -/
def beBytes (w : Word) : List Byte :=
  [w.extractLsb' 24 8, w.extractLsb' 16 8, w.extractLsb' 8 8, w.extractLsb' 0 8]

/-- The big-endian words of a byte list. -/
def beWords : List Byte → List Word
  | b0 :: b1 :: b2 :: b3 :: rest => beWord b0 b1 b2 b3 :: beWords rest
  | _ => []

def shaCh (e f g : Word) : Word := (e &&& f) ^^^ (~~~e &&& g)
def shaMaj (a b c : Word) : Word := (a &&& b) ^^^ (a &&& c) ^^^ (b &&& c)

/-- The exclusive or of a word rotated right by each of some amounts (45_digest.md R580). -/
def xorRotations (w : Word) (amounts : List Nat) : Word := amounts.foldl (fun acc n => acc ^^^ w.rotateRight n) 0

def bigSigma0 (a : Word) : Word := xorRotations a [2, 13, 22]
def bigSigma1 (e : Word) : Word := xorRotations e [6, 11, 25]
def smallSigma0 (w : Word) : Word := w >>> 3 ^^^ xorRotations w [7, 18]
def smallSigma1 (w : Word) : Word := w >>> 10 ^^^ xorRotations w [17, 19]

/-- Word `j` of a row of eight 32-bit words, the leftmost first, as 45_digest.md R581 and R582 print them. -/
def rowWord (row j : Nat) : Word := BitVec.ofNat 32 (row >>> (32 * (7 - j)))

/-- The table of the round constants, a row of eight words a number (45_digest.md R581). -/
def shaKRows : List Nat :=
  [ 0x428a2f98_71374491_b5c0fbcf_e9b5dba5_3956c25b_59f111f1_923f82a4_ab1c5ed5,
    0xd807aa98_12835b01_243185be_550c7dc3_72be5d74_80deb1fe_9bdc06a7_c19bf174,
    0xe49b69c1_efbe4786_0fc19dc6_240ca1cc_2de92c6f_4a7484aa_5cb0a9dc_76f988da,
    0x983e5152_a831c66d_b00327c8_bf597fc7_c6e00bf3_d5a79147_06ca6351_14292967,
    0x27b70a85_2e1b2138_4d2c6dfc_53380d13_650a7354_766a0abb_81c2c92e_92722c85,
    0xa2bfe8a1_a81a664b_c24b8b70_c76c51a3_d192e819_d6990624_f40e3585_106aa070,
    0x19a4c116_1e376c08_2748774c_34b0bcb5_391c0cb3_4ed8aa4a_5b9cca4f_682e6ff3,
    0x748f82ee_78a5636f_84c87814_8cc70208_90befffa_a4506ceb_bef9a3f7_c67178f2 ]

/-- The round constants K[0..63], row by row (45_digest.md R581). -/
def shaK : List Word := shaKRows.flatMap (fun row => (List.range 8).map (rowWord row))

/-- A hash value: eight words (45_digest.md R584). -/
structure Hash where
  a : Word
  b : Word
  c : Word
  d : Word
  e : Word
  f : Word
  g : Word
  h : Word
  deriving DecidableEq, Repr

/-- The initial hash value H0 (45_digest.md R582). -/
def shaInit : Hash :=
  let h := rowWord 0x6a09e667_bb67ae85_3c6ef372_a54ff53a_510e527f_9b05688c_1f83d9ab_5be0cd19
  ⟨h 0, h 1, h 2, h 3, h 4, h 5, h 6, h 7⟩

/-- Padding (45_digest.md R583). -/
def shaPad (m : List Byte) : List Byte :=
  m ++ 0x80 :: (List.replicate ((55 + 64 - m.length % 64) % 64) 0 ++ be64 (8 * m.length))

/-- The message schedule, newest word first: `n` more words after those made so far (45_digest.md R584). -/
def shaExtend : Nat → List Word → List Word
  | 0, ws => ws
  | n + 1, ws =>
    shaExtend n
      ((smallSigma1 (ws.getD 1 0) + ws.getD 6 0 + smallSigma0 (ws.getD 14 0) + ws.getD 15 0) :: ws)

/-- W[0..63] of a 64-byte block. -/
def shaSchedule (block : List Byte) : List Word := (shaExtend 48 (beWords block).reverse).reverse

/-- One of the 64 rounds with its K[i] and W[i] (45_digest.md R584). -/
def shaRound (x : Hash) (kw : Word × Word) : Hash :=
  let t1 := x.h + bigSigma1 x.e + shaCh x.e x.f x.g + kw.1 + kw.2
  let t2 := bigSigma0 x.a + shaMaj x.a x.b x.c
  ⟨t1 + t2, x.a, x.b, x.c, x.d + t1, x.e, x.f, x.g⟩

/-- Compression of one block (45_digest.md R584). -/
def shaCompress (x : Hash) (block : List Byte) : Hash :=
  let y := (shaK.zip (shaSchedule block)).foldl shaRound x
  ⟨x.a + y.a, x.b + y.b, x.c + y.c, x.d + y.d, x.e + y.e, x.f + y.f, x.g + y.g, x.h + y.h⟩

/-- The first `m` pieces of `size` bytes of a byte string, in order; the last may be shorter. -/
def pieces (size : Nat) : Nat → List Byte → List (List Byte)
  | 0, _ => []
  | m + 1, bs => bs.take size :: pieces size m (bs.drop size)

/-- The bytes of a hash value in output order (45_digest.md R586). -/
def hashBytes (x : Hash) : List Byte :=
  beBytes x.a ++ beBytes x.b ++ beBytes x.c ++ beBytes x.d ++ beBytes x.e ++ beBytes x.f ++ beBytes x.g ++ beBytes x.h

/-- `sha256(M)` (45_digest.md R585). -/
def sha256 (m : List Byte) : List Byte :=
  let p := shaPad m
  hashBytes ((pieces 64 (p.length / 64) p).foldl shaCompress shaInit)

end Sys2Proof.Machine
end

