-- ==== Sys2Proof/Machine/Digest.lean ====
section
/-! DEFINITION. The command HASH (45_digest.md R590). -/

namespace Sys2Proof.Machine

def rangesHash (s : State) : List Range := [⟨.input, 1, s.arg 1, s.arg 2⟩, ⟨.output, 5, s.arg 5, 32⟩]

def workHash (s : State) : Progress :=
  .ends ((s.memWrite (s.arg 5) (sha256 (s.memRead (s.arg 1) (s.arg 2)))).succeedWith 32)

def turnHash : State → Progress := simpleTurn (fun s => checkAll none s (rangesHash s)) workHash

def execHash : State → Host.Outcome State Fault Refusal := runCommand turnHash

end Sys2Proof.Machine
end

