-- ==== Sys2Proof/Machine/Field.lean ====
section
/-! DEFINITION. The field GF(2^8): its ROM tables (10_state.md R140-R143) and the field functions of 41_gf_arith.md
R430-R437, which the sharing unit and AES reuse. The tables are constants: no agent can write them (log 13). -/

namespace Sys2Proof.Machine

/-- Byte `c` of a table row written as in the spec: sixteen bytes, column 0 first. -/
def rowByte (row c : Nat) : Byte := BitVec.ofNat 8 (row >>> (8 * (15 - c)))

/-- Entry `i` of a 256-byte table of sixteen rows. -/
def romByte (rows : List Nat) (i : Nat) : Byte := rowByte (rows.getD (i / 16) 0) (i % 16)

/-- The EXP table (10_state.md R142). -/
def expRows : List Nat :=
  [ 0x0103050f113355ff1a2e7296a1f81335,
    0x5fe13848d87395a4f702060a1e2266aa,
    0xe5345ce43759eb266abed97090abe631,
    0x53f5040c143c44cc4fd168b8d36eb2cd,
    0x4cd467a9e03b4dd762a6f10818287888,
    0x839eb9d06bbddc7f8198b3ce49db769a,
    0xb5c457f9103050f00b1d2769bbd661a3,
    0xfe192b7d8792adec2f7193aee92060a0,
    0xfb163a4ed26db7c25de73256fa153f41,
    0xc35ee23d47c940c05bed2c749cbfda75,
    0x9fbad564acef2a7e829dbcdf7a8e8980,
    0x9bb6c158e82365afea256fb1c843c554,
    0xfc1f2163a5f407091b2d7799b0cb46ca,
    0x45cf4ade798b8691a8e33e42c651f30e,
    0x12365aee297b8d8c8f8a8594a7f20d17,
    0x394bdd7c8497a2fd1c246cb4c752f601 ]

/-- The LOG table (10_state.md R143). -/
def logRows : List Nat :=
  [ 0x0000190132021ac64bc71b6833eedf03,
    0x6404e00e348d81ef4c7108c8f8691cc1,
    0x7dc21db5f9b9276a4de4a6729ac90978,
    0x652f8a05210fe12412f082453593da8e,
    0x968fdbbd36d0ce94135cd2f140468338,
    0x66ddfd30bf068b62b325e29822889110,
    0x7e6e48c3a3b61e423a6b2854fa853dba,
    0x2b790a159b9f5eca4ed4ace5f373a757,
    0xaf58a850f4ead6744faee9d5e7e6ade8,
    0x2cd7757aeb160bf559cb5fb09ca951a0,
    0x7f0cf66f17c449ecd8431f2da4767bb7,
    0xccbb3e5afb60b1863b52a16caa55299d,
    0x97b2879061bedcfcbc95cfcd373f5bd1,
    0x5339843c41a26d47142a9e5d56f2d3ab,
    0x441192d923202e89b47cb8267799e3a5,
    0x674aeddec531fe180d638c80c0f77007 ]

/-- `EXP[i]`. -/
def expRom (i : Nat) : Byte := romByte expRows i

/-- `LOG[a]` as a number. -/
def logRom (a : Byte) : Nat := (romByte logRows a.toNat).toNat

/-- The bitwise product modulo 0x11b, GF_POLY (41_gf_arith.md R430), over the bits of `b` from `i` on. -/
def mulpolyFrom : Nat → BitVec 9 → Byte → BitVec 9 → BitVec 9
  | 0, _, _, r => r
  | n + 1, a, b, r =>
    let a' := a <<< 1
    mulpolyFrom n (if a.getLsbD 7 then a' ^^^ 0x11b else a') (b >>> 1) (if b.getLsbD 0 then r ^^^ a else r)

/-- `mulpoly(a, b)`: multiplication of polynomials modulo x^8+x^4+x^3+x+1 (41_gf_arith.md R430). -/
def mulpoly (a b : Byte) : Byte := (mulpolyFrom 8 (a.setWidth 9) b 0).setWidth 8

/-- 41_gf_arith.md R431. -/
def gadd (a b : Byte) : Byte := a ^^^ b

/-- 41_gf_arith.md R432. -/
def gmul (a b : Byte) : Byte := if a = 0 ∨ b = 0 then 0 else expRom ((logRom a + logRom b) % 255)

/-- The quotient for a divisor that is not 0 (41_gf_arith.md R433; a zero dividend gives 0, decision D4). -/
def gquot (a b : Byte) : Byte := if a = 0 then 0 else expRom ((logRom a + 255 - logRom b) % 255)

/-- `gdiv(a, b)`, none where it raises DivisionByZero (41_gf_arith.md R433). -/
def gdiv (a b : Byte) : Option Byte := if b = 0 then none else some (gquot a b)

/-- `gpow(a, k)` (41_gf_arith.md R434, decision D5). -/
def gpow (a : Byte) (k : Nat) : Byte :=
  if k = 0 then 1 else if a = 0 then 0 else expRom ((logRom a * (k % 255)) % 255)

/-- `ginv(a)`, none where it raises DivisionByZero (41_gf_arith.md R435, decision D6). -/
def ginv (a : Byte) : Option Byte := if a = 0 then none else some (expRom ((255 - logRom a) % 255))

/-- `peval(c, x)` by Horner's rule, the constant term first in the list (41_gf_arith.md R437). -/
def peval (c : List Byte) (x : Byte) : Byte := c.foldr (fun ci acc => gadd (gmul acc x) ci) 0

end Sys2Proof.Machine
end

