-- ==== Sys2Proof/Machine/Gf.lean ====
section
/-! DEFINITION. NOP (40_command_lifecycle.md R410) and the GF commands (41_gf_arith.md R440-R445). -/

namespace Sys2Proof.Machine

/-- NOP: `skip` (40_command_lifecycle.md R410). -/
def turnNop : State → Progress := simpleTurn (fun _ => none) (fun s => .ends s.succeed)

def execNop : State → Host.Outcome State Fault Refusal := runCommand turnNop

/-- GADD (41_gf_arith.md R440). -/
def turnGadd (rd rs1 rs2 : RegNum) : State → Progress :=
  simpleTurn (fun _ => none) (fun s => .ends (s.setByte rd (gadd (s.byteOp rs1) (s.byteOp rs2))).succeed)

def execGadd (rd rs1 rs2 : RegNum) : State → Host.Outcome State Fault Refusal := runCommand (turnGadd rd rs1 rs2)

/-- GMUL (41_gf_arith.md R441). -/
def turnGmul (rd rs1 rs2 : RegNum) : State → Progress :=
  simpleTurn (fun _ => none) (fun s => .ends (s.setByte rd (gmul (s.byteOp rs1) (s.byteOp rs2))).succeed)

def execGmul (rd rs1 rs2 : RegNum) : State → Host.Outcome State Fault Refusal := runCommand (turnGmul rd rs1 rs2)

/-- The check of a register value for 0, which GDIV and GINV make (41_gf_arith.md R442, R444). DEDUCED (log 9): it is a
check of phase 1, on a register value, so it is made in DISPATCH. -/
def zeroCheck (r : RegNum) (s : State) : Option CmdError := if s.byteOp r = 0 then some .divisionByZero else none

/-- A field result, or the DivisionByZero that the field function raises. -/
def fieldResult (rd : RegNum) (result : Option Byte) (s : State) : Progress :=
  match result with
  | some b => .ends (s.setByte rd b).succeed
  | none => .ends (s.fail .divisionByZero)

/-- GDIV (41_gf_arith.md R442). -/
def turnGdiv (rd rs1 rs2 : RegNum) : State → Progress :=
  simpleTurn (zeroCheck rs2) (fun s => fieldResult rd (gdiv (s.byteOp rs1) (s.byteOp rs2)) s)

def execGdiv (rd rs1 rs2 : RegNum) : State → Host.Outcome State Fault Refusal := runCommand (turnGdiv rd rs1 rs2)

/-- GPOW (41_gf_arith.md R443): the exponent is the whole register. -/
def turnGpow (rd rs1 rs2 : RegNum) : State → Progress :=
  simpleTurn (fun _ => none) (fun s => .ends (s.setByte rd (gpow (s.byteOp rs1) (s.arg rs2))).succeed)

def execGpow (rd rs1 rs2 : RegNum) : State → Host.Outcome State Fault Refusal := runCommand (turnGpow rd rs1 rs2)

/-- GINV (41_gf_arith.md R444). -/
def turnGinv (rd rs1 : RegNum) : State → Progress :=
  simpleTurn (zeroCheck rs1) (fun s => fieldResult rd (ginv (s.byteOp rs1)) s)

def execGinv (rd rs1 : RegNum) : State → Host.Outcome State Fault Refusal := runCommand (turnGinv rd rs1)

/-- The one range of GEVAL: its id is the number of the address register (41_gf_arith.md R445). -/
def rangesGeval (rs1 rs2 : RegNum) (s : State) : List Range := [⟨.input, rs1.val, s.arg rs1, s.arg rs2⟩]

/-- GEVAL (41_gf_arith.md R445). -/
def turnGeval (rd rs1 rs2 rs3 : RegNum) : State → Progress :=
  simpleTurn (fun s => checkAll none s (rangesGeval rs1 rs2 s))
    (fun s => .ends (s.setByte rd (peval (s.memRead (s.arg rs1) (s.arg rs2)) (s.byteOp rs3))).succeed)

def execGeval (rd rs1 rs2 rs3 : RegNum) : State → Host.Outcome State Fault Refusal :=
  runCommand (turnGeval rd rs1 rs2 rs3)

end Sys2Proof.Machine
end

