-- ==== Sys2Proof/Machine/Aes.lean ====
section
/-! DEFINITION. The AES-256 block cipher, as 44_aead_cipher.md R530-R535 states it (general knowledge in the spec's own
words, log 15). A block is a list of 16 bytes; the state byte s[r][c] is element r + 4c (R530). -/

namespace Sys2Proof.Machine

/-- The S-box table (44_aead_cipher.md R532). -/
def sboxRows : List Nat :=
  [ 0x637c777bf26b6fc53001672bfed7ab76,
    0xca82c97dfa5947f0add4a2af9ca472c0,
    0xb7fd9326363ff7cc34a5e5f171d83115,
    0x04c723c31896059a071280e2eb27b275,
    0x09832c1a1b6e5aa0523bd6b329e32f84,
    0x53d100ed20fcb15b6acbbe394a4c58cf,
    0xd0efaafb434d338545f9027f503c9fa8,
    0x51a3408f929d38f5bcb6da2110fff3d2,
    0xcd0c13ec5f974417c4a77e3d645d1973,
    0x60814fdc222a908846eeb814de5e0bdb,
    0xe0323a0a4906245cc2d3ac629195e479,
    0xe7c8376d8dd54ea96c56f4ea657aae08,
    0xba78252e1ca6b4c6e8dd741f4bbd8b8a,
    0x703eb5664803f60e613557b986c11d9e,
    0xe1f8981169d98e949b1e87e9ce5528df,
    0x8ca1890dbfe6426841992d0fb054bb16 ]

/-- `S(a)`. -/
def sbox (a : Byte) : Byte := romByte sboxRows a.toNat

/-- Bytewise exclusive-or, as long as the shorter list. -/
def xorBytes (xs ys : List Byte) : List Byte := List.zipWith (fun x y => x ^^^ y) xs ys

/-- SubBytes (44_aead_cipher.md R533). -/
def subBytes (b : List Byte) : List Byte := b.map sbox

/-- ShiftRows: s'[r][c] = s[r][(c + r) mod 4] (44_aead_cipher.md R533). -/
def shiftRows (b : List Byte) : List Byte :=
  (List.range 16).map (fun i => b.getD (i % 4 + 4 * ((i / 4 + i % 4) % 4)) 0)

/-- MixColumns (44_aead_cipher.md R533), column by column. -/
def mixColumns : List Byte → List Byte
  | a0 :: a1 :: a2 :: a3 :: rest =>
    (gmul 2 a0 ^^^ gmul 3 a1 ^^^ a2 ^^^ a3)
      :: (a0 ^^^ gmul 2 a1 ^^^ gmul 3 a2 ^^^ a3)
      :: (a0 ^^^ a1 ^^^ gmul 2 a2 ^^^ gmul 3 a3)
      :: (gmul 3 a0 ^^^ a1 ^^^ a2 ^^^ gmul 2 a3)
      :: mixColumns rest
  | _ => []

/-- Four bytes of a list from an offset. -/
def word4 (k : List Byte) (i : Nat) : List Byte := (k.drop (4 * i)).take 4

/-- RotWord. -/
def rotWord (t : List Byte) : List Byte := t.drop 1 ++ t.take 1

/-- One step of the key expansion (44_aead_cipher.md R534): from the words made so far, newest first, and rc, the next
word i and the next rc. -/
def expandStep (i : Nat) (ws : List (List Byte)) (rc : Byte) : List (List Byte) × Byte :=
  let t := ws.getD 0 []
  let old := ws.getD 7 []
  if i % 8 = 0 then (xorBytes old (xorBytes (subBytes (rotWord t)) [rc, 0, 0, 0]) :: ws, gmul rc 2)
  else if i % 8 = 4 then (xorBytes old (subBytes t) :: ws, rc)
  else (xorBytes old t :: ws, rc)

/-- `n` steps of the key expansion from word `i` on. -/
def expandFrom : Nat → Nat → List (List Byte) → Byte → List (List Byte)
  | 0, _, ws, _ => ws
  | n + 1, i, ws, rc =>
    let next := expandStep i ws rc
    expandFrom n (i + 1) next.1 next.2

/-- The words w[0..59] of a 32-byte key, in order (44_aead_cipher.md R534). -/
def expandKey (k : List Byte) : List (List Byte) :=
  (expandFrom 52 8 ((List.range 8).map (word4 k)).reverse 1).reverse

/-- The fifteen round keys of 16 bytes: round q is w[4q..4q+3] (44_aead_cipher.md R533, AddRoundKey). -/
def roundKeys (k : List Byte) : List (List Byte) :=
  let ws := expandKey k
  (List.range 15).map (fun q => ((ws.drop (4 * q)).take 4).flatten)

/-- The rounds after the first AddRoundKey: MixColumns in every round but the last (44_aead_cipher.md R535). -/
def aesRounds : List (List Byte) → List Byte → List Byte
  | [], b => b
  | [last], b => xorBytes (shiftRows (subBytes b)) last
  | q :: rest, b => aesRounds rest (xorBytes (mixColumns (shiftRows (subBytes b))) q)

/-- `E(K, in)` for the round keys of K. -/
def aesWith (keys : List (List Byte)) (b : List Byte) : List Byte :=
  match keys with
  | [] => b
  | q :: rest => aesRounds rest (xorBytes b q)

/-- `E(K, in)` (44_aead_cipher.md R535). -/
def aes (k b : List Byte) : List Byte := aesWith (roundKeys k) b

end Sys2Proof.Machine
end

