-- ==== Sys2Proof/Machine/Gcm.lean ====
section
/-! DEFINITION. GCM over AES-256 with a 12-byte IV and empty associated data, as 44_aead_cipher.md R536-R541 states it
(general knowledge in the spec's own words, log 15). -/

namespace Sys2Proof.Machine

/-- A 16-byte block as a 128-bit number, byte 0 most significant (44_aead_cipher.md R536). -/
def blockOf (bs : List Byte) : Block := bs.foldl (fun acc b => (acc <<< 8) ||| b.setWidth 128) 0

/-- The 16 bytes of a block. -/
def blockBytes (x : Block) : List Byte := (List.range 16).map (fun i => x.extractLsb' (8 * (15 - i)) 8)

/-- V · x in GF(2^128): the step of V in 44_aead_cipher.md R537. -/
def mulStep (v : Block) : Block :=
  if v.getLsbD 0 then (v >>> 1) ^^^ 0xE1000000_00000000_00000000_00000000 else v >>> 1

/-- The loop of 44_aead_cipher.md R537 over the `n` bits of X that are left. -/
def gfMulFrom (x : Block) : Nat → Block → Block → Block
  | 0, z, _ => z
  | n + 1, z, v => gfMulFrom x n (if x.getLsbD n then z ^^^ v else z) (mulStep v)

/-- `X • Y` (44_aead_cipher.md R537): bit i from the most significant is bit 127 - i. -/
def gfMul (x y : Block) : Block := gfMulFrom x 128 0 y

/-- `GHASH_H(X)` (44_aead_cipher.md R538). -/
def ghash (h : Block) (bs : List Byte) : Block :=
  (pieces 16 (bs.length / 16) bs).foldl (fun y x => gfMul (y ^^^ blockOf x) h) 0

/-- `inc32(CB)` (44_aead_cipher.md R539): bytes 12 to 15 count modulo 2^32. -/
def inc32 (cb : Block) : Block := (cb.extractLsb' 32 96) ++ (cb.extractLsb' 0 32 + 1)

/-- The pieces of GCTR, each against the cipher of its counter block (44_aead_cipher.md R539). -/
def gctrFrom (keys : List (List Byte)) : Block → List (List Byte) → List Byte
  | _, [] => []
  | cb, x :: xs => xorBytes x (aesWith keys (blockBytes cb)) ++ gctrFrom keys (inc32 cb) xs

/-- `GCTR(K, ICB, X)` (44_aead_cipher.md R539). -/
def gctr (keys : List (List Byte)) (icb : Block) (x : List Byte) : List Byte :=
  gctrFrom keys icb (pieces 16 ((x.length + 15) / 16) x)

/-- `J0 = IV ++ [0, 0, 0, 1]` (44_aead_cipher.md R540). -/
def preCounter (iv : List Byte) : Block := blockOf (iv ++ [0, 0, 0, 1])

/-- The tag of a ciphertext: `GCTR(K, J0, S)` (44_aead_cipher.md R540). -/
def gcmTag (keys : List (List Byte)) (iv c : List Byte) : List Byte :=
  let h := blockOf (aesWith keys (List.replicate 16 0))
  let u := (16 - c.length % 16) % 16
  let s := ghash h (c ++ List.replicate u 0 ++ be64 0 ++ be64 (8 * c.length))
  gctr keys (preCounter iv) (blockBytes s)

/-- `gcm_enc(K, IV, P)` (44_aead_cipher.md R540). -/
def gcmEnc (k iv p : List Byte) : List Byte :=
  let keys := roundKeys k
  let c := gctr keys (inc32 (preCounter iv)) p
  c ++ gcmTag keys iv c

/-- The ciphertext and the tag of C ++ T (30_encoding.md R324). -/
def splitTag (ct : List Byte) : List Byte × List Byte := (ct.take (ct.length - 16), ct.drop (ct.length - 16))

/-- Whether the tag of C ++ T verifies (44_aead_cipher.md R541, R542). -/
def gcmVerify (k iv ct : List Byte) : Bool :=
  gcmTag (roundKeys k) iv (splitTag ct).1 == (splitTag ct).2

/-- The plaintext of C ++ T (44_aead_cipher.md R541). -/
def gcmPlain (k iv ct : List Byte) : List Byte :=
  gctr (roundKeys k) (inc32 (preCounter iv)) (splitTag ct).1

/-- `gcm_dec(K, IV, CT)`: the tag first, none where it FAILs (44_aead_cipher.md R541). -/
def gcmDec (k iv ct : List Byte) : Option (List Byte) :=
  if gcmVerify k iv ct then some (gcmPlain k iv ct) else none

end Sys2Proof.Machine
end

