-- ==== Sys2Proof/Machine/Cipher.lean ====
section
/-! DEFINITION. The envelope cipher commands AENC and ADEC (44_aead_cipher.md R560, R565). -/

namespace Sys2Proof.Machine

/-- The draws of a key and a nonce: 32 and 12 (00_scope.md R9, KEY_BYTES and IV_BYTES). -/
def keyIvDraws : Nat := 44

/-- The next drawn byte goes to KEYBUF until it holds 32, then to IVBUF (44_aead_cipher.md R560, 46_vault_fsm.md R612). -/
def putKeyIv (b : Byte) (s : State) : State :=
  if s.keyBuf.length < 32 then { s with keyBuf := s.keyBuf ++ [b] } else { s with ivBuf := s.ivBuf ++ [b] }

/-- The draws of KEYBUF and IVBUF that are left. -/
def leftKeyIv (s : State) : Nat := keyIvDraws - (s.keyBuf.length + s.ivBuf.length)

/-! ### AENC (44_aead_cipher.md R560) -/

def rangesAenc (s : State) : List Range :=
  [⟨.input, 1, s.arg 1, s.arg 2⟩, ⟨.output, 5, s.arg 5, s.arg 2 + 16⟩, ⟨.output, 6, s.arg 6, 32⟩,
    ⟨.output, 7, s.arg 7, 12⟩, ⟨.output, 8, s.arg 8, 32⟩] ++ s.replayRange keyIvDraws

/-- The work of AENC once KEYBUF and IVBUF are drawn. -/
def workAenc (s : State) : Progress :=
  let p := s.memRead (s.arg 1) (s.arg 2)
  let s1 := s.memWrite (s.arg 5) (gcmEnc s.keyBuf s.ivBuf p)
  let s2 := s1.memWrite (s.arg 6) s.keyBuf
  let s3 := s2.memWrite (s.arg 7) s.ivBuf
  let s4 := s3.memWrite (s.arg 8) (sha256 p)
  .ends (s4.succeedWith (s.arg 2 + 16))

def turnAenc : State → Progress :=
  simpleTurn (fun s => checkAll none s (rangesAenc s)) (fun s => drawThen (leftKeyIv s) putKeyIv workAenc s)

def execAenc : State → Host.Outcome State Fault Refusal := runCommand turnAenc

/-! ### ADEC (44_aead_cipher.md R565) -/

/-- The plaintext length of a ciphertext with its tag. -/
def plainLen (cl : Nat) : Nat := cl - 16

def rangesAdec (s : State) : List Range :=
  [⟨.input, 1, s.arg 1, s.arg 2⟩, ⟨.input, 3, s.arg 3, 32⟩, ⟨.input, 6, s.arg 6, 12⟩,
    ⟨.output, 5, s.arg 5, plainLen (s.arg 2)⟩]

def paramsAdec (s : State) : Option CmdError :=
  if s.arg 4 ≠ 32 then some (.invalidKeyLength (s.arg 4))
  else if s.arg 7 ≠ 12 then some (.invalidNonceLength (s.arg 7))
  else none

/-- Phase 4 and 5 of ADEC: the tag is verified before any plaintext exists. -/
def workAdec (s : State) : Progress :=
  if s.arg 2 < 16 then .ends (s.fail (.authenticationFailed 1))
  else
    let s1 := { s with keyBuf := s.memRead (s.arg 3) 32, ivBuf := s.memRead (s.arg 6) 12 }
    match gcmDec s1.keyBuf s1.ivBuf (s1.memRead (s.arg 1) (s.arg 2)) with
    | none => .ends (s1.fail (.authenticationFailed 2))
    | some p => .ends ((s1.memWrite (s.arg 5) p).succeedWith (plainLen (s.arg 2)))

def turnAdec : State → Progress := simpleTurn (fun s => checkAll (paramsAdec s) s (rangesAdec s)) workAdec

def execAdec : State → Host.Outcome State Fault Refusal := runCommand turnAdec

end Sys2Proof.Machine
end

