-- ==== Sys2Proof/Machine/Hex.lean ====
section
/-! DEFINITION. The text helpers of 00_scope.md R16: hex digits and hex strings. -/

namespace Sys2Proof.Machine

/-- `hexchar(d)`: lower case. -/
def hexchar (d : BitVec 4) : Byte := if d.toNat < 10 then 0x30 + d.setWidth 8 else 0x57 + d.setWidth 8

/-- `hex2(b)`, high nibble first. -/
def hex2 (b : Byte) : List Byte := [hexchar (b.extractLsb' 4 4), hexchar (b.extractLsb' 0 4)]

/-- `hexhex(bs)`. -/
def hexhex (bs : List Byte) : List Byte := bs.flatMap hex2

/-- `ishex(c)`: upper and lower case (43_share_codec.md R511). -/
def ishex (c : Byte) : Bool :=
  (0x30 ≤ c.toNat && c.toNat ≤ 0x39) || (0x41 ≤ c.toNat && c.toNat ≤ 0x46) || (0x61 ≤ c.toNat && c.toNat ≤ 0x66)

/-- `hexval(c)`, for a hex digit. -/
def hexval (c : Byte) : Nat :=
  if c.toNat ≤ 0x39 then c.toNat - 0x30 else if c.toNat ≤ 0x46 then c.toNat - 0x41 + 10 else c.toNat - 0x61 + 10

/-- `unhex2(c1, c2)`. -/
def unhex2 (c1 c2 : Byte) : Byte := BitVec.ofNat 8 (16 * hexval c1 + hexval c2)

/-- `unhex2` of each pair of bytes, in order. -/
def unhex : List Byte → List Byte
  | c1 :: c2 :: cs => unhex2 c1 c2 :: unhex cs
  | _ => []

end Sys2Proof.Machine
end

