-- ==== Sys2Proof/Machine/Sharing.lean ====
section
/-! DEFINITION. Shamir sharing: the functions of 42_shamir.md R470-R473 and the commands SPLIT and COMBINE. -/

namespace Sys2Proof.Machine

/-- The n/t check that SPLIT and VSEAL share (42_shamir.md R470), on whole unsigned values. -/
def splitParams (n t : Nat) : Option CmdError :=
  if 2 ≤ t ∧ t ≤ n ∧ n ≤ 255 then none else some (.invalidParameters 0x34)

/-- The legal secret lengths of the primitives (92_eei_decisions.md D18). -/
def legalLength (L : Nat) : Bool := 1 ≤ L && L ≤ 256

/-- Coefficients a[p][1..t-1] of secret byte p in the order they were drawn (42_shamir.md R471). -/
def coeffs (t : Nat) (a : List Byte) (p : Nat) : List Byte := (a.drop (p * (t - 1))).take (t - 1)

/-- Share record i of a secret (42_shamir.md R472): bitLength 8, index i, one value a secret byte. -/
def shareRecord (secret : List Byte) (t : Nat) (a : List Byte) (i : Nat) : List Byte :=
  let x : Byte := BitVec.ofNat 8 i
  8 :: x :: secret.zipIdx.map (fun sp => peval (sp.1 :: coeffs t a sp.2) x)

/-- `splitfn(s, n, t, a)`: the records 1..n (42_shamir.md R472). -/
def splitfn (secret : List Byte) (n t : Nat) (a : List Byte) : List (List Byte) :=
  (List.range' 1 n).map (shareRecord secret t a)

/-- The Lagrange weight at 0 of share i among the indices `xs` (42_shamir.md R473). The divisors are not 0, since the
indices differ (R481). -/
def lagrange (xs : List Byte) (i : Nat) : Byte :=
  (List.range xs.length).foldl
    (fun l j => if j = i then l else gmul l (gquot (xs.getD j 0) (gadd (xs.getD i 0) (xs.getD j 0)))) 1

/-- `combinefn` over records of secret length L, each bitLength, index, values (42_shamir.md R473). -/
def combinefn (L : Nat) (recs : List (List Byte)) : List Byte :=
  let xs := recs.map (fun r => r.getD 1 0)
  let ws := (List.range recs.length).map (lagrange xs)
  (List.range L).map (fun p =>
    (recs.zip ws).foldl (fun acc rw => gadd acc (gmul (rw.1.getD (2 + p) 0) rw.2)) 0)

/-- The first record, from the second on, whose index an earlier record has (42_shamir.md R480, phase 4). -/
def firstDuplicate (recs : List (List Byte)) : Option Nat :=
  let xs := recs.map (fun r => r.getD 1 0)
  (List.range xs.length).find? (fun i => (xs.take i).contains (xs.getD i 0))

/-- Duplicates, then k < 2, then the asserted threshold: the combine checks that COMBINE and VOPEN share, in their order
(42_shamir.md R480, 46_vault_fsm.md R620, 90_conflicts.md C1). -/
def combineError (recs : List (List Byte)) (k te : Nat) : Option CmdError :=
  match firstDuplicate recs with
  | some i => some (.inconsistent i)
  | none =>
    if k < 2 then some (.insufficientShares k)
    else if te ≠ 0 ∧ k < te then some (.thresholdNotMet k)
    else none

/-! ### SPLIT (42_shamir.md R475) -/

/-- The draws SPLIT makes in all. -/
def needSplit (s : State) : Nat := s.arg 2 * (s.arg 4 - 1)

def rangesSplit (s : State) : List Range :=
  [⟨.input, 1, s.arg 1, s.arg 2⟩, ⟨.output, 5, s.arg 5, s.arg 3 * (s.arg 2 + 2)⟩] ++ s.replayRange (needSplit s)

def paramsSplit (s : State) : Option CmdError :=
  match splitParams (s.arg 3) (s.arg 4) with
  | some e => some e
  | none => if legalLength (s.arg 2) then none else some (.invalidParameters 2)

/-- COEFBUF takes the next drawn byte. -/
def putCoef (b : Byte) (s : State) : State := { s with coefBuf := s.coefBuf ++ [b] }

/-- The work of SPLIT once COEFBUF is drawn. -/
def workSplit (s : State) : Progress :=
  let recs := splitfn (s.memRead (s.arg 1) (s.arg 2)) (s.arg 3) (s.arg 4) s.coefBuf
  .ends ((s.memWrite (s.arg 5) recs.flatten).succeedWith (s.arg 3 * (s.arg 2 + 2)))

/-- The draws SPLIT has still to make. -/
def leftSplit (s : State) : Nat := needSplit s - s.coefBuf.length

def turnSplit : State → Progress :=
  simpleTurn (fun s => checkAll (paramsSplit s) s (rangesSplit s))
    (fun s => drawThen (leftSplit s) putCoef workSplit s)

def execSplit : State → Host.Outcome State Fault Refusal := runCommand turnSplit

/-! ### COMBINE (42_shamir.md R480) -/

def rangesCombine (s : State) : List Range :=
  [⟨.input, 1, s.arg 1, s.arg 3 * (s.arg 2 + 2)⟩, ⟨.output, 5, s.arg 5, s.arg 2⟩]

def paramsCombine (s : State) : Option CmdError :=
  if !legalLength (s.arg 2) then some (.invalidParameters 2)
  else if 255 < s.arg 3 then some (.invalidParameters 3)
  else none

/-- The k records of L + 2 bytes, back to back (30_encoding.md R320). -/
def readRecords (s : State) (base L k : Nat) : List (List Byte) :=
  (List.range k).map (fun i => s.memRead (base + i * (L + 2)) (L + 2))

/-- The check of one record of COMBINE: bitLength, then index 0. -/
def recordError (i : Nat) (r : List Byte) : Option CmdError :=
  if r.getD 0 0 ≠ 8 then some (.inconsistent i)
  else if r.getD 1 0 = 0 then some (.malformedShare i 4)
  else none

/-- The first record error, record by record. -/
def recordErrors (recs : List (List Byte)) : Option CmdError :=
  recs.zipIdx.findSome? (fun ri => recordError ri.2 ri.1)

/-- Phase 4 and 5 of COMBINE. -/
def workCombine (s : State) : Progress :=
  let recs := readRecords s (s.arg 1) (s.arg 2) (s.arg 3)
  match (recordErrors recs).or (combineError recs (s.arg 3) (s.arg 4)) with
  | some e => .ends (s.fail e)
  | none => .ends ((s.memWrite (s.arg 5) (combinefn (s.arg 2) recs)).succeedWith (s.arg 2))

def turnCombine : State → Progress :=
  simpleTurn (fun s => checkAll (paramsCombine s) s (rangesCombine s)) workCombine

def execCombine : State → Host.Outcome State Fault Refusal := runCommand turnCombine

end Sys2Proof.Machine
end

