-- ==== Sys2Proof/Machine/Codec.lean ====
section
/-! DEFINITION. The share codec: the functions of 43_share_codec.md R500 and R501 and the commands ENCODE and DECODE. -/

namespace Sys2Proof.Machine

/-- `encodefn(rec)` (43_share_codec.md R500; the token layout is 30_encoding.md R321). -/
def encodefn (r : List Byte) : List Byte := 0x38 :: (hex2 (r.getD 1 0) ++ hexhex (r.drop 2))

/-- `decodefn(tok, L)`: a record, or the number of the failure reason; the checks run in the order of R501. -/
def decodefn (tok : List Byte) (L : Nat) : Except Nat (List Byte) :=
  if tok.length ≠ 3 + 2 * L then .error 1
  else if !tok.all ishex then .error 2
  else if tok.getD 0 0 ≠ 0x38 then .error 3
  else if unhex2 (tok.getD 1 0) (tok.getD 2 0) = 0 then .error 4
  else .ok (8 :: unhex (tok.drop 1))

/-! ### ENCODE (43_share_codec.md R505) -/

def rangesEncode (s : State) : List Range :=
  [⟨.input, 1, s.arg 1, s.arg 2 + 2⟩, ⟨.output, 5, s.arg 5, 3 + 2 * s.arg 2⟩]

def paramsEncode (s : State) : Option CmdError :=
  if legalLength (s.arg 2) then none else some (.invalidParameters 2)

/-- Phase 4 and 5 of ENCODE (decision D46). -/
def workEncode (s : State) : Progress :=
  let r := s.memRead (s.arg 1) (s.arg 2 + 2)
  if r.getD 0 0 ≠ 8 then .ends (s.fail (.malformedShare 0 3))
  else if r.getD 1 0 = 0 then .ends (s.fail (.malformedShare 0 4))
  else .ends ((s.memWrite (s.arg 5) (encodefn r)).succeedWith (3 + 2 * s.arg 2))

def turnEncode : State → Progress :=
  simpleTurn (fun s => checkAll (paramsEncode s) s (rangesEncode s)) workEncode

def execEncode : State → Host.Outcome State Fault Refusal := runCommand turnEncode

/-! ### DECODE (43_share_codec.md R510) -/

def rangesDecode (s : State) : List Range :=
  [⟨.input, 1, s.arg 1, s.arg 2⟩, ⟨.output, 5, s.arg 5, s.arg 3 + 2⟩]

def paramsDecode (s : State) : Option CmdError :=
  if legalLength (s.arg 3) then none else some (.invalidParameters 3)

/-- Phase 4 and 5 of DECODE. -/
def workDecode (s : State) : Progress :=
  match decodefn (s.memRead (s.arg 1) (s.arg 2)) (s.arg 3) with
  | .error reason => .ends (s.fail (.malformedShare 0 reason))
  | .ok r => .ends ((s.memWrite (s.arg 5) r).succeedWith (s.arg 3 + 2))

def turnDecode : State → Progress :=
  simpleTurn (fun s => checkAll (paramsDecode s) s (rangesDecode s)) workDecode

def execDecode : State → Host.Outcome State Fault Refusal := runCommand turnDecode

end Sys2Proof.Machine
end

