-- ==== Sys2Proof/Machine/Vault.lean ====
section
/-! DEFINITION. The threshold-vault orchestrator: VSEAL (46_vault_fsm.md R610-R612) and VOPEN (R620, R625). One definition
for the work of each FSM state of R600. A local of the pseudocode that several states use (the document, the plaintext)
is computed again from DMEM and the hidden buffers, which no state in between changes (log 12). -/

namespace Sys2Proof.Machine

/-- VAULT_L (00_scope.md R9). -/
def vaultL : Nat := 32

/-- TOKEN_LEN(32) (00_scope.md R9). -/
def tokenLen : Nat := 67

/-- Go on to the next state of the path (46_vault_fsm.md R604). -/
def goTo (next : Fsm) (s : State) : Progress := .more { s with fsm := next }

/-! ### VSEAL (46_vault_fsm.md R610) -/

/-- The coefficient draws of VSEAL. -/
def needSeal (s : State) : Nat := vaultL * (s.arg 4 - 1)

def rangesVseal (s : State) : List Range :=
  [⟨.input, 1, s.arg 1, s.arg 2⟩, ⟨.output, 5, s.arg 5, s.arg 2 + 16⟩, ⟨.output, 6, s.arg 6, 24⟩,
    ⟨.output, 7, s.arg 7, tokenLen * s.arg 3⟩, ⟨.output, 8, s.arg 8, 64⟩]
    ++ s.replayRange (keyIvDraws + needSeal s)

/-- SEAL_KEYGEN, once the key and the IV are drawn: write the IV hex. -/
def sealKeygen (s : State) : State := s.memWrite (s.arg 6) (hexhex s.ivBuf)

/-- SEAL_ENCRYPT: write ciphertext and tag. -/
def sealEncrypt (s : State) : State :=
  s.memWrite (s.arg 5) (gcmEnc s.keyBuf s.ivBuf (s.memRead (s.arg 1) (s.arg 2)))

/-- SEAL_DIGEST: write the digest hex. -/
def sealDigest (s : State) : State := s.memWrite (s.arg 8) (hexhex (sha256 (s.memRead (s.arg 1) (s.arg 2))))

/-- SEAL_SPLIT, once the coefficients are drawn: compute the n shares. -/
def sealSplit (s : State) : State := { s with shareBuf := splitfn s.keyBuf (s.arg 3) (s.arg 4) s.coefBuf }

/-- SEAL_SCRUB: zero KEYBUF and COEFBUF (46_vault_fsm.md R611). -/
def sealScrub (s : State) : State := { s with keyBuf := [], coefBuf := [] }

/-- SEAL_ENCODE: write the n tokens. -/
def sealEncode (s : State) : State := s.memWrite (s.arg 7) (s.shareBuf.map encodefn).flatten

/-- The coefficient draws of VSEAL that are left. -/
def leftSeal (s : State) : Nat := needSeal s - s.coefBuf.length

/-- VSEAL, state by state (46_vault_fsm.md R601). -/
def turnVseal (s : State) : Progress :=
  match s.fsm with
  | .sealKeygen  => drawThen (leftKeyIv s) putKeyIv (fun s => goTo .sealEncrypt (sealKeygen s)) s
  | .sealEncrypt => goTo .sealDigest (sealEncrypt s)
  | .sealDigest  => goTo .sealSplit (sealDigest s)
  | .sealSplit   => drawThen (leftSeal s) putCoef (fun s => goTo .sealScrub (sealSplit s)) s
  | .sealScrub   => goTo .sealEncode (sealScrub s)
  | .sealEncode  => .ends ((sealEncode s).succeedWith (s.arg 2 + 16))
  | _ => dispatchTo .sealKeygen (checkAll (splitParams (s.arg 3) (s.arg 4)) s (rangesVseal s)) s

def execVseal : State → Host.Outcome State Fault Refusal := runCommand turnVseal

/-! ### VOPEN (46_vault_fsm.md R620) -/

/-- Entry i of the token table: address and length (30_encoding.md R323). -/
def tokenEntry (s : State) (i : Nat) : Nat × Nat :=
  (s.dmem.read32 (s.arg 6 + 8 * i), s.dmem.read32 (s.arg 6 + 8 * i + 4))

/-- The token entries of VOPEN, in order. -/
def tokenEntries (s : State) : List (Nat × Nat) := (List.range (s.arg 7)).map (tokenEntry s)

def rangesVopen (s : State) : List Range :=
  [⟨.input, 1, s.arg 1, s.arg 2⟩, ⟨.input, 3, s.arg 3, 24⟩, ⟨.input, 6, s.arg 6, 8 * s.arg 7⟩,
    ⟨.input, 9, s.arg 9, s.arg 10⟩]
    ++ (tokenEntries s).zipIdx.map (fun ei => ⟨.input, tokenId ei.2, ei.1.1, ei.1.2⟩)
    ++ [⟨.output, 5, s.arg 5, plainLen (s.arg 2)⟩]

def paramsVopen (s : State) : Option CmdError :=
  if 255 < s.arg 7 then some (.invalidParameters 7)
  else if s.arg 10 ≠ 0 ∧ s.arg 10 ≠ 64 then some (.invalidParameters 10)
  else if s.arg 4 ≠ 24 then some (.invalidNonceLength (s.arg 4))
  else none

/-- The records of a list of tokens, numbered from `i` on, or the first that is malformed. -/
def decodeTokens : Nat → List (List Byte) → Except CmdError (List (List Byte))
  | _, [] => .ok []
  | i, tok :: toks =>
    match decodefn tok vaultL with
    | .error reason => .error (.malformedShare i reason)
    | .ok r =>
      match decodeTokens (i + 1) toks with
      | .error e => .error e
      | .ok rs => .ok (r :: rs)

/-- OPEN_DECODE: decode every token into SHAREBUF. -/
def openDecode (s : State) : Progress :=
  match decodeTokens 0 ((tokenEntries s).map (fun e => s.memRead e.1 e.2)) with
  | .error e => .ends (s.fail e)
  | .ok recs => goTo .openIvCheck { s with shareBuf := recs }

/-- OPEN_IVCHECK: check and convert the IV hex (92_eei_decisions.md D53). -/
def openIvCheck (s : State) : Progress :=
  let v := s.memRead (s.arg 3) 24
  match v.findIdx? (fun c => !ishex c) with
  | some q => .ends (s.fail (.invalidNonceLength (0x0100_0000 + q)))
  | none => goTo .openCombine { s with ivBuf := unhex v }

/-- OPEN_COMBINE: the combine checks, then the key; SHAREBUF is zeroed. -/
def openCombine (s : State) : Progress :=
  match combineError s.shareBuf (s.arg 7) (s.arg 8) with
  | some e => .ends (s.fail e)
  | none => goTo .openAuth { s with keyBuf := combinefn vaultL s.shareBuf, shareBuf := [] }

/-- OPEN_AUTH: verify the tag. -/
def openAuth (s : State) : Progress :=
  if s.arg 2 < 16 then .ends (s.fail (.authenticationFailed 1))
  else if gcmVerify s.keyBuf s.ivBuf (s.memRead (s.arg 1) (s.arg 2)) then goTo .openDecrypt s
  else .ends (s.fail (.authenticationFailed 2))

/-- The plaintext `r` of VOPEN. -/
def openPlain (s : State) : List Byte := gcmPlain s.keyBuf s.ivBuf (s.memRead (s.arg 1) (s.arg 2))

/-- OPEN_DECRYPT: write the plaintext. -/
def openDecrypt (s : State) : State := s.memWrite (s.arg 5) (openPlain s)

/-- `digest_check(E, d)`: whether the supplied hex text differs from the digest (46_vault_fsm.md R625). -/
def digestMismatch (e d : List Byte) : Bool := !e.all ishex || unhex e != d

/-- OPEN_DIGEST: compare the optional digest, and complete. -/
def openDigest (s : State) : Progress :=
  let mismatch := s.arg 10 == 64 && digestMismatch (s.memRead (s.arg 9) 64) (sha256 (openPlain s))
  .ends (s.succeedWarn (plainLen (s.arg 2)) mismatch)

/-- VOPEN, state by state (46_vault_fsm.md R601). -/
def turnVopen (s : State) : Progress :=
  match s.fsm with
  | .openDecode  => openDecode s
  | .openIvCheck => openIvCheck s
  | .openCombine => openCombine s
  | .openAuth    => openAuth s
  | .openDecrypt => goTo .openDigest (openDecrypt s)
  | .openDigest  => openDigest s
  | _ => dispatchTo .openDecode (checkAll (paramsVopen s) s (rangesVopen s)) s

def execVopen : State → Host.Outcome State Fault Refusal := runCommand turnVopen

end Sys2Proof.Machine
end

