-- ==== Sys2Proof/Machine/Turns.lean ====
section
/-! DEFINITION. What the machine needs to know of the command in CMD apart from its meaning: its single turn, its DMEM
ranges, the draws it has still to make, and the outcome of an illegal word. -/

namespace Sys2Proof.Machine

/-- One turn of a command: `exec` is a run of these. -/
def turnOf (i : Instr) (s : State) : Progress :=
  match i with
  | .nop => turnNop s
  | .gadd rd rs1 rs2 => turnGadd rd rs1 rs2 s
  | .gmul rd rs1 rs2 => turnGmul rd rs1 rs2 s
  | .gdiv rd rs1 rs2 => turnGdiv rd rs1 rs2 s
  | .gpow rd rs1 rs2 => turnGpow rd rs1 rs2 s
  | .ginv rd rs1 => turnGinv rd rs1 s
  | .geval rd rs1 rs2 rs3 => turnGeval rd rs1 rs2 rs3 s
  | .split => turnSplit s
  | .combine => turnCombine s
  | .encode => turnEncode s
  | .decode => turnDecode s
  | .aenc => turnAenc s
  | .adec => turnAdec s
  | .hash => turnHash s
  | .vseal => turnVseal s
  | .vopen => turnVopen s

/-- The DMEM ranges of a command in check order (20_memory.md R211). -/
def rangesOf (i : Instr) (s : State) : List Range :=
  match i with
  | .nop => []
  | .gadd _ _ _ => []
  | .gmul _ _ _ => []
  | .gdiv _ _ _ => []
  | .gpow _ _ _ => []
  | .ginv _ _ => []
  | .geval _ rs1 rs2 _ => rangesGeval rs1 rs2 s
  | .split => rangesSplit s
  | .combine => rangesCombine s
  | .encode => rangesEncode s
  | .decode => rangesDecode s
  | .aenc => rangesAenc s
  | .adec => rangesAdec s
  | .hash => rangesHash s
  | .vseal => rangesVseal s
  | .vopen => rangesVopen s

/-- The parameter check of a command, phase 1 (40_command_lifecycle.md R403). -/
def paramsOf (i : Instr) (s : State) : Option CmdError :=
  match i with
  | .nop => none
  | .gadd _ _ _ => none
  | .gmul _ _ _ => none
  | .gdiv _ _ rs2 => zeroCheck rs2 s
  | .gpow _ _ _ => none
  | .ginv _ rs1 => zeroCheck rs1 s
  | .geval _ _ _ _ => none
  | .split => paramsSplit s
  | .combine => paramsCombine s
  | .encode => paramsEncode s
  | .decode => paramsDecode s
  | .aenc => none
  | .adec => paramsAdec s
  | .hash => none
  | .vseal => splitParams (s.arg 3) (s.arg 4)
  | .vopen => paramsVopen s

/-- The draws a command can make next before its state ends: none outside the drawing states (20_memory.md R233, 46 R605). -/
def drawsLeft (i : Instr) (s : State) : Nat :=
  match i, s.fsm with
  | .split, .exec => leftSplit s
  | .aenc, .exec => leftKeyIv s
  | .vseal, .sealKeygen => leftKeyIv s
  | .vseal, .sealSplit => leftSeal s
  | _, _ => 0

/-- The command in CMD (40_command_lifecycle.md R401). -/
def State.command (s : State) : Option Instr := (decode s.cmd).toOption

/-- An illegal word in CMD: `raise IllegalCommand(w)` (40_command_lifecycle.md R402). -/
def illegal (s : State) : State := s.fail (.illegalCommand s.cmd)

/-- One turn of the engine while a command runs. -/
def engineTurn (s : State) : State :=
  if s.busy then
    match s.command with
    | some i => (turnOf i s).state
    | none => illegal s
  else s

/-- The output `rng_ready`: high only while a command needs a draw from the external port (20_memory.md R232). -/
def State.rngReady (s : State) : Bool :=
  s.busy && !s.rngSrc &&
    match s.command with
    | some i => 0 < drawsLeft i s
    | none => false

/-- The output ranges of the command that runs, none for an illegal word. -/
def State.outputRanges (s : State) : List Range :=
  match s.command with
  | some i => outputs (rangesOf i s)
  | none => []

end Sys2Proof.Machine
end

