-- ==== Sys2Proof/Machine/Bus.lean ====
section
/-! DEFINITION. The host interface: the aperture (20_memory.md R201-R207), the register window (10_state.md R110-R123),
hardware and soft reset (70_reset_and_hazards.md R800, R801), and what the host does while `rst_n` is low. -/

namespace Sys2Proof.Machine

/-! ### Reset -/

/-- The bytes of a range that exist in a DMEM of `size` bytes, with the free value each holds once its command is
abandoned (70_reset_and_hazards.md R801; log 7). -/
def abandonedBytes (event size : Nat) (r : Range) : List Byte :=
  (List.range (min (r.addr + r.len) size - r.addr)).map (fun i => Config.abandonedByte event (r.addr + i))

/-- DMEM after a reset: each byte of the output ranges of a running command is unknown, every other byte is kept. -/
def State.abandon (s : State) : Mem :=
  s.outputRanges.foldl (fun m r => m.write r.addr (abandonedBytes s.freeCount s.params.dmemBytes r)) s.dmem

/-- Hardware reset and soft reset: every value of 70_reset_and_hazards.md R800 but DMEM, at any time; a running command
is abandoned without completion (R801). What is outside the engine (the build, the reset input, the port, the events to
come, the data on the bus) is kept. -/
def State.resetEngine (s : State) : State :=
  { State.reset with
    params := s.params
    dmem := if s.busy then s.abandon else s.dmem
    rstN := s.rstN
    entropy := s.entropy
    pending := s.pending
    rdata := s.rdata
    freeCount := if s.busy then s.freeCount + 1 else s.freeCount }

/-- The reset input at a level (70_reset_and_hazards.md R800): low, and rising from low, gives the engine its reset values;
an input that is high and stays high does nothing. -/
def State.driveReset (s : State) (high : Bool) : State :=
  if s.rstN && high then s else { s.resetEngine with rstN := high }

/-! ### The aperture -/

/-- The registers of the register window but R0..R15 (10_state.md R110). -/
inductive Csr where
  | id | version | param | ctrl | status | cmd | errInfo | rngPtr | rngCnt
  deriving DecidableEq, Repr

/-- What a legal host access reaches (20_memory.md R201). -/
inductive Target where
  | csr (c : Csr)
  | gpr (r : RegNum)
  | dmem (a : Nat)
  deriving DecidableEq, Repr

/-- The register at a window offset, none for a reserved offset (10_state.md R110, R118). -/
def registerAt (off : Nat) : Option Target :=
  if off = 0x000 then some (.csr .id)
  else if off = 0x004 then some (.csr .version)
  else if off = 0x008 then some (.csr .param)
  else if off = 0x00C then some (.csr .ctrl)
  else if off = 0x010 then some (.csr .status)
  else if off = 0x014 then some (.csr .cmd)
  else if off = 0x018 then some (.csr .errInfo)
  else if off = 0x01C then some (.csr .rngPtr)
  else if off = 0x020 then some (.csr .rngCnt)
  else if h : 0x040 ≤ off ∧ off < 0x080 ∧ off % 4 = 0 then some (.gpr ⟨(off - 0x040) / 4, by omega⟩)
  else none

/-- The offset of DMEM byte 0 in the aperture (20_memory.md R201). -/
def dmemBase : Nat := 0x100_0000

/-- What an access of `size` bytes at an aperture offset reaches, none where it is not legal or not mapped (20_memory.md
R201-R204): the register window takes 32-bit accesses at multiples of 4, DMEM takes aligned accesses of 1, 2 or 4. -/
def targetAt (dmemBytes off size : Nat) : Option Target :=
  if off < 0x1000 then
    if size = 4 then registerAt off else none
  else if dmemBase ≤ off ∧ (size = 1 ∨ size = 2 ∨ size = 4) ∧ (off - dmemBase) % size = 0
      ∧ off - dmemBase + size ≤ dmemBytes then
    some (.dmem (off - dmemBase))
  else none

/-- What the host may not reach while BUSY = 1: DMEM, CMD, RNG_PTR and R0..R15 (20_memory.md R207, 10_state.md R123). -/
def Target.engineOwned : Target → Bool
  | .csr .cmd => true
  | .csr .rngPtr => true
  | .csr _ => false
  | .gpr _ => true
  | .dmem _ => true

/-- What the host reaches now, none where the access is refused (20_memory.md R204, R207). -/
def State.reach (s : State) (off size : Nat) : Option Target :=
  match targetAt s.params.dmemBytes off size with
  | some t => if s.busy && t.engineOwned then none else some t
  | none => none

/-- A host access error (60_exceptions.md R720). -/
def State.refuse (s : State) : State := { s with herr := true }

/-! ### Writes -/

/-- Steps (1) and (2) of a CTRL write (10_state.md R111): IRQ_EN, then RNG_SRC, which does not change under a running
command. -/
def State.ctrlBits (s : State) (v : Word) : State :=
  { s with
    irqEn := v.getLsbD 3
    rngSrc := if s.busy then s.rngSrc else v.getLsbD 2
    herr := s.herr || (s.busy && (v.getLsbD 2 != s.rngSrc)) }

/-- A host write of CTRL (10_state.md R111). -/
def State.writeCtrl (s : State) (v : Word) : State :=
  if v.getLsbD 1 then (s.ctrlBits v).resetEngine
  else if v.getLsbD 0 then
    if s.busy then (s.ctrlBits v).refuse else (s.ctrlBits v).start
  else s.ctrlBits v

/-- The `size` little-endian bytes of a value (20_memory.md R202). -/
def leBytes (size : Nat) (v : Word) : List Byte := (List.range size).map (fun i => v.extractLsb' (8 * i) 8)

/-- A legal host write (20_memory.md R205): read-only registers ignore it (10_state.md R118). -/
def State.writeTarget (s : State) (t : Target) (size : Nat) (v : Word) : State :=
  match t with
  | .csr .id => s
  | .csr .version => s
  | .csr .param => s
  | .csr .ctrl => s.writeCtrl v
  | .csr .status => s.clearStatus v
  | .csr .cmd => { s with cmd := v }
  | .csr .errInfo => s
  | .csr .rngPtr => { s with rngPtr := v }
  | .csr .rngCnt => s
  | .gpr r => s.setReg r v
  | .dmem a => s.memWrite a (leBytes size v)

/-- A host write: a refused one changes nothing but HERR (20_memory.md R204). -/
def State.busWrite (s : State) (off size : Nat) (v : Word) : State :=
  match s.reach off size with
  | some t => s.writeTarget t size v
  | none => s.refuse

/-! ### Reads -/

/-- The value of a legal host read (10_state.md R110-R121; 20_memory.md R202). -/
def State.readTarget (s : State) (t : Target) (size : Nat) : Word :=
  match t with
  | .csr .id => 0x4746_3238
  | .csr .version => 0x0001_0000
  | .csr .param => s.paramWord
  | .csr .ctrl => s.ctrlWord
  | .csr .status => s.statusWord
  | .csr .cmd => s.cmd
  | .csr .errInfo => s.errInfo
  | .csr .rngPtr => s.rngPtr
  | .csr .rngCnt => s.rngCnt
  | .gpr r => s.reg r
  | .dmem a => BitVec.ofNat 32 (leNat (s.memRead a size))

/-- A host read: the value goes on the bus; a refused read returns 0 and sets HERR (20_memory.md R204, R205). -/
def State.busRead (s : State) (off size : Nat) : State :=
  match s.reach off size with
  | some t => { s with rdata := s.readTarget t size }
  | none => { s.refuse with rdata := 0 }

/-! ### Accesses under hardware reset -/

/-- A host write; while `rst_n` is low it changes nothing, since the registers, STATUS.HERR among them, and DMEM hold
(70_reset_and_hazards.md R800; log 8). -/
def State.hostWrite (s : State) (off size : Nat) (v : Word) : State :=
  if s.rstN then s.busWrite off size v else s

/-- A host read; while `rst_n` is low it returns what the registers hold, and sets no HERR (70_reset_and_hazards.md R800;
log 8). -/
def State.hostRead (s : State) (off size : Nat) : State :=
  if s.rstN then s.busRead off size else { s with rdata := (s.busRead off size).rdata }

end Sys2Proof.Machine
end

