-- ==== Sys2Proof/Machine/Dispatch.lean ====
section
/-! DEFINITION. The meaning of each command: run it from where STATUS.FSM says it stands until it completes or waits for an
entropy byte. One arm per constructor of `Instr`. -/

namespace Sys2Proof.Machine

def exec (i : Instr) (s : State) : Host.Outcome State Fault Refusal :=
  match i with
  | .nop => Sys2Proof.Machine.execNop s
  | .gadd rd rs1 rs2 => Sys2Proof.Machine.execGadd rd rs1 rs2 s
  | .gmul rd rs1 rs2 => Sys2Proof.Machine.execGmul rd rs1 rs2 s
  | .gdiv rd rs1 rs2 => Sys2Proof.Machine.execGdiv rd rs1 rs2 s
  | .gpow rd rs1 rs2 => Sys2Proof.Machine.execGpow rd rs1 rs2 s
  | .ginv rd rs1 => Sys2Proof.Machine.execGinv rd rs1 s
  | .geval rd rs1 rs2 rs3 => Sys2Proof.Machine.execGeval rd rs1 rs2 rs3 s
  | .split => Sys2Proof.Machine.execSplit s
  | .combine => Sys2Proof.Machine.execCombine s
  | .encode => Sys2Proof.Machine.execEncode s
  | .decode => Sys2Proof.Machine.execDecode s
  | .aenc => Sys2Proof.Machine.execAenc s
  | .adec => Sys2Proof.Machine.execAdec s
  | .hash => Sys2Proof.Machine.execHash s
  | .vseal => Sys2Proof.Machine.execVseal s
  | .vopen => Sys2Proof.Machine.execVopen s

end Sys2Proof.Machine
end

