-- ==== Sys2Proof/Machine/Step.lean ====
section
/-! DEFINITION. One step of the TVE: the next event of the outside world, or, with none to come, the running command. -/

namespace Sys2Proof.Machine

/-- Run the command in CMD while BUSY = 1 (40_command_lifecycle.md R401, R402); between commands, and so while `rst_n` holds
BUSY = 0, the engine is IDLE and changes nothing (60_exceptions.md R754, 70_reset_and_hazards.md R800). -/
def engineRun (s : State) : Host.Outcome State Fault Refusal :=
  if s.busy then
    match s.command with
    | some i => exec i s
    | none => .next (illegal s)
  else .next s

/-- What an event does (log 3). -/
def handle (e : Event) (s : State) : Host.Outcome State Fault Refusal :=
  match e with
  | .busWrite off size v => .next (s.hostWrite off size v)
  | .busRead off size => .next (s.hostRead off size)
  | .entropyByte b => .next { s with entropy := s.entropy ++ [b] }
  | .rstPin high => .next (s.driveReset high)
  | .engineTurn => .next (engineTurn s)
  | .engineRun => engineRun s

/-- One step: events take effect one at a time, in order (20_memory.md R220); with no event to come, the engine runs. -/
def step (s : State) : Host.Outcome State Fault Refusal :=
  match s.pending with
  | [] => engineRun s
  | e :: rest => handle e { s with pending := rest }

/-- `s` with a command word in CMD as START leaves it (40_command_lifecycle.md R400, R401), `rst_n` high, and no event
before it, so that the next step runs it (log 4). -/
def State.withFetchWord (s : State) (nbits w : Nat) : State :=
  ({ s with cmd := BitVec.ofNat 32 (w % 2 ^ nbits), rstN := true, pending := [] }).start

end Sys2Proof.Machine
end

