-- ==== Sys2Proof/Safety.lean ====
section
/-! DEFINITION. The terms in which claims about the TVE are stated: what START leaves, the invariants of a run, the FSM path
of a command, the register a command writes and the draws it makes. -/

namespace Sys2Proof.Safety

open Sys2Proof.Machine

/-- The error codes that are ever in ERRCODE (60_exceptions.md R700). -/
def legalErrCodes : List Byte :=
  [0x00, 0x01, 0x02, 0x03, 0x04, 0x05, 0x06, 0x07, 0x08, 0x09, 0x10, 0x11, 0x12]

/-- Every hidden buffer is all zero (10_state.md R130-R133). -/
def Scrubbed (s : State) : Prop := s.keyBuf = [] ∧ s.ivBuf = [] ∧ s.coefBuf = [] ∧ s.shareBuf = []

/-- What START leaves in a machine whose hidden buffers are scrubbed (40_command_lifecycle.md R400). -/
structure Started (s : State) : Prop where
  busy : s.busy = true
  dispatch : s.fsm = .dispatch
  done : s.done = false
  err : s.err = false
  warn : s.warn = false
  errCode : s.errCode = 0
  errInfo : s.errInfo = 0
  scrubbed : Scrubbed s

/-- The status registers agree with each other and with the FSM, and no secret outlives its command. -/
structure Coherent (s : State) : Prop where
  /-- BUSY = 0 is IDLE (46_vault_fsm.md R600). -/
  busyIff : s.busy = true ↔ s.fsm ≠ .idle
  /-- START clears the status, and only completion sets it (10_state.md R112, 40_command_lifecycle.md R400). -/
  running : s.busy = true → s.done = false ∧ s.err = false ∧ s.warn = false ∧ s.errCode = 0 ∧ s.errInfo = 0
  /-- "DONE and ERR are never both 1" (10_state.md R112). -/
  exclusive : ¬ (s.done = true ∧ s.err = true)
  /-- After success ERRCODE and ERRINFO are 0 (40_command_lifecycle.md R408). -/
  succeeded : s.done = true → s.errCode = 0 ∧ s.errInfo = 0
  /-- No other code is ever written (60_exceptions.md R700). -/
  codes : s.errCode ∈ legalErrCodes
  /-- Hidden buffers are all zero whenever no command is past DISPATCH (10_state.md R130-R133, 60_exceptions.md R741). -/
  scrubbed : s.fsm = .idle ∨ s.fsm = .dispatch → Scrubbed s

/-- What the outputs are made of has the size of the outputs: 32 and 12 bytes (10_state.md R130, R131), shares of 32 values,
and in VSEAL not more shares than n. -/
structure OutputsFit (s : State) : Prop where
  key : s.keyBuf.length ≤ 32
  iv : s.ivBuf.length ≤ 12
  share : ∀ r ∈ s.shareBuf, r.length ≤ 34
  count : s.fsm = .sealScrub ∨ s.fsm = .sealEncode → s.shareBuf.length ≤ s.arg 3

/-- Every hidden buffer is within its size (10_state.md R130-R133): also at most SSS_MAX_LEN·254 coefficients and MAX_SHARES
shares (00_scope.md R9). -/
structure Bounded (s : State) : Prop extends OutputsFit s where
  coef : s.coefBuf.length ≤ 256 * 254
  shares : s.shareBuf.length ≤ 255

/-- A command that runs and has left DISPATCH has passed its parameter check (46_vault_fsm.md R603). -/
def CommandChecked (s : State) : Prop :=
  ∀ i, s.busy = true → decode s.cmd = .ok i → s.fsm ≠ .dispatch → paramsOf i s = none

/-- What the engine holds in reset, DMEM apart (70_reset_and_hazards.md R800). -/
structure ResetHeld (s : State) : Prop where
  regs : ∀ r, s.reg r = 0
  rngSrc : s.rngSrc = false
  irqEn : s.irqEn = false
  status : s.statusWord = 0
  cmd : s.cmd = 0
  errInfo : s.errInfo = 0
  rngPtr : s.rngPtr = 0
  rngCnt : s.rngCnt = 0
  scrubbed : Scrubbed s
  fsm : s.fsm = .idle
  irq : s.irq = false
  rngReady : s.rngReady = false

/-- The path of a command through the FSM, from DISPATCH on (46_vault_fsm.md R601). -/
def pathOf : Instr → List Fsm
  | .vseal => [.dispatch, .sealKeygen, .sealEncrypt, .sealDigest, .sealSplit, .sealScrub, .sealEncode]
  | .vopen => [.dispatch, .openDecode, .openIvCheck, .openCombine, .openAuth, .openDecrypt, .openDigest]
  | .nop | .gadd _ _ _ | .gmul _ _ _ | .gdiv _ _ _ | .gpow _ _ _ | .ginv _ _ | .geval _ _ _ _
  | .split | .combine | .encode | .decode | .aenc | .adec | .hash => [.dispatch, .exec]

/-- Whether `g` comes right after `f` on a path; after its last state comes IDLE. -/
def follows (path : List Fsm) (f g : Fsm) : Bool := (path.zip (path.drop 1 ++ [Fsm.idle])).contains (f, g)

/-- The one register a command may write: x[rd], or x[0] of a bulk command (10_state.md R102). -/
def destReg : Instr → Option RegNum
  | .nop => none
  | .gadd rd _ _ | .gmul rd _ _ | .gdiv rd _ _ | .gpow rd _ _ | .ginv rd _ | .geval rd _ _ _ => some rd
  | .split | .combine | .encode | .decode | .aenc | .adec | .hash | .vseal | .vopen => some 0

/-- The draws a command makes in all (20_memory.md R233). -/
def drawsOf (i : Instr) (s : State) : Nat :=
  match i with
  | .split => (s.reg 2).toNat * ((s.reg 4).toNat - 1)
  | .aenc => 44
  | .vseal => 44 + 32 * ((s.reg 4).toNat - 1)
  | .nop | .gadd _ _ _ | .gmul _ _ _ | .gdiv _ _ _ | .gpow _ _ _ | .ginv _ _ | .geval _ _ _ _
  | .combine | .encode | .decode | .adec | .hash | .vopen => 0

/-- The error of the first check that fails, in order: "the first failing check decides the error"
(40_command_lifecycle.md R403). -/
def firstError : List (Option CmdError) → Option CmdError
  | [] => none
  | some e :: _ => some e
  | none :: checks => firstError checks

/-- `if ¬ ok then raise e`. -/
def ensure (ok : Bool) (e : CmdError) : Option CmdError := if ok then none else some e

/-- The value of a hex digit in either case, none for every other byte (00_scope.md R16, 43_share_codec.md R511). -/
def hexDigit (c : Byte) : Option Nat :=
  let v := c.toNat
  if 0x30 ≤ v ∧ v ≤ 0x39 then some (v - 0x30)
  else if 0x41 ≤ v ∧ v ≤ 0x46 then some (v - 0x41 + 10)
  else if 0x61 ≤ v ∧ v ≤ 0x66 then some (v - 0x61 + 10)
  else none

/-- The byte that the hex digits `q` and `q + 1` of a text make (00_scope.md R16). -/
def hexByte (text : List Byte) (q : Nat) : Byte :=
  let digit := fun i => (hexDigit (text.getD i 0)).getD 0
  BitVec.ofNat 8 (16 * digit q + digit (q + 1))

/-- A byte string as lower-case hex text, two digits a byte, the high one first (00_scope.md R16). -/
def hexText (bs : List Byte) : List Byte :=
  let digits : List Byte :=
    [0x30, 0x31, 0x32, 0x33, 0x34, 0x35, 0x36, 0x37, 0x38, 0x39, 0x61, 0x62, 0x63, 0x64, 0x65, 0x66]
  bs.flatMap (fun b => [digits.getD (b.toNat / 16) 0, digits.getD (b.toNat % 16) 0])

/-- Counter block `j` of GCTR: the initial one with its last four bytes, a big-endian number, counted on by `j` modulo 2^32
(44_aead_cipher.md R539). -/
def counterBlock (icb : List Byte) (j : Nat) : List Byte :=
  let v := (icb.drop 12).foldl (fun acc b => 256 * acc + b.toNat) 0
  icb.take 12 ++ (List.range 4).map (fun q => BitVec.ofNat 8 ((v + j) % 2 ^ 32 / 256 ^ (3 - q)))

/-- The error a decoded token raises, for token `i` (43_share_codec.md R501, 60_exceptions.md R701). -/
def tokenError (i : Nat) (r : Except Nat (List Byte)) : Option CmdError :=
  match r with
  | .ok _ => none
  | .error reason => some (.malformedShare i reason)

/-- A decoded record; none is needed where decoding fails. -/
def recordOf (r : Except Nat (List Byte)) : List Byte :=
  match r with
  | .ok x => x
  | .error _ => []

/-- "if ∃ j < i. rec_j[1] = rec_i[1] then raise Inconsistent(i)", for each record in order (42_shamir.md R480). -/
def duplicateChecks (recs : List (List Byte)) : List (Option CmdError) :=
  (List.range recs.length).map (fun i =>
    ensure (decide (∀ j < i, (recs.getD j []).getD 1 0 ≠ (recs.getD i []).getD 1 0)) (.inconsistent i))

/-- Whether an address lies in one of some ranges. -/
def inRanges (rs : List Range) (a : Nat) : Prop := ∃ r ∈ rs, r.addr ≤ a ∧ a < r.addr + r.len

end Sys2Proof.Safety
end

