-- ==== Sys2Proof/Certificates/Slice0/Obligations.lean ====
section
/-! DEFINITION. The statements about the TVE for the provers, from the numbered rules of spec/. -/

open Sys2Proof Sys2Proof.Machine Sys2Proof.Safety

/-! ### Encoding -/

/-- Decoding the word of a command gives the command back, with every operand (30_encoding.md R300-R303). -/
def Obligations.DecodeOfEncode : Prop := ∀ i : Instr, decode (encode i) = .ok i

/-- A word that decodes is the word of the command it decodes to: no two words mean one command (30_encoding.md R302). -/
def Obligations.EncodeOfDecode : Prop := ∀ (w : Word) (i : Instr), decode w = .ok i → encode i = w

/-- 30_encoding.md R304: each word selects exactly one row, no two rows having one opcode, or is illegal; what makes it
illegal; and the error it raises. -/
def Obligations.DecoderIsTotal : Prop :=
  (opRows.map (fun r => r.opc)).Nodup ∧
  (∀ w : Word,
    (∃ r ∈ opRows, selects w r = true ∧ decode w = .ok (r.build (fieldsOf w)) ∧
      ∀ r' ∈ opRows, selects w r' = true → r'.opc = r.opc)
    ∨ ((∃ e, decode w = .error e) ∧ ∀ r ∈ opRows, selects w r = false)) ∧
  (∀ w : Word, (∃ e, decode w = .error e) ↔
    ∀ r ∈ opRows, r.opc = w.extractLsb' 0 8 → (fieldsOf w).wellFormed r.form = false) ∧
  ∀ (s : State) (e : DecodeError), s.busy = true → decode s.cmd = .error e →
    engineRun s = .next (s.fail (.illegalCommand s.cmd)) ∧ (s.fail (.illegalCommand s.cmd)).errInfo = s.cmd

/-- 30_encoding.md R305: the reserved opcodes are illegal, and no word acts as a no-op but NOP itself. -/
def Obligations.ReservedOpcodesAreIllegal : Prop :=
  (∀ w : Word, let o := (w.extractLsb' 0 8).toNat
    (0x07 ≤ o ∧ o ≤ 0x0F) ∨ (0x14 ≤ o ∧ o ≤ 0x1F) ∨ (0x23 ≤ o ∧ o ≤ 0x2F) ∨ 0x32 ≤ o →
      decode w = .error .reservedOpcode) ∧
  ∀ w : Word, decode w = .ok .nop ↔ w = 0

/-- The encoding examples of 30_encoding.md R307, decoded and encoded. -/
def Obligations.EncodingExamples : Prop :=
  (decode 0x0002_1302 = .ok (.gmul 3 1 2) ∧ encode (.gmul 3 1 2) = 0x0002_1302) ∧
  (decode 0x0000_0001 = .ok (.gadd 0 0 0) ∧ encode (.gadd 0 0 0) = 0x0000_0001) ∧
  (decode 0x0000_5405 = .ok (.ginv 4 5) ∧ encode (.ginv 4 5) = 0x0000_5405) ∧
  (decode 0x0043_2106 = .ok (.geval 1 2 3 4) ∧ encode (.geval 1 2 3 4) = 0x0043_2106) ∧
  (decode 0x0000_0030 = .ok .vseal ∧ encode .vseal = 0x0000_0030)

/-! ### The life of a command -/

/-- With nothing of the outside world pending, a step runs the command CMD decodes to, and nothing else happens around it
(40_command_lifecycle.md R401); a command is a run of engine turns (R412); a pending event takes effect alone, in order, and
an idle engine with none changes nothing (60_exceptions.md R754; the list of events is the model's choice, log 3). With none
pending, or as an event, the engine runs, with an illegal word in CMD too; it takes one turn as an event; and a byte offered
at the port changes the port alone (20_memory.md R232; log 5). The word placed for the host's check runs so (log 4). -/
def Obligations.StepRunsCommandInCmd : Prop :=
  ∀ (s : State) (i : Instr),
    (s.busy = true → s.pending = [] → decode s.cmd = .ok i → step s = exec i s) ∧
    (∀ rest, s.busy = true → s.pending = .engineRun :: rest → decode s.cmd = .ok i →
      step s = exec i { s with pending := rest }) ∧
    exec i s = .next (runTurns maxTurns (turnOf i) s) ∧
    (∀ e rest, s.pending = e :: rest → step s = handle e { s with pending := rest }) ∧
    (s.busy = false → s.pending = [] → step s = .next s) ∧
    (s.pending = [] → step s = engineRun s) ∧
    handle .engineRun s = engineRun s ∧ handle .engineTurn s = .next (engineTurn s) ∧
    (∀ b, handle (.entropyByte b) s = .next { s with entropy := s.entropy ++ [b] }) ∧
    step (s.withFetchWord 32 (encode i).toNat) = exec i (s.withFetchWord 32 (encode i).toNat)

/-- 40_command_lifecycle.md R400: what a START writes, that nothing else of the state changes but the CTRL bits of the same
write, and that the command held in CMD then runs. -/
def Obligations.StartBeginsCommand : Prop :=
  ∀ (s : State) (v : Word), s.busy = false → v.getLsbD 0 = true → v.getLsbD 1 = false →
    let t := s.busWrite 0x00C 4 v
    t = { s with
        irqEn := v.getLsbD 3, rngSrc := v.getLsbD 2
        busy := true, done := false, err := false, warn := false, errCode := 0x00, errInfo := 0, fsm := .dispatch } ∧
    ∀ i, decode s.cmd = .ok i → s.pending = [] → step t = exec i t

/-- 40_command_lifecycle.md R402: an illegal word completes with IllegalCommand(w), and nothing else changes. -/
def Obligations.IllegalWordFails : Prop :=
  ∀ (s : State) (e : DecodeError), s.busy = true → decode s.cmd = .error e →
    engineRun s = .next { s with
      errCode := 0x10, errInfo := s.cmd, err := true, fsm := .idle, busy := false
      keyBuf := [], ivBuf := [], coefBuf := [], shareBuf := [] }

/-- A command that START began and that completes has succeeded or failed, and shows it: DONE and ERR, the codes, IDLE, and
scrubbed buffers (40_command_lifecycle.md R407, R408; 60_exceptions.md R710, R741). -/
def Obligations.CompletionIsSuccessOrError : Prop :=
  ∀ (i : Instr) (s t : State), Started s → exec i s = .next t → t.busy = false →
    t.fsm = .idle ∧ Scrubbed t ∧
    ((t.done = true ∧ t.err = false ∧ t.errCode = 0 ∧ t.errInfo = 0) ∨
      (t.done = false ∧ t.err = true ∧ t.warn = false ∧ ∃ e : CmdError, t.errCode = e.code ∧ t.errInfo = e.info))

/-- 60_exceptions.md R715: a run that ends in an error writes only STATUS, ERRINFO and the hidden buffers, from wherever
the command stood. -/
def Obligations.FailureAtomicity : Prop :=
  ∀ (i : Instr) (s t : State), s.err = false → exec i s = .next t → t.err = true →
    (∃ e, t = s.fail e) ∧ t.dmem = s.dmem ∧ t.regs = s.regs ∧ t.rngPtr = s.rngPtr ∧ t.rngCnt = s.rngCnt ∧
      t.entropy = s.entropy ∧ Scrubbed t

/-- A command in replay mode, one that draws nothing, or one whose draws the port has on offer, completes
(40_command_lifecycle.md R409). -/
def Obligations.CommandsTerminate : Prop :=
  ∀ (i : Instr) (s : State), Started s → s.canDraw (drawsOf i s) = true →
    ∃ t, exec i s = .next t ∧ t.busy = false

/-- A command that needs a byte which the port does not offer waits, BUSY, and raises rng_ready (20_memory.md R232). -/
def Obligations.CommandsWaitForEntropy : Prop :=
  ∀ (i : Instr) (s : State), s.busy = true → decode s.cmd = .ok i → s.rngSrc = false → s.entropy = [] →
    0 < drawsLeft i s → exec i s = .next s ∧ s.rngReady = true

/-- One turn of a drawing state makes one draw: RNG_CNT counts it, the byte comes from the selected source, which moves on,
it goes to COEFBUF in SPLIT and SEAL_SPLIT and else to KEYBUF until that holds 32 bytes and then to IVBUF, and one draw less
is left (20_memory.md R230, R231; 42_shamir.md R471; 46_vault_fsm.md R605, R612). That a turn is one draw is the model's granularity
(log 10). -/
def Obligations.OneDrawEachTurn : Prop :=
  ∀ (i : Instr) (s : State) (n : Nat), s.busy = true → decode s.cmd = .ok i → drawsLeft i s = n + 1 →
    s.canDraw 1 = true →
    let t := engineTurn s
    let b := if s.rngSrc then s.dmem.byte s.rngPtr.toNat else s.entropy.headD 0
    t.rngCnt = s.rngCnt + 1 ∧
    t.rngPtr = (if s.rngSrc then s.rngPtr + 1 else s.rngPtr) ∧
    t.entropy = (if s.rngSrc then s.entropy else s.entropy.tail) ∧
    (t.keyBuf, t.ivBuf, t.coefBuf) =
      (if i = .split ∨ s.fsm = .sealSplit then (s.keyBuf, s.ivBuf, s.coefBuf ++ [b])
        else if s.keyBuf.length < 32 then (s.keyBuf ++ [b], s.ivBuf, s.coefBuf)
        else (s.keyBuf, s.ivBuf ++ [b], s.coefBuf)) ∧
    t.fsm = s.fsm ∧ t.busy = true ∧ t.dmem = s.dmem ∧ t.regs = s.regs ∧ drawsLeft i t = n

/-- What each working state does: EXEC of SPLIT and AENC, SEAL_KEYGEN and SEAL_SPLIT once no draw is left, and every other
state of VSEAL and VOPEN, each with the checks that it makes and no other (42_shamir.md R475; 44_aead_cipher.md R560;
46_vault_fsm.md R600, R604, R610, R620, R625). That a turn is one state's work is the model's granularity (log 10). -/
def Obligations.WorkAfterDraws : Prop :=
  ∀ s : State, s.busy = true →
    let p := s.memRead (s.arg 1) (s.arg 2)
    let t := engineTurn s
    (decode s.cmd = .ok .split → s.fsm = .exec → drawsLeft .split s = 0 →
      t = ((s.memWrite (s.arg 5) (splitfn p (s.arg 3) (s.arg 4) s.coefBuf).flatten).setReg 0
        (BitVec.ofNat 32 (s.arg 3 * (s.arg 2 + 2)))).succeed) ∧
    (decode s.cmd = .ok .aenc → s.fsm = .exec → drawsLeft .aenc s = 0 →
      t = (((((s.memWrite (s.arg 5) (gcmEnc s.keyBuf s.ivBuf p)).memWrite (s.arg 6) s.keyBuf).memWrite (s.arg 7)
        s.ivBuf).memWrite (s.arg 8) (sha256 p)).setReg 0 (BitVec.ofNat 32 (s.arg 2 + 16))).succeed) ∧
    (decode s.cmd = .ok .vseal →
      (s.fsm = .sealKeygen → drawsLeft .vseal s = 0 →
        t = { s.memWrite (s.arg 6) (hexhex s.ivBuf) with fsm := .sealEncrypt }) ∧
      (s.fsm = .sealEncrypt →
        t = { s.memWrite (s.arg 5) (gcmEnc s.keyBuf s.ivBuf p) with fsm := .sealDigest }) ∧
      (s.fsm = .sealDigest → t = { s.memWrite (s.arg 8) (hexhex (sha256 p)) with fsm := .sealSplit }) ∧
      (s.fsm = .sealSplit → drawsLeft .vseal s = 0 →
        t = { s with shareBuf := splitfn s.keyBuf (s.arg 3) (s.arg 4) s.coefBuf, fsm := .sealScrub }) ∧
      (s.fsm = .sealScrub → t = { s with keyBuf := [], coefBuf := [], fsm := .sealEncode }) ∧
      (s.fsm = .sealEncode →
        t = ((s.memWrite (s.arg 7) (s.shareBuf.map encodefn).flatten).setReg 0
          (BitVec.ofNat 32 (s.arg 2 + 16))).succeed)) ∧
    (decode s.cmd = .ok .vopen →
      let tokens := (List.range (s.arg 7)).map (fun i =>
        decodefn (s.memRead (s.dmem.read32 (s.arg 6 + 8 * i)) (s.dmem.read32 (s.arg 6 + 8 * i + 4))) 32)
      let v := s.memRead (s.arg 3) 24
      let plain := gcmPlain s.keyBuf s.ivBuf p
      let hex := s.memRead (s.arg 9) 64
      (s.fsm = .openDecode →
        t = match firstError (tokens.zipIdx.map (fun ri => tokenError ri.2 ri.1)) with
          | some e => s.fail e
          | none => { s with shareBuf := tokens.map recordOf, fsm := .openIvCheck }) ∧
      (s.fsm = .openIvCheck →
        t = match firstError
            (v.zipIdx.map (fun cq => ensure (hexDigit cq.1).isSome (.invalidNonceLength (0x0100_0000 ||| cq.2)))) with
          | some e => s.fail e
          | none => { s with ivBuf := (List.range 12).map (fun j => hexByte v (2 * j)), fsm := .openCombine }) ∧
      (s.fsm = .openCombine →
        t = match firstError (duplicateChecks s.shareBuf
            ++ [ ensure (decide (2 ≤ s.arg 7)) (.insufficientShares (s.arg 7)),
                 ensure (decide (s.arg 8 = 0 ∨ s.arg 8 ≤ s.arg 7)) (.thresholdNotMet (s.arg 7)) ]) with
          | some e => s.fail e
          | none => { s with keyBuf := combinefn 32 s.shareBuf, shareBuf := [], fsm := .openAuth }) ∧
      (s.fsm = .openAuth →
        t = match firstError [ ensure (decide (16 ≤ s.arg 2)) (.authenticationFailed 1),
            ensure (gcmVerify s.keyBuf s.ivBuf p) (.authenticationFailed 2) ] with
          | some e => s.fail e
          | none => { s with fsm := .openDecrypt }) ∧
      (s.fsm = .openDecrypt → t = { s.memWrite (s.arg 5) plain with fsm := .openDigest }) ∧
      (s.fsm = .openDigest →
        t = { (s.setReg 0 (BitVec.ofNat 32 (if 16 ≤ s.arg 2 then s.arg 2 - 16 else 0))).succeed with
            warn := s.warn || (s.arg 10 == 64 && (hex.any (fun c => (hexDigit c).isNone) || (List.range 32).any (fun j =>
              hexByte hex (2 * j) != (sha256 plain).getD j 0))) }))

/-- A command taken a turn at a time, or resumed after a wait for the port, gives what one run with all its bytes on offer
gives (40_command_lifecycle.md R409, R412; 20_memory.md R232). That a run is a list of turns is the model's choice (log 10). -/
def Obligations.ResumedRunIsOneRun : Prop :=
  ∀ (i : Instr) (s : State), s.busy = true → decode s.cmd = .ok i → CommandChecked s →
    ((engineTurn s).busy = true → exec i (engineTurn s) = exec i s) ∧
    ∀ (t : State) (bs : List Byte), exec i s = .next t → t.busy = true →
      exec i { t with entropy := t.entropy ++ bs } = exec i { s with entropy := s.entropy ++ bs }

/-! ### What each command does -/

/-- NOP changes nothing but the completion; GADD, GMUL and GPOW never fail: x[rd] gets the zero-extended result on bits [7:0]
of the sources, read first; GADD is the bitwise exclusive or, and the exponent of GPOW is all 32 bits
(40_command_lifecycle.md R410; 41_gf_arith.md R431, R440, R441, R443). -/
def Obligations.NopGaddGmulGpowResult : Prop :=
  ∀ (s : State) (rd rs1 rs2 : RegNum),
    let a : Byte := (s.reg rs1).extractLsb' 0 8
    let b : Byte := (s.reg rs2).extractLsb' 0 8
    exec .nop s = .next s.succeed ∧
    exec (.gadd rd rs1 rs2) s = .next (s.setReg rd (BitVec.zeroExtend 32 (a ^^^ b))).succeed ∧
    exec (.gmul rd rs1 rs2) s = .next (s.setReg rd (BitVec.zeroExtend 32 (gmul a b))).succeed ∧
    exec (.gpow rd rs1 rs2) s = .next (s.setReg rd (BitVec.zeroExtend 32 (gpow a (s.reg rs2).toNat))).succeed

/-- GDIV and GINV raise DivisionByZero(0) on a zero divisor or operand, x[rd] unchanged, and else write the quotient or the
inverse: the byte that multiplied with the divisor gives the dividend or 1 (41_gf_arith.md R442, R444, R436). -/
def Obligations.GdivGinvResult : Prop :=
  ∀ (s : State) (rd rs1 rs2 : RegNum),
    let a : Byte := (s.reg rs1).extractLsb' 0 8
    let b : Byte := (s.reg rs2).extractLsb' 0 8
    (if b = 0 then exec (.gdiv rd rs1 rs2) s = .next (s.fail .divisionByZero)
      else ∃ q : Byte, exec (.gdiv rd rs1 rs2) s = .next (s.setReg rd (BitVec.zeroExtend 32 q)).succeed ∧
        gdiv a b = some q ∧ mulpoly q b = a) ∧
    (if a = 0 then exec (.ginv rd rs1) s = .next (s.fail .divisionByZero)
      else ∃ q : Byte, exec (.ginv rd rs1) s = .next (s.setReg rd (BitVec.zeroExtend 32 q)).succeed ∧
        ginv a = some q ∧ mulpoly q a = 1)

/-- GEVAL: the range check with id rs1, then x[rd] gets the polynomial in DMEM at the point (41_gf_arith.md R445). -/
def Obligations.GevalResult : Prop :=
  ∀ (s : State) (rd rs1 rs2 rs3 : RegNum), s.fsm = .dispatch →
    let a := (s.reg rs1).toNat
    let m := (s.reg rs2).toNat
    let x : Byte := (s.reg rs3).extractLsb' 0 8
    exec (.geval rd rs1 rs2 rs3) s = .next
      (if m ≠ 0 ∧ s.params.dmemBytes < a + m then s.fail (.addressFault rs1.val)
        else (s.setReg rd (BitVec.zeroExtend 32 (peval (s.memRead a m) x))).succeed)

/-- SPLIT (42_shamir.md R475): its checks in order, then the draws, the records and x[0]; and the records by themselves, on
which VSEAL rests: record i is the bit length, the index i, and for each secret byte p the value at i of the polynomial with
that byte and the coefficients drawn for it, a[p][1] first (R471, R472). -/
def Obligations.SplitResult : Prop :=
  (∀ (secret a : List Byte) (n t : Nat), a.length = secret.length * (t - 1) →
    splitfn secret n t a = (List.range n).map (fun m =>
      let i : Byte := BitVec.ofNat 8 (m + 1)
      [8, i] ++ (List.range secret.length).map (fun p =>
        peval (secret.getD p 0 :: (List.range (t - 1)).map (fun j => a.getD (p * (t - 1) + j) 0)) i))) ∧
  ∀ s : State, Started s →
    let sa := s.arg 1
    let L := s.arg 2
    let n := s.arg 3
    let t := s.arg 4
    let oa := s.arg 5
    let need := L * (t - 1)
    match firstError
      [ ensure (decide (2 ≤ t ∧ t ≤ n ∧ n ≤ 255)) (.invalidParameters 0x34),
        ensure (decide (1 ≤ L ∧ L ≤ 256)) (.invalidParameters 2),
        checkRanges s.params.dmemBytes
          ([⟨.input, 1, sa, L⟩, ⟨.output, 5, oa, n * (L + 2)⟩]
            ++ if s.rngSrc then [⟨.input, 0x20, s.rngPtr.toNat, need⟩] else []) ] with
    | some e => exec .split s = .next (s.fail e)
    | none => s.canDraw need = true →
        exec .split s = .next
          (((s.afterDraws need).memWrite oa
              (splitfn (s.memRead sa L) n t (s.nextBytes need)).flatten).setReg 0 (BitVec.ofNat 32 (n * (L + 2)))).succeed

/-- COMBINE (42_shamir.md R480): its checks in order, those on the record bytes too, then the secret and x[0]; and the secret
of any records with distinct indices, on which VOPEN rests: the sum over i of y_i[p] times the product of x_j / (x_i - x_j)
over the other j (R473). -/
def Obligations.CombineResult : Prop :=
  (∀ (L : Nat) (recs : List (List Byte)), (recs.map (fun r => r.getD 1 0)).Nodup →
    let k := recs.length
    let x : Nat → Byte := fun i => (recs.getD i []).getD 1 0
    let y : Nat → Nat → Byte := fun i p => (recs.getD i []).getD (2 + p) 0
    let w : Nat → Byte := fun i =>
      (((List.range k).filter (fun j => j ≠ i)).map (fun j => (gdiv (x j) (x i ^^^ x j)).getD 0)).foldr mulpoly 1
    combinefn L recs = (List.range L).map (fun p =>
      ((List.range k).map (fun i => mulpoly (y i p) (w i))).foldr (fun b c => b ^^^ c) 0)) ∧
  ∀ s : State, Started s →
    let ra := s.arg 1
    let L := s.arg 2
    let k := s.arg 3
    let te := s.arg 4
    let oa := s.arg 5
    let recs := (List.range k).map (fun i => s.memRead (ra + i * (L + 2)) (L + 2))
    match firstError
      ([ ensure (decide (1 ≤ L ∧ L ≤ 256)) (.invalidParameters 2),
         ensure (decide (k ≤ 255)) (.invalidParameters 3),
         checkRanges s.params.dmemBytes [⟨.input, 1, ra, k * (L + 2)⟩, ⟨.output, 5, oa, L⟩] ]
        ++ recs.zipIdx.flatMap (fun ri =>
          [ ensure (decide (ri.1.getD 0 0 = 8)) (.inconsistent ri.2),
            ensure (decide (ri.1.getD 1 0 ≠ 0)) (.malformedShare ri.2 4) ])
        ++ duplicateChecks recs
        ++ [ ensure (decide (2 ≤ k)) (.insufficientShares k),
             ensure (decide (te = 0 ∨ te ≤ k)) (.thresholdNotMet k) ]) with
    | some e => exec .combine s = .next (s.fail e)
    | none =>
        exec .combine s = .next ((s.memWrite oa (combinefn L recs)).setReg 0 (BitVec.ofNat 32 L)).succeed

/-- ENCODE (43_share_codec.md R505): its checks in order, then the token and x[0]; and the token of a record and the hex text
of a byte string by themselves, on which VSEAL rests (R500, 00_scope.md R16). -/
def Obligations.EncodeResult : Prop :=
  (∀ bs : List Byte, hexhex bs = hexText bs) ∧
  (∀ r : List Byte, 2 ≤ r.length → encodefn r = 0x38 :: hexText (r.drop 1)) ∧
  ∀ s : State, Started s →
    let ra := s.arg 1
    let L := s.arg 2
    let oa := s.arg 5
    let r := s.memRead ra (L + 2)
    match firstError
      [ ensure (decide (1 ≤ L ∧ L ≤ 256)) (.invalidParameters 2),
        checkRanges s.params.dmemBytes [⟨.input, 1, ra, L + 2⟩, ⟨.output, 5, oa, 3 + 2 * L⟩],
        ensure (decide (r.getD 0 0 = 8)) (.malformedShare 0 3),
        ensure (decide (r.getD 1 0 ≠ 0)) (.malformedShare 0 4) ] with
    | some e => exec .encode s = .next (s.fail e)
    | none =>
        exec .encode s = .next
          ((s.memWrite oa (0x38 :: hexText (r.drop 1))).setReg 0 (BitVec.ofNat 32 (3 + 2 * L))).succeed

/-- DECODE (43_share_codec.md R510): its checks in order, those of R501 on the token written out, then the record and x[0];
and R501 for a token by itself, on which VOPEN rests. -/
def Obligations.DecodeResult : Prop :=
  (∀ (tok : List Byte) (L : Nat), decodefn tok L =
    if tok.length ≠ 3 + 2 * L then .error 1
    else if ∃ c ∈ tok, hexDigit c = none then .error 2
    else if tok.getD 0 0 ≠ 0x38 then .error 3
    else if hexByte tok 1 = 0 then .error 4
    else .ok ([8, hexByte tok 1] ++ (List.range L).map (fun p => hexByte tok (3 + 2 * p)))) ∧
  ∀ s : State, Started s →
    let ta := s.arg 1
    let tl := s.arg 2
    let L := s.arg 3
    let oa := s.arg 5
    let tok := s.memRead ta tl
    match firstError
      [ ensure (decide (1 ≤ L ∧ L ≤ 256)) (.invalidParameters 3),
        checkRanges s.params.dmemBytes [⟨.input, 1, ta, tl⟩, ⟨.output, 5, oa, L + 2⟩],
        ensure (decide (tl = 3 + 2 * L)) (.malformedShare 0 1),
        ensure (decide (∀ c ∈ tok, hexDigit c ≠ none)) (.malformedShare 0 2),
        ensure (decide (tok.getD 0 0 = 0x38)) (.malformedShare 0 3),
        ensure (decide (hexByte tok 1 ≠ 0)) (.malformedShare 0 4) ] with
    | some e => exec .decode s = .next (s.fail e)
    | none =>
        exec .decode s = .next
          ((s.memWrite oa ([8, hexByte tok 1] ++ (List.range L).map (fun p => hexByte tok (3 + 2 * p)))).setReg 0
            (BitVec.ofNat 32 (L + 2))).succeed

/-- AENC (44_aead_cipher.md R560): the first 32 draws are the key, the next 12 the IV. -/
def Obligations.AencResult : Prop :=
  ∀ s : State, Started s →
    let pl := s.arg 2
    let p := s.memRead (s.arg 1) pl
    let key := (s.nextBytes 44).take 32
    let iv := (s.nextBytes 44).drop 32
    match checkRanges s.params.dmemBytes
        ([⟨.input, 1, s.arg 1, pl⟩, ⟨.output, 5, s.arg 5, pl + 16⟩, ⟨.output, 6, s.arg 6, 32⟩,
          ⟨.output, 7, s.arg 7, 12⟩, ⟨.output, 8, s.arg 8, 32⟩]
          ++ if s.rngSrc then [⟨.input, 0x20, s.rngPtr.toNat, 44⟩] else []) with
    | some e => exec .aenc s = .next (s.fail e)
    | none => s.canDraw 44 = true →
        exec .aenc s = .next
          ((((((s.afterDraws 44).memWrite (s.arg 5) (gcmEnc key iv p)).memWrite (s.arg 6) key).memWrite (s.arg 7) iv).memWrite
              (s.arg 8) (sha256 p)).setReg 0 (BitVec.ofNat 32 (pl + 16))).succeed

/-- ADEC (44_aead_cipher.md R565): its checks in order, the tag before any plaintext. -/
def Obligations.AdecResult : Prop :=
  ∀ s : State, Started s →
    let cl := s.arg 2
    let pl := if 16 ≤ cl then cl - 16 else 0
    let key := s.memRead (s.arg 3) 32
    let iv := s.memRead (s.arg 6) 12
    let ct := s.memRead (s.arg 1) cl
    match firstError
      [ ensure (decide (s.arg 4 = 32)) (.invalidKeyLength (s.arg 4)),
        ensure (decide (s.arg 7 = 12)) (.invalidNonceLength (s.arg 7)),
        checkRanges s.params.dmemBytes
          [⟨.input, 1, s.arg 1, cl⟩, ⟨.input, 3, s.arg 3, 32⟩, ⟨.input, 6, s.arg 6, 12⟩, ⟨.output, 5, s.arg 5, pl⟩],
        ensure (decide (16 ≤ cl)) (.authenticationFailed 1),
        ensure (gcmVerify key iv ct) (.authenticationFailed 2) ] with
    | some e => exec .adec s = .next (s.fail e)
    | none =>
        exec .adec s = .next ((s.memWrite (s.arg 5) (gcmPlain key iv ct)).setReg 0 (BitVec.ofNat 32 pl)).succeed

/-- HASH (45_digest.md R590). -/
def Obligations.HashResult : Prop :=
  ∀ s : State, Started s →
    let m := s.memRead (s.arg 1) (s.arg 2)
    match checkRanges s.params.dmemBytes [⟨.input, 1, s.arg 1, s.arg 2⟩, ⟨.output, 5, s.arg 5, 32⟩] with
    | some e => exec .hash s = .next (s.fail e)
    | none => exec .hash s = .next ((s.memWrite (s.arg 5) (sha256 m)).setReg 0 32).succeed

/-- VSEAL (46_vault_fsm.md R610, R612): its checks, the draws in order key, IV, coefficients, then the IV hex, the
ciphertext, the digest hex, the tokens and x[0]. -/
def Obligations.VsealResult : Prop :=
  ∀ s : State, Started s →
    let D := s.arg 2
    let n := s.arg 3
    let t := s.arg 4
    let need := 44 + 32 * (t - 1)
    let p := s.memRead (s.arg 1) D
    let drawn := s.nextBytes need
    let key := drawn.take 32
    let iv := (drawn.drop 32).take 12
    let coef := drawn.drop 44
    match firstError
      [ ensure (decide (2 ≤ t ∧ t ≤ n ∧ n ≤ 255)) (.invalidParameters 0x34),
        checkRanges s.params.dmemBytes
          ([⟨.input, 1, s.arg 1, D⟩, ⟨.output, 5, s.arg 5, D + 16⟩, ⟨.output, 6, s.arg 6, 24⟩,
            ⟨.output, 7, s.arg 7, 67 * n⟩, ⟨.output, 8, s.arg 8, 64⟩]
            ++ if s.rngSrc then [⟨.input, 0x20, s.rngPtr.toNat, need⟩] else []) ] with
    | some e => exec .vseal s = .next (s.fail e)
    | none => s.canDraw need = true →
        exec .vseal s = .next
          ((((((s.afterDraws need).memWrite (s.arg 6) (hexhex iv)).memWrite (s.arg 5) (gcmEnc key iv p)).memWrite
              (s.arg 8) (hexhex (sha256 p))).memWrite
              (s.arg 7) ((splitfn key n t coef).map encodefn).flatten).setReg 0 (BitVec.ofNat 32 (D + 16))).succeed

/-- VOPEN (46_vault_fsm.md R620, R625): every check in order, then the plaintext, x[0], and WARN for a digest that does not
match. -/
def Obligations.VopenResult : Prop :=
  ∀ s : State, Started s →
    let C := s.arg 2
    let k := s.arg 7
    let te := s.arg 8
    let hl := s.arg 10
    let pl := if 16 ≤ C then C - 16 else 0
    let entries := (List.range k).map (fun i =>
      (s.dmem.read32 (s.arg 6 + 8 * i), s.dmem.read32 (s.arg 6 + 8 * i + 4)))
    let tokens := entries.map (fun e => decodefn (s.memRead e.1 e.2) 32)
    let recs := tokens.map recordOf
    let v := s.memRead (s.arg 3) 24
    let key := combinefn 32 recs
    let iv := (List.range 12).map (fun j => hexByte v (2 * j))
    let ct := s.memRead (s.arg 1) C
    let plain := gcmPlain key iv ct
    let hex := s.memRead (s.arg 9) 64
    match firstError
      ([ ensure (decide (k ≤ 255)) (.invalidParameters 7),
         ensure (decide (hl = 0 ∨ hl = 64)) (.invalidParameters 10),
         ensure (decide (s.arg 4 = 24)) (.invalidNonceLength (s.arg 4)),
         checkRanges s.params.dmemBytes
          ([⟨.input, 1, s.arg 1, C⟩, ⟨.input, 3, s.arg 3, 24⟩, ⟨.input, 6, s.arg 6, 8 * k⟩, ⟨.input, 9, s.arg 9, hl⟩]
            ++ entries.zipIdx.map (fun ei => ⟨.input, 0x100 + ei.2, ei.1.1, ei.1.2⟩)
            ++ [⟨.output, 5, s.arg 5, pl⟩]) ]
        ++ tokens.zipIdx.map (fun ri => tokenError ri.2 ri.1)
        ++ v.zipIdx.map (fun cq => ensure (hexDigit cq.1).isSome (.invalidNonceLength (0x0100_0000 ||| cq.2)))
        ++ duplicateChecks recs
        ++ [ ensure (decide (2 ≤ k)) (.insufficientShares k),
             ensure (decide (te = 0 ∨ te ≤ k)) (.thresholdNotMet k),
             ensure (decide (16 ≤ C)) (.authenticationFailed 1),
             ensure (gcmVerify key iv ct) (.authenticationFailed 2) ]) with
    | some e => exec .vopen s = .next (s.fail e)
    | none =>
        exec .vopen s = .next
          { ((s.memWrite (s.arg 5) plain).setReg 0 (BitVec.ofNat 32 pl)).succeed with
            warn := hl == 64 && (hex.any (fun c => (hexDigit c).isNone) || (List.range 32).any (fun j =>
              hexByte hex (2 * j) != (sha256 plain).getD j 0)) }

/-! ### What a command leaves alone -/

/-- No command writes a general register but its destination, CMD, CTRL, HERR, RNG_CNT of a non-drawing command, or anything
outside the engine; only VOPEN can set WARN (10_state.md R102; 40_command_lifecycle.md R404; 20_memory.md R233). -/
def Obligations.CommandsKeepOtherState : Prop :=
  ∀ (i : Instr) (s t : State), exec i s = .next t →
    (∀ r, destReg i ≠ some r → t.reg r = s.reg r) ∧
    t.params = s.params ∧ t.rstN = s.rstN ∧ t.cmd = s.cmd ∧ t.rngSrc = s.rngSrc ∧ t.irqEn = s.irqEn ∧ t.herr = s.herr ∧
    t.pending = s.pending ∧ t.rdata = s.rdata ∧ t.freeCount = s.freeCount ∧
    (i ≠ .split → i ≠ .aenc → i ≠ .vseal →
      t.rngCnt = s.rngCnt ∧ t.rngPtr = s.rngPtr ∧ t.entropy = s.entropy) ∧
    (s.rngSrc = true → t.entropy = s.entropy) ∧ (s.rngSrc = false → t.rngPtr = s.rngPtr) ∧
    (i ≠ .vopen → t.warn = s.warn)

/-- Every byte of DMEM outside the output ranges of the command, and so every byte for a command that has none, is
unchanged, from wherever the command stands, also where it waits or fails (20_memory.md R213). -/
def Obligations.CommandsWriteOnlyOutputs : Prop :=
  ∀ (i : Instr) (s t : State) (a : Nat), OutputsFit s → exec i s = .next t →
    ¬ inRanges (outputs (rangesOf i s)) a → t.dmem.byte a = s.dmem.byte a

/-! ### Invariants -/

/-- Every step keeps DMEM in its canonical form, which is the model's choice (log 1). -/
def Obligations.MemoryStaysCanonical : Prop :=
  ∀ s t : State, s.dmem.wf → step s = .next t → t.dmem.wf

/-- Every step keeps STATUS coherent: BUSY is "not IDLE", DONE and ERR exclude each other, ERRCODE is 0 after success and
else a code of the table, and the hidden buffers are scrubbed whenever no command is past DISPATCH (10_state.md R112,
R130-R133; 60_exceptions.md R700, R741; 46_vault_fsm.md R600). -/
def Obligations.CoherentIsKept : Prop :=
  ∀ s t : State, Coherent s → step s = .next t → Coherent t

/-- Every step of a coherent machine keeps each hidden buffer within its size, COEFBUF and SHAREBUF too, and keeps that a
command past DISPATCH has passed its parameter check, on which these two bounds rest (10_state.md R130-R133). -/
def Obligations.BoundedIsKept : Prop :=
  ∀ s t : State, Coherent s → Bounded s → CommandChecked s → step s = .next t → Bounded t ∧ CommandChecked t

/-- The state after reset meets the invariants, and the state START makes of a coherent idle machine is `Started`. -/
def Obligations.ResetMeetsInvariants : Prop :=
  State.reset.dmem.wf ∧ Coherent State.reset ∧ Bounded State.reset ∧ CommandChecked State.reset ∧
  ResetHeld State.reset ∧
  ∀ s : State, Coherent s → s.busy = false → Started s.start

/-- Every step answers a next state: no fault, no refusal (60_exceptions.md R710, R720: every error is reported in STATUS). -/
def Obligations.EveryStepHasNextState : Prop := ∀ s : State, ∃ t, step s = .next t

/-! ### The orchestrator -/

/-- 46_vault_fsm.md R601, R604, R606: from a state of its path a command stays, goes to the next state of the path (after the
last, IDLE), or returns to IDLE with an error; it never goes back and never skips. That a turn is one state's work is the model's granularity (log 10). -/
def Obligations.FsmFollowsPath : Prop :=
  ∀ (s : State) (i : Instr), s.busy = true → decode s.cmd = .ok i → s.fsm ∈ pathOf i →
    (engineTurn s).fsm = s.fsm ∨ follows (pathOf i) s.fsm (engineTurn s).fsm = true ∨
      ((engineTurn s).fsm = .idle ∧ (engineTurn s).busy = false ∧ (engineTurn s).err = true)

/-- 46_vault_fsm.md R603: leaving DISPATCH. That GDIV and GINV make their zero check there is the model's reading (log 9), and
that one turn is one FSM state is its granularity (log 10). -/
def Obligations.LeavingDispatch : Prop :=
  ∀ s : State, s.busy = true → s.fsm = .dispatch →
    (∀ e, decode s.cmd = .error e → engineTurn s = s.fail (.illegalCommand s.cmd)) ∧
    ∀ i, decode s.cmd = .ok i →
      engineTurn s = match firstError [paramsOf i s, checkRanges s.params.dmemBytes (rangesOf i s)] with
        | some e => s.fail e
        | none => { s with fsm := match i with
            | .vseal => .sealKeygen
            | .vopen => .openDecode
            | _ => .exec }

/-- 46_vault_fsm.md R611: SEAL_SCRUB zeroes the key and the coefficients before any token is written: SEAL_ENCODE is entered
from SEAL_SCRUB alone, and a turn of any other state writes nothing outside the ciphertext, the IV hex and the digest. That a turn is one state's work is the model's granularity (log 10). -/
def Obligations.KeyIsScrubbedBeforeTokens : Prop :=
  ∀ s : State, s.busy = true → decode s.cmd = .ok .vseal →
    (s.fsm = .sealScrub → engineTurn s = { s with keyBuf := [], coefBuf := [], fsm := .sealEncode }) ∧
    (s.fsm ≠ .sealScrub → (engineTurn s).fsm ≠ .sealEncode) ∧
    (s.fsm ≠ .sealEncode → s.ivBuf.length ≤ 12 → ∀ a,
      ¬ inRanges [⟨.output, 5, s.arg 5, s.arg 2 + 16⟩, ⟨.output, 6, s.arg 6, 24⟩, ⟨.output, 8, s.arg 8, 64⟩] a →
      (engineTurn s).dmem.byte a = s.dmem.byte a)

/-! ### Ranges -/

/-- 20_memory.md R210, R211: a range is legal where it is empty or ends within DMEM, on unbounded naturals; the first
illegal range decides the error. -/
def Obligations.FirstIllegalRangeDecides : Prop :=
  ∀ (size : Nat) (before after : List Range) (r : Range),
    (∀ x ∈ before, x.len = 0 ∨ x.addr + x.len ≤ size) → r.len ≠ 0 → size < r.addr + r.len →
    checkRanges size (before ++ r :: after) = some (.addressFault r.id)

/-- 20_memory.md R212: with every range legal, the first overlapping pair decides: outputs in order, each against the inputs
in order and then the later outputs; ranges overlap where both are nonempty and share a byte. With no such pair, however the
inputs overlap each other, the checks pass. -/
def Obligations.FirstOverlapDecides : Prop :=
  ∀ (size : Nat) (rs : List Range),
    let overlap : Range → Range → Prop := fun y z =>
      0 < y.len ∧ 0 < z.len ∧ y.addr < z.addr + z.len ∧ z.addr < y.addr + y.len
    (∀ y ∈ rs, y.len = 0 ∨ y.addr + y.len ≤ size) →
    (∀ (before later pre post : List Range) (o x : Range),
      outputs rs = before ++ o :: later → inputs rs ++ later = pre ++ x :: post →
      (∀ p y q, before = p ++ y :: q → ∀ z ∈ inputs rs ++ (q ++ o :: later), ¬ overlap y z) →
      (∀ z ∈ pre, ¬ overlap o z) → overlap o x →
      checkRanges size rs = some (.bufferOverlap o.id x.id)) ∧
    ((∀ p y q, outputs rs = p ++ y :: q → ∀ z ∈ inputs rs ++ q, ¬ overlap y z) → checkRanges size rs = none)

/-! ### The host interface -/

/-- 20_memory.md R202: a legal write of the DMEM window stores the little-endian bytes and nothing else, and a legal read
returns their sum. -/
def Obligations.DmemWindow : Prop :=
  ∀ (s : State) (a size : Nat) (v : Word), s.busy = false → size = 1 ∨ size = 2 ∨ size = 4 → a % size = 0 →
    a + size ≤ s.params.dmemBytes →
    let t := s.busWrite (0x100_0000 + a) size v
    (∀ i < size, t.dmem.byte (a + i) = v.extractLsb' (8 * i) 8) ∧
    (∀ x, x < a ∨ a + size ≤ x → t.dmem.byte x = s.dmem.byte x) ∧
    t = { s with dmem := t.dmem } ∧
    s.busRead (0x100_0000 + a) size = { s with rdata := (s.busRead (0x100_0000 + a) size).rdata } ∧
    (s.busRead (0x100_0000 + a) size).rdata.toNat
      = ((List.range size).map (fun i => (s.dmem.byte (a + i)).toNat * 2 ^ (8 * i))).sum

/-- 10_state.md R101, R113, R115, R117: while BUSY = 0 the host reads and writes R0..R15, CMD and RNG_PTR unchanged. -/
def Obligations.RegisterWindow : Prop :=
  ∀ (s : State) (r : RegNum) (v : Word), s.busy = false →
    s.busWrite (0x040 + 4 * r.val) 4 v = s.setReg r v ∧
    s.busRead (0x040 + 4 * r.val) 4 = { s with rdata := s.reg r } ∧
    (∀ r', (s.setReg r v).reg r' = if r' = r then v else s.reg r') ∧
    s.busWrite 0x014 4 v = { s with cmd := v } ∧ s.busRead 0x014 4 = { s with rdata := s.cmd } ∧
    s.busWrite 0x01C 4 v = { s with rngPtr := v } ∧ s.busRead 0x01C 4 = { s with rdata := s.rngPtr }

/-- 10_state.md R114, R116, R118-R121: the read-only registers, at any time, with their constants; writes to them are
ignored and do not set HERR. -/
def Obligations.ReadOnlyRegisters : Prop :=
  ∀ (s : State) (v : Word),
    s.busRead 0x000 4 = { s with rdata := 0x4746_3238 } ∧
    s.busRead 0x004 4 = { s with rdata := 0x0001_0000 } ∧
    s.busRead 0x008 4 = { s with rdata := 0x0003_1B00 ||| BitVec.ofNat 32 s.params.dmemLog } ∧
    s.busRead 0x018 4 = { s with rdata := s.errInfo } ∧
    s.busRead 0x020 4 = { s with rdata := s.rngCnt } ∧
    (∀ off ∈ [0x000, 0x004, 0x008, 0x018, 0x020], s.busWrite off 4 v = s)

/-- 10_state.md R112, R122: STATUS as it reads, field by field, and the write-1-to-clear bits, at any time. -/
def Obligations.StatusRegister : Prop :=
  ∀ (s : State) (v : Word),
    let w := (s.busRead 0x010 4).rdata
    w.getLsbD 0 = s.busy ∧ w.getLsbD 1 = s.done ∧ w.getLsbD 2 = s.err ∧ w.getLsbD 3 = s.warn ∧ w.getLsbD 4 = s.herr ∧
    w.extractLsb' 5 3 = 0 ∧ w.extractLsb' 8 8 = s.errCode ∧ w.extractLsb' 16 8 = s.fsm.code ∧ w.extractLsb' 24 8 = 0 ∧
    s.busWrite 0x010 4 v =
      { s with
        done := s.done && !v.getLsbD 1, err := s.err && !v.getLsbD 2
        warn := s.warn && !v.getLsbD 3, herr := s.herr && !v.getLsbD 4 }

/-- 10_state.md R111: a CTRL write in its order, and CTRL as it reads. -/
def Obligations.CtrlRegister : Prop :=
  ∀ (s : State) (v : Word),
    (s.busWrite 0x00C 4 v =
      if v.getLsbD 1 then s.resetEngine
      else if s.busy then
        { s with irqEn := v.getLsbD 3, herr := s.herr || (v.getLsbD 2 != s.rngSrc) || v.getLsbD 0 }
      else if v.getLsbD 0 then { s with irqEn := v.getLsbD 3, rngSrc := v.getLsbD 2 }.start
      else { s with irqEn := v.getLsbD 3, rngSrc := v.getLsbD 2 }) ∧
    let w := (s.busRead 0x00C 4).rdata
    w.extractLsb' 0 2 = 0 ∧ w.getLsbD 2 = s.rngSrc ∧ w.getLsbD 3 = s.irqEn ∧ w.extractLsb' 4 28 = 0

/-- 20_memory.md R201-R204, 10_state.md R118: an access that is not legal or not mapped changes nothing but HERR, and a read
returns 0. -/
def Obligations.RefusedAccess : Prop :=
  ∀ (s : State) (off size : Nat) (v : Word),
    ¬ (size = 4 ∧ off % 4 = 0 ∧ (off < 0x024 ∨ (0x040 ≤ off ∧ off < 0x080))) →
    ¬ (0x100_0000 ≤ off ∧ (size = 1 ∨ size = 2 ∨ size = 4) ∧ (off - 0x100_0000) % size = 0 ∧
        off - 0x100_0000 + size ≤ s.params.dmemBytes) →
    s.busWrite off size v = { s with herr := true } ∧ s.busRead off size = { s with herr := true, rdata := 0 }

/-- 20_memory.md R207: while BUSY = 1 the engine owns DMEM, CMD, RNG_PTR and R0..R15. -/
def Obligations.BusyRefusal : Prop :=
  ∀ (s : State) (off size : Nat) (v : Word), s.busy = true →
    (0x100_0000 ≤ off ∨ off = 0x014 ∨ off = 0x01C ∨ (0x040 ≤ off ∧ off < 0x080)) →
    s.busWrite off size v = { s with herr := true } ∧ s.busRead off size = { s with herr := true, rdata := 0 }

/-- 10_state.md R135, 60_exceptions.md R740: what a host reads does not depend on the hidden buffers. -/
def Obligations.HiddenBuffersAreInvisible : Prop :=
  ∀ (s : State) (k iv c : List Byte) (sh : List (List Byte)) (off size : Nat),
    ({ s with keyBuf := k, ivBuf := iv, coefBuf := c, shareBuf := sh }.busRead off size).rdata = (s.busRead off size).rdata

/-- 60_exceptions.md R730: the level of irq, when it rises and when it falls. -/
def Obligations.IrqLevel : Prop :=
  (∀ s : State, s.irq = true ↔ s.irqEn = true ∧ (s.done = true ∨ s.err = true)) ∧
  (∀ (i : Instr) (s t : State), Started s → exec i s = .next t → t.busy = false → t.irq = s.irqEn) ∧
  (∀ (s : State) (v : Word), v.getLsbD 1 = true → v.getLsbD 2 = true → (s.busWrite 0x010 4 v).irq = false) ∧
  (∀ s : State, s.start.irq = false) ∧
  (∀ (s : State) (v : Word), v.getLsbD 3 = false → (s.busWrite 0x00C 4 v).irq = false) ∧
  (∀ s : State, s.resetEngine.irq = false)

/-- 70_reset_and_hazards.md R800, R801: what `rst_n` leaves when it is low or rises, and what a soft reset leaves, at any
time: every reset value but DMEM, of which only the output ranges of a running command are touched: each byte of them in DMEM
then holds an unknown value, which the model writes as the free value of that byte, new for each reset (log 7); and while `rst_n` is low
the engine holds these values, and still has them when it rises, whatever the host, the port or the engine do. That bytes on
offer at the port stay on offer (log 5), that DMEM takes no write while `rst_n` is low, and that a read then returns the held
values (log 8), is the model's reading. An `rst_n` that stays high does nothing. -/
def Obligations.ResetValues : Prop :=
  (∀ (s t : State) (level : Bool),
    ((level = false ∨ s.rstN = false) ∧ handle (.rstPin level) s = .next t) ∨
      (level = s.rstN ∧ ∃ v : Word, v.getLsbD 1 = true ∧ t = s.busWrite 0x00C 4 v) →
    t.rstN = level ∧ ResetHeld t ∧ t.params = s.params ∧ t.entropy = s.entropy ∧
    (s.busy = false → t.dmem = s.dmem ∧ t.freeCount = s.freeCount) ∧
    (s.busy = true → t.freeCount = s.freeCount + 1 ∧
      ∀ a < s.params.dmemBytes, inRanges s.outputRanges a → t.dmem.byte a = Config.abandonedByte s.freeCount a) ∧
    ∀ a, ¬ inRanges s.outputRanges a → t.dmem.byte a = s.dmem.byte a) ∧
  (∀ s t : State, s.rstN = false → ResetHeld s → step s = .next t →
    ResetHeld t ∧ t.dmem = s.dmem ∧ t.params = s.params ∧
    (t.rstN = true ↔ ∃ rest, s.pending = .rstPin true :: rest) ∧
    (∀ off size rest, s.pending = .busRead off size :: rest → t.rdata = (s.busRead off size).rdata) ∧
    (∀ b rest, s.pending = .entropyByte b :: rest → t.entropy = s.entropy ++ [b])) ∧
  (∀ (s : State) (high : Bool), ∃ t, handle (.rstPin high) s = .next t ∧ t.rstN = high) ∧
  ∀ (s : State) (off size : Nat) (v : Word), s.rstN = true →
    handle (.rstPin true) s = .next s ∧
    handle (.busWrite off size v) s = .next (s.busWrite off size v) ∧
    handle (.busRead off size) s = .next (s.busRead off size)

/-- 60_exceptions.md R700, R701: the code and the detail word of each error, as error completion writes them. -/
def Obligations.ErrorCodes : Prop :=
  ∀ (s : State) (w : Word) (m n : Nat),
    let report : CmdError → Byte × Word := fun e => ((s.fail e).errCode, (s.fail e).errInfo)
    report (.invalidParameters n) = (0x01, BitVec.ofNat 32 n) ∧
    report .divisionByZero = (0x02, 0) ∧
    report (.malformedShare m n) = ((0x03 : Byte), ((BitVec.ofNat 32 m <<< 8) ||| BitVec.ofNat 32 n : Word)) ∧
    report (.insufficientShares n) = (0x04, BitVec.ofNat 32 n) ∧
    report (.inconsistent n) = (0x05, BitVec.ofNat 32 n) ∧
    report (.thresholdNotMet n) = (0x06, BitVec.ofNat 32 n) ∧
    report (.authenticationFailed n) = (0x07, BitVec.ofNat 32 n) ∧
    report (.invalidKeyLength n) = (0x08, BitVec.ofNat 32 n) ∧
    report (.invalidNonceLength n) = (0x09, BitVec.ofNat 32 n) ∧
    report (.illegalCommand w) = (0x10, w) ∧
    report (.addressFault n) = (0x11, BitVec.ofNat 32 n) ∧
    report (.bufferOverlap m n) = ((0x12 : Byte), ((BitVec.ofNat 32 m <<< 16) ||| BitVec.ofNat 32 n : Word))

/-! ### The functions -/

/-- 10_state.md R141: the definition of the tables, over the bitwise product, and that EXP is a bijection onto 1..255. -/
def Obligations.RomTables : Prop :=
  expRom 0 = 0x01 ∧ (∀ i < 254, expRom (i + 1) = mulpoly (expRom i) 0x03) ∧ expRom 255 = 0x01 ∧
  (∀ i < 255, logRom (expRom i) = i) ∧ logRom 0 = 0x00 ∧ ∀ a : Byte, a ≠ 0 → ∃ i < 255, expRom i = a

/-- 41_gf_arith.md R432, 10_state.md R145: the table product is the polynomial product modulo 0x11b, for every pair. -/
def Obligations.GmulIsPolynomialProduct : Prop := ∀ a b : Byte, gmul a b = mulpoly a b

/-- 41_gf_arith.md R436: the arithmetic laws. -/
def Obligations.FieldLaws : Prop :=
  ∀ a b c : Byte,
    (gadd a b = gadd b a ∧ gmul a b = gmul b a ∧ gadd (gadd a b) c = gadd a (gadd b c) ∧
      gmul (gmul a b) c = gmul a (gmul b c) ∧ gmul a (gadd b c) = gadd (gmul a b) (gmul a c)) ∧
    (gadd a 0 = a ∧ gadd a a = 0 ∧ gmul a 1 = a ∧ gmul a 0 = 0) ∧
    (a ≠ 0 → ∃ x, ginv a = some x ∧ gmul a x = 1) ∧
    (b ≠ 0 → ∃ x, ginv b = some x ∧ gdiv a b = some (gmul a x)) ∧
    (a ≠ 0 → ∀ k, gpow a k = gpow a (k % 255)) ∧ (a ≠ 0 → gpow a 255 = 1) ∧
    (∀ k, 1 ≤ k → gpow 0 k = 0)

/-- 41_gf_arith.md R434: gpow is the k-fold product, with the empty product 1. -/
def Obligations.GpowIsProduct : Prop :=
  ∀ (a : Byte) (k : Nat), gpow a k = (List.replicate k a).foldr mulpoly 1

/-- 41_gf_arith.md R437: Horner's rule computes Σ c[i] ⊗ x^i; at 0 it gives c[0], and the empty polynomial gives 0. -/
def Obligations.PevalIsSum : Prop :=
  ∀ (c : List Byte) (x : Byte),
    peval c x = (c.zipIdx.map (fun ci => gmul ci.1 (gpow x ci.2))).foldr gadd 0 ∧
    (c ≠ [] → peval c 0 = c.getD 0 0) ∧ peval [] x = 0

/-- 42_shamir.md R474 (a), (b): any t or more of the n shares, in any order, give the secret back. -/
def Obligations.CombineInvertsSplit : Prop :=
  ∀ (secret a : List Byte) (n t : Nat) (recs : List (List Byte)),
    2 ≤ t → t ≤ n → n ≤ 255 → a.length = secret.length * (t - 1) →
    recs.Nodup → (∀ r ∈ recs, r ∈ splitfn secret n t a) → t ≤ recs.length →
    combinefn secret.length recs = secret

/-- 43_share_codec.md R502: decoding an encoded record gives it back; encoding a decoded token gives the token with its hex
letters in lower case. -/
def Obligations.CodecRoundTrip : Prop :=
  (∀ (r : List Byte) (L : Nat), r.length = L + 2 → r.getD 0 0 = 8 → r.getD 1 0 ≠ 0 →
    decodefn (encodefn r) L = .ok r) ∧
  ∀ (tok r : List Byte) (L : Nat), decodefn tok L = .ok r →
    encodefn r = tok.map (fun c => if 0x41 ≤ c.toNat ∧ c.toNat ≤ 0x46 then c + 0x20 else c)

/-- 44_aead_cipher.md R540, R541: decryption under the same key and IV accepts what encryption made, gives the plaintext
back, and refuses everything else; the output is the plaintext length plus 16. -/
def Obligations.GcmRoundTrip : Prop :=
  ∀ k iv p : List Byte, k.length = 32 → iv.length = 12 →
    gcmDec k iv (gcmEnc k iv p) = some p ∧ (gcmEnc k iv p).length = p.length + 16 ∧
    ∀ ct : List Byte, (gcmDec k iv ct = some p ↔ gcmEnc k iv p = ct) ∧
      (gcmVerify k iv ct = true ∧ gcmPlain k iv ct = p ↔ gcmEnc k iv p = ct)

/-- 46_vault_fsm.md R626: from the ciphertext, the IV hex, the digest hex and any t or more distinct tokens of a vault, in
any order, with any t_expected up to their number, the functions VOPEN applies give the plaintext back, and the digest
matches. -/
def Obligations.VaultRoundTrip : Prop :=
  ∀ (key iv coef p : List Byte) (n t : Nat) (tokens : List (List Byte)),
    key.length = 32 → iv.length = 12 → coef.length = 32 * (t - 1) → 2 ≤ t → t ≤ n → n ≤ 255 →
    tokens.Nodup → (∀ x ∈ tokens, x ∈ (splitfn key n t coef).map encodefn) → t ≤ tokens.length →
    ∃ recs, decodeTokens 0 tokens = .ok recs ∧
      (∀ te ≤ tokens.length, combineError recs tokens.length te = none) ∧
      (hexhex iv).all ishex = true ∧
      gcmDec (combinefn 32 recs) (unhex (hexhex iv)) (gcmEnc key iv p) = some p ∧
      digestMismatch (hexhex (sha256 p)) (sha256 p) = false

/-- The S-box table is the field inverse under the affine map (44_aead_cipher.md R531), and the worked examples of AES-256
(R535), of GCM (R540; V-AEAD-2, V-AEAD-3 and V-AEAD-4 of 95_test_vectors.md) and of SHA-256 (45_digest.md R585; V-HASH-3,
two blocks). For messages of any number of blocks: byte q of keystream block j of GCTR is that of the cipher of the counter
block counted on by j (R539); GHASH multiplies block after block into its value (R538), by the product of R537; and GCM is
made of these (R540). -/
def Obligations.SboxAndExamples : Prop :=
  (∀ a : Byte,
    let b : Byte := if a = 0 then 0 else (ginv a).getD 0
    sbox a = b ^^^ b.rotateLeft 1 ^^^ b.rotateLeft 2 ^^^ b.rotateLeft 3 ^^^ b.rotateLeft 4 ^^^ 0x63) ∧
  aes ((List.range 32).map (BitVec.ofNat 8)) ((List.range 16).map (fun i => BitVec.ofNat 8 (0x11 * i)))
    = [0x8e, 0xa2, 0xb7, 0xca, 0x51, 0x67, 0x45, 0xbf, 0xea, 0xfc, 0x49, 0x90, 0x4b, 0x49, 0x60, 0x89] ∧
  gcmEnc (List.replicate 32 0) (List.replicate 12 0) []
    = [0x53, 0x0f, 0x8a, 0xfb, 0xc7, 0x45, 0x36, 0xb9, 0xa9, 0x63, 0xb4, 0xf1, 0xc4, 0xcb, 0x73, 0x8b] ∧
  gcmEnc (List.replicate 32 0) (List.replicate 12 0) (List.replicate 16 0)
    = [0xce, 0xa7, 0x40, 0x3d, 0x4d, 0x60, 0x6b, 0x6e, 0x07, 0x4e, 0xc5, 0xd3, 0xba, 0xf3, 0x9d, 0x18]
      ++ [0xd0, 0xd1, 0xc8, 0xa7, 0x99, 0x99, 0x6b, 0xf0, 0x26, 0x5b, 0x98, 0xb5, 0xd4, 0x8a, 0xb9, 0x19] ∧
  gcmEnc ((List.range 32).map (BitVec.ofNat 8)) ((List.range 12).map (BitVec.ofNat 8))
      [0x68, 0x65, 0x6c, 0x6c, 0x6f, 0x20, 0x76, 0x61, 0x75, 0x6c, 0x74]
    = [0x2f, 0x67, 0xba, 0x77, 0xaa, 0xc5, 0xb4, 0x7a, 0xf8, 0x2d, 0xe3]
      ++ [0xdd, 0xd5, 0x43, 0xc7, 0x1c, 0x3c, 0x32, 0x9b, 0x79, 0xc5, 0xb1, 0x84, 0x81, 0xea, 0x23, 0x72] ∧
  sha256 []
    = [0xe3, 0xb0, 0xc4, 0x42, 0x98, 0xfc, 0x1c, 0x14, 0x9a, 0xfb, 0xf4, 0xc8, 0x99, 0x6f, 0xb9, 0x24,
       0x27, 0xae, 0x41, 0xe4, 0x64, 0x9b, 0x93, 0x4c, 0xa4, 0x95, 0x99, 0x1b, 0x78, 0x52, 0xb8, 0x55] ∧
  sha256 [0x61, 0x62, 0x63]
    = [0xba, 0x78, 0x16, 0xbf, 0x8f, 0x01, 0xcf, 0xea, 0x41, 0x41, 0x40, 0xde, 0x5d, 0xae, 0x22, 0x23,
       0xb0, 0x03, 0x61, 0xa3, 0x96, 0x17, 0x7a, 0x9c, 0xb4, 0x10, 0xff, 0x61, 0xf2, 0x00, 0x15, 0xad] ∧
  sha256
      [0x61, 0x62, 0x63, 0x64, 0x62, 0x63, 0x64, 0x65, 0x63, 0x64, 0x65, 0x66, 0x64, 0x65, 0x66, 0x67,
       0x65, 0x66, 0x67, 0x68, 0x66, 0x67, 0x68, 0x69, 0x67, 0x68, 0x69, 0x6a, 0x68, 0x69, 0x6a, 0x6b,
       0x69, 0x6a, 0x6b, 0x6c, 0x6a, 0x6b, 0x6c, 0x6d, 0x6b, 0x6c, 0x6d, 0x6e, 0x6c, 0x6d, 0x6e, 0x6f,
       0x6d, 0x6e, 0x6f, 0x70, 0x6e, 0x6f, 0x70, 0x71]
    = [0x24, 0x8d, 0x6a, 0x61, 0xd2, 0x06, 0x38, 0xb8, 0xe5, 0xc0, 0x26, 0x93, 0x0c, 0x3e, 0x60, 0x39,
       0xa3, 0x3c, 0xe4, 0x59, 0x64, 0xff, 0x21, 0x67, 0xf6, 0xec, 0xed, 0xd4, 0x19, 0xdb, 0x06, 0xc1] ∧
  (∀ k icb x : List Byte, k.length = 32 → icb.length = 16 →
    gctr (roundKeys k) (blockOf icb) x =
      x.zipIdx.map (fun bi => bi.1 ^^^ (aes k (counterBlock icb (bi.2 / 16))).getD (bi.2 % 16) 0)) ∧
  (∀ h : Block, ghash h [] = 0 ∧ ∀ xs block : List Byte, xs.length % 16 = 0 → block.length = 16 →
    ghash h (xs ++ block) = gfMul (ghash h xs ^^^ blockOf block) h) ∧
  (∀ x y : Block, gfMul x y = ((List.range 128).map (fun i => if x.getMsbD i then
    Nat.repeat (fun v : Block => (v >>> 1) ^^^ (if v.getLsbD 0 then (0xE1 : Block) <<< 120 else 0)) i y else 0)).foldr
      (fun b c => b ^^^ c) 0) ∧
  (∀ bs : List Byte, bs.length = 16 → (blockOf bs).toNat = bs.foldl (fun acc b => 256 * acc + b.toNat) 0 ∧
    blockBytes (blockOf bs) = bs) ∧
  ∀ k iv p : List Byte, k.length = 32 → iv.length = 12 →
    let j0 := iv ++ [0, 0, 0, 1]
    let c := gctr (roundKeys k) (blockOf (counterBlock j0 1)) p
    let lengths := (List.range 8).map (fun q => BitVec.ofNat 8 (8 * c.length / 256 ^ (7 - q)))
    let s := ghash (blockOf (aes k (List.replicate 16 0)))
      (c ++ List.replicate ((16 - c.length % 16) % 16) 0 ++ List.replicate 8 0 ++ lengths)
    gcmEnc k iv p = c ++ gctr (roundKeys k) (blockOf j0) (blockBytes s)
end

