-- ==== Sys2Proof/Laws/Memory.lean ====
section
/-! SUPPORT. DMEM: reading after a write gives the bytes written, everywhere else the bytes of before, and every write
keeps the canonical form. -/

namespace Sys2Proof.Machine

/-! ### Lookup and write -/

@[simp] theorem Mem.lookup_nil (x : Nat) : Mem.lookup [] x = none := rfl

theorem Mem.lookup_cons (c : Host.Cell) (m : Mem) (x : Nat) :
    Mem.lookup (c :: m) x = if c.1 = x then some c.2 else Mem.lookup m x := by
  by_cases h : c.1 = x
  · simp [Mem.lookup, h]
  · have hb : (c.1 == x) = false := by simpa using h
    simp only [Mem.lookup, List.find?_cons, hb, if_neg h]

theorem Mem.lookup_append (m₁ m₂ : Mem) (x : Nat) :
    Mem.lookup (m₁ ++ m₂) x = (Mem.lookup m₁ x).or (Mem.lookup m₂ x) := by
  simp only [Mem.lookup, List.find?_append]
  cases List.find? (fun c => c.1 == x) m₁ <;> simp

theorem Mem.lookup_filter (p : Host.Cell → Bool) (m : Mem) (x : Nat) (v : Bool)
    (h : ∀ b, p (x, b) = v) : Mem.lookup (m.filter p) x = if v then Mem.lookup m x else none := by
  induction m with
  | nil => simp
  | cons c m ih =>
    obtain ⟨a, b⟩ := c
    by_cases hax : a = x
    · subst hax
      cases v <;> simp [h, ih, Mem.lookup_cons]
    · by_cases hp : p (a, b) <;> simp [hp, ih, Mem.lookup_cons, hax]

@[simp] theorem Mem.cells_nil (a : Nat) : Mem.cells a [] = [] := rfl

theorem Mem.lookup_cells (bs : List Byte) (a x : Nat) :
    Mem.lookup (Mem.cells a bs) x = if a ≤ x then bs[x - a]? else none := by
  induction bs generalizing a with
  | nil => simp
  | cons b bs ih =>
    rw [Mem.cells, Mem.lookup_cons, ih]
    by_cases h : a = x
    · subst h; simp
    · by_cases hlt : a + 1 ≤ x
      · have e : x - a = (x - (a + 1)) + 1 := by omega
        simp [h, hlt, Nat.le_of_succ_le hlt, e]
      · have : ¬ a ≤ x := by omega
        simp [h, hlt, this]

/-- What a byte of DMEM is after a write: the new byte inside the written bytes, the old one outside. -/
theorem Mem.lookup_write (m : Mem) (a : Nat) (bs : List Byte) (x : Nat) :
    (m.write a bs).lookup x = if a ≤ x ∧ x < a + bs.length then bs[x - a]? else m.lookup x := by
  rw [Mem.write, Mem.lookup_append, Mem.lookup_append, Mem.lookup_cells,
    Mem.lookup_filter (fun c => decide (c.1 < a)) m x (decide (x < a)) (fun _ => rfl),
    Mem.lookup_filter (fun c => decide (a + bs.length ≤ c.1)) m x (decide (a + bs.length ≤ x)) (fun _ => rfl)]
  by_cases h1 : x < a
  · have : ¬ a ≤ x := by omega
    have h3 : ¬ a + bs.length ≤ x := by omega
    simp [h1, this, h3]
  · have h2 : a ≤ x := by omega
    by_cases h3 : a + bs.length ≤ x
    · have h4 : ¬ x < a + bs.length := by omega
      have h5 : bs.length ≤ x - a := by omega
      simp [h1, h2, h3, h4, h5]
    · have h4 : x < a + bs.length := by omega
      simp [h1, h2, h3, h4]

theorem Mem.byte_write_of_notin (m : Mem) (a : Nat) (bs : List Byte) (x : Nat)
    (h : x < a ∨ a + bs.length ≤ x) : (m.write a bs).byte x = m.byte x := by
  have : ¬ (a ≤ x ∧ x < a + bs.length) := by omega
  simp [Mem.byte, Mem.lookup_write, this]

theorem Mem.byte_write_of_mem (m : Mem) (a : Nat) (bs : List Byte) (i : Nat) (h : i < bs.length) :
    (m.write a bs).byte (a + i) = bs[i] := by
  simp [Mem.byte, Mem.lookup_write, h]

/-! ### Reads -/

@[simp] theorem Mem.length_read (m : Mem) (a n : Nat) : (m.read a n).length = n := by simp [Mem.read]

theorem Mem.getElem_read (m : Mem) (a n i : Nat) (h : i < (m.read a n).length) :
    (m.read a n)[i] = m.byte (a + i) := by simp [Mem.read]

/-- Reading back what was written. -/
theorem Mem.read_write_self (m : Mem) (a : Nat) (bs : List Byte) : (m.write a bs).read a bs.length = bs := by
  apply List.ext_getElem (by simp)
  intro i h₁ h₂
  rw [Mem.getElem_read, Mem.byte_write_of_mem m a bs i h₂]

/-- A write leaves a range it does not touch alone. -/
theorem Mem.read_write_disjoint (m : Mem) (a : Nat) (bs : List Byte) (x n : Nat)
    (h : x + n ≤ a ∨ a + bs.length ≤ x) : (m.write a bs).read x n = m.read x n := by
  apply List.ext_getElem (by simp)
  intro i h₁ h₂
  rw [Mem.length_read] at h₁
  rw [Mem.getElem_read, Mem.getElem_read, Mem.byte_write_of_notin _ _ _ _ (by omega)]

/-! ### The canonical form -/

theorem Mem.le_of_mem_cells (bs : List Byte) (a : Nat) (c : Host.Cell) (h : c ∈ Mem.cells a bs) :
    a ≤ c.1 ∧ c.1 < a + bs.length := by
  induction bs generalizing a with
  | nil => simp at h
  | cons b bs ih =>
    rw [Mem.cells, List.mem_cons] at h
    rcases h with rfl | h
    · simp
    · have := ih (a + 1) h
      simp only [List.length_cons]
      omega

theorem Mem.wf_cells (bs : List Byte) (a : Nat) : (Mem.cells a bs).wf := by
  induction bs generalizing a with
  | nil => exact List.Pairwise.nil
  | cons b bs ih =>
    rw [Mem.cells]
    refine List.Pairwise.cons ?_ (ih (a + 1))
    intro c hc
    have := Mem.le_of_mem_cells bs (a + 1) c hc
    show a < c.1
    omega

/-- Every write keeps the canonical form. -/
theorem Mem.wf_write (m : Mem) (a : Nat) (bs : List Byte) (h : m.wf) : (m.write a bs).wf := by
  rw [Mem.write, Mem.wf, List.pairwise_append, List.pairwise_append]
  refine ⟨⟨List.Pairwise.filter _ h, Mem.wf_cells bs a, ?_⟩, List.Pairwise.filter _ h, ?_⟩
  · intro x hx y hy
    have := Mem.le_of_mem_cells bs a y hy
    simp only [List.mem_filter, decide_eq_true_eq] at hx
    omega
  · intro x hx y hy
    simp only [List.mem_filter, decide_eq_true_eq, List.mem_append] at hx hy
    rcases hx with hx | hx
    · omega
    · have := Mem.le_of_mem_cells bs a x hx
      omega

/-- A write puts no byte outside the written addresses. -/
theorem Mem.mem_write (m : Mem) (a : Nat) (bs : List Byte) (c : Host.Cell) (h : c ∈ m.write a bs) :
    c ∈ m ∨ (a ≤ c.1 ∧ c.1 < a + bs.length) := by
  simp only [Mem.write, List.mem_append, List.mem_filter] at h
  rcases h with (h | h) | h
  · exact .inl h.1
  · exact .inr (Mem.le_of_mem_cells bs a c h)
  · exact .inl h.1

end Sys2Proof.Machine
end

