-- ==== Sys2Proof/Laws/State.lean ====
section
/-! SUPPORT. What each named update of the state does to each field: one lemma a field and update, true by rfl. -/

namespace Sys2Proof.Machine

section
variable (s : State)

/-! ### `State.setReg` -/

@[simp] theorem State.setReg_params (r : RegNum) (v : Word) : (s.setReg r v).params = s.params := rfl
@[simp] theorem State.setReg_regs (r : RegNum) (v : Word) : (s.setReg r v).regs = s.regs.set r.val v r.isLt := rfl
@[simp] theorem State.setReg_rngSrc (r : RegNum) (v : Word) : (s.setReg r v).rngSrc = s.rngSrc := rfl
@[simp] theorem State.setReg_irqEn (r : RegNum) (v : Word) : (s.setReg r v).irqEn = s.irqEn := rfl
@[simp] theorem State.setReg_busy (r : RegNum) (v : Word) : (s.setReg r v).busy = s.busy := rfl
@[simp] theorem State.setReg_done (r : RegNum) (v : Word) : (s.setReg r v).done = s.done := rfl
@[simp] theorem State.setReg_err (r : RegNum) (v : Word) : (s.setReg r v).err = s.err := rfl
@[simp] theorem State.setReg_warn (r : RegNum) (v : Word) : (s.setReg r v).warn = s.warn := rfl
@[simp] theorem State.setReg_herr (r : RegNum) (v : Word) : (s.setReg r v).herr = s.herr := rfl
@[simp] theorem State.setReg_errCode (r : RegNum) (v : Word) : (s.setReg r v).errCode = s.errCode := rfl
@[simp] theorem State.setReg_fsm (r : RegNum) (v : Word) : (s.setReg r v).fsm = s.fsm := rfl
@[simp] theorem State.setReg_cmd (r : RegNum) (v : Word) : (s.setReg r v).cmd = s.cmd := rfl
@[simp] theorem State.setReg_errInfo (r : RegNum) (v : Word) : (s.setReg r v).errInfo = s.errInfo := rfl
@[simp] theorem State.setReg_rngPtr (r : RegNum) (v : Word) : (s.setReg r v).rngPtr = s.rngPtr := rfl
@[simp] theorem State.setReg_rngCnt (r : RegNum) (v : Word) : (s.setReg r v).rngCnt = s.rngCnt := rfl
@[simp] theorem State.setReg_dmem (r : RegNum) (v : Word) : (s.setReg r v).dmem = s.dmem := rfl
@[simp] theorem State.setReg_keyBuf (r : RegNum) (v : Word) : (s.setReg r v).keyBuf = s.keyBuf := rfl
@[simp] theorem State.setReg_ivBuf (r : RegNum) (v : Word) : (s.setReg r v).ivBuf = s.ivBuf := rfl
@[simp] theorem State.setReg_coefBuf (r : RegNum) (v : Word) : (s.setReg r v).coefBuf = s.coefBuf := rfl
@[simp] theorem State.setReg_shareBuf (r : RegNum) (v : Word) : (s.setReg r v).shareBuf = s.shareBuf := rfl
@[simp] theorem State.setReg_rstN (r : RegNum) (v : Word) : (s.setReg r v).rstN = s.rstN := rfl
@[simp] theorem State.setReg_entropy (r : RegNum) (v : Word) : (s.setReg r v).entropy = s.entropy := rfl
@[simp] theorem State.setReg_pending (r : RegNum) (v : Word) : (s.setReg r v).pending = s.pending := rfl
@[simp] theorem State.setReg_rdata (r : RegNum) (v : Word) : (s.setReg r v).rdata = s.rdata := rfl
@[simp] theorem State.setReg_freeCount (r : RegNum) (v : Word) : (s.setReg r v).freeCount = s.freeCount := rfl
@[simp] theorem State.setReg_memRead (r : RegNum) (v : Word) (x k : Nat) : (s.setReg r v).memRead x k = s.memRead x k := rfl

/-! ### `State.setByte` -/

@[simp] theorem State.setByte_params (r : RegNum) (b : Byte) : (s.setByte r b).params = s.params := rfl
@[simp] theorem State.setByte_regs (r : RegNum) (b : Byte) : (s.setByte r b).regs = s.regs.set r.val (b.setWidth 32) r.isLt := rfl
@[simp] theorem State.setByte_rngSrc (r : RegNum) (b : Byte) : (s.setByte r b).rngSrc = s.rngSrc := rfl
@[simp] theorem State.setByte_irqEn (r : RegNum) (b : Byte) : (s.setByte r b).irqEn = s.irqEn := rfl
@[simp] theorem State.setByte_busy (r : RegNum) (b : Byte) : (s.setByte r b).busy = s.busy := rfl
@[simp] theorem State.setByte_done (r : RegNum) (b : Byte) : (s.setByte r b).done = s.done := rfl
@[simp] theorem State.setByte_err (r : RegNum) (b : Byte) : (s.setByte r b).err = s.err := rfl
@[simp] theorem State.setByte_warn (r : RegNum) (b : Byte) : (s.setByte r b).warn = s.warn := rfl
@[simp] theorem State.setByte_herr (r : RegNum) (b : Byte) : (s.setByte r b).herr = s.herr := rfl
@[simp] theorem State.setByte_errCode (r : RegNum) (b : Byte) : (s.setByte r b).errCode = s.errCode := rfl
@[simp] theorem State.setByte_fsm (r : RegNum) (b : Byte) : (s.setByte r b).fsm = s.fsm := rfl
@[simp] theorem State.setByte_cmd (r : RegNum) (b : Byte) : (s.setByte r b).cmd = s.cmd := rfl
@[simp] theorem State.setByte_errInfo (r : RegNum) (b : Byte) : (s.setByte r b).errInfo = s.errInfo := rfl
@[simp] theorem State.setByte_rngPtr (r : RegNum) (b : Byte) : (s.setByte r b).rngPtr = s.rngPtr := rfl
@[simp] theorem State.setByte_rngCnt (r : RegNum) (b : Byte) : (s.setByte r b).rngCnt = s.rngCnt := rfl
@[simp] theorem State.setByte_dmem (r : RegNum) (b : Byte) : (s.setByte r b).dmem = s.dmem := rfl
@[simp] theorem State.setByte_keyBuf (r : RegNum) (b : Byte) : (s.setByte r b).keyBuf = s.keyBuf := rfl
@[simp] theorem State.setByte_ivBuf (r : RegNum) (b : Byte) : (s.setByte r b).ivBuf = s.ivBuf := rfl
@[simp] theorem State.setByte_coefBuf (r : RegNum) (b : Byte) : (s.setByte r b).coefBuf = s.coefBuf := rfl
@[simp] theorem State.setByte_shareBuf (r : RegNum) (b : Byte) : (s.setByte r b).shareBuf = s.shareBuf := rfl
@[simp] theorem State.setByte_rstN (r : RegNum) (b : Byte) : (s.setByte r b).rstN = s.rstN := rfl
@[simp] theorem State.setByte_entropy (r : RegNum) (b : Byte) : (s.setByte r b).entropy = s.entropy := rfl
@[simp] theorem State.setByte_pending (r : RegNum) (b : Byte) : (s.setByte r b).pending = s.pending := rfl
@[simp] theorem State.setByte_rdata (r : RegNum) (b : Byte) : (s.setByte r b).rdata = s.rdata := rfl
@[simp] theorem State.setByte_freeCount (r : RegNum) (b : Byte) : (s.setByte r b).freeCount = s.freeCount := rfl
@[simp] theorem State.setByte_memRead (r : RegNum) (b : Byte) (x k : Nat) : (s.setByte r b).memRead x k = s.memRead x k := rfl

/-! ### `State.memWrite` -/

@[simp] theorem State.memWrite_params (a : Nat) (bs : List Byte) : (s.memWrite a bs).params = s.params := rfl
@[simp] theorem State.memWrite_regs (a : Nat) (bs : List Byte) : (s.memWrite a bs).regs = s.regs := rfl
@[simp] theorem State.memWrite_rngSrc (a : Nat) (bs : List Byte) : (s.memWrite a bs).rngSrc = s.rngSrc := rfl
@[simp] theorem State.memWrite_irqEn (a : Nat) (bs : List Byte) : (s.memWrite a bs).irqEn = s.irqEn := rfl
@[simp] theorem State.memWrite_busy (a : Nat) (bs : List Byte) : (s.memWrite a bs).busy = s.busy := rfl
@[simp] theorem State.memWrite_done (a : Nat) (bs : List Byte) : (s.memWrite a bs).done = s.done := rfl
@[simp] theorem State.memWrite_err (a : Nat) (bs : List Byte) : (s.memWrite a bs).err = s.err := rfl
@[simp] theorem State.memWrite_warn (a : Nat) (bs : List Byte) : (s.memWrite a bs).warn = s.warn := rfl
@[simp] theorem State.memWrite_herr (a : Nat) (bs : List Byte) : (s.memWrite a bs).herr = s.herr := rfl
@[simp] theorem State.memWrite_errCode (a : Nat) (bs : List Byte) : (s.memWrite a bs).errCode = s.errCode := rfl
@[simp] theorem State.memWrite_fsm (a : Nat) (bs : List Byte) : (s.memWrite a bs).fsm = s.fsm := rfl
@[simp] theorem State.memWrite_cmd (a : Nat) (bs : List Byte) : (s.memWrite a bs).cmd = s.cmd := rfl
@[simp] theorem State.memWrite_errInfo (a : Nat) (bs : List Byte) : (s.memWrite a bs).errInfo = s.errInfo := rfl
@[simp] theorem State.memWrite_rngPtr (a : Nat) (bs : List Byte) : (s.memWrite a bs).rngPtr = s.rngPtr := rfl
@[simp] theorem State.memWrite_rngCnt (a : Nat) (bs : List Byte) : (s.memWrite a bs).rngCnt = s.rngCnt := rfl
@[simp] theorem State.memWrite_dmem (a : Nat) (bs : List Byte) : (s.memWrite a bs).dmem = s.dmem.write a bs := rfl
@[simp] theorem State.memWrite_keyBuf (a : Nat) (bs : List Byte) : (s.memWrite a bs).keyBuf = s.keyBuf := rfl
@[simp] theorem State.memWrite_ivBuf (a : Nat) (bs : List Byte) : (s.memWrite a bs).ivBuf = s.ivBuf := rfl
@[simp] theorem State.memWrite_coefBuf (a : Nat) (bs : List Byte) : (s.memWrite a bs).coefBuf = s.coefBuf := rfl
@[simp] theorem State.memWrite_shareBuf (a : Nat) (bs : List Byte) : (s.memWrite a bs).shareBuf = s.shareBuf := rfl
@[simp] theorem State.memWrite_rstN (a : Nat) (bs : List Byte) : (s.memWrite a bs).rstN = s.rstN := rfl
@[simp] theorem State.memWrite_entropy (a : Nat) (bs : List Byte) : (s.memWrite a bs).entropy = s.entropy := rfl
@[simp] theorem State.memWrite_pending (a : Nat) (bs : List Byte) : (s.memWrite a bs).pending = s.pending := rfl
@[simp] theorem State.memWrite_rdata (a : Nat) (bs : List Byte) : (s.memWrite a bs).rdata = s.rdata := rfl
@[simp] theorem State.memWrite_freeCount (a : Nat) (bs : List Byte) : (s.memWrite a bs).freeCount = s.freeCount := rfl
@[simp] theorem State.memWrite_reg (a : Nat) (bs : List Byte) (q : RegNum) : (s.memWrite a bs).reg q = s.reg q := rfl
@[simp] theorem State.memWrite_arg (a : Nat) (bs : List Byte) (q : RegNum) : (s.memWrite a bs).arg q = s.arg q := rfl
@[simp] theorem State.memWrite_byteOp (a : Nat) (bs : List Byte) (q : RegNum) : (s.memWrite a bs).byteOp q = s.byteOp q := rfl

/-! ### `State.start` -/

@[simp] theorem State.start_params : (s.start).params = s.params := rfl
@[simp] theorem State.start_regs : (s.start).regs = s.regs := rfl
@[simp] theorem State.start_rngSrc : (s.start).rngSrc = s.rngSrc := rfl
@[simp] theorem State.start_irqEn : (s.start).irqEn = s.irqEn := rfl
@[simp] theorem State.start_busy : (s.start).busy = true := rfl
@[simp] theorem State.start_done : (s.start).done = false := rfl
@[simp] theorem State.start_err : (s.start).err = false := rfl
@[simp] theorem State.start_warn : (s.start).warn = false := rfl
@[simp] theorem State.start_herr : (s.start).herr = s.herr := rfl
@[simp] theorem State.start_errCode : (s.start).errCode = 0 := rfl
@[simp] theorem State.start_fsm : (s.start).fsm = .dispatch := rfl
@[simp] theorem State.start_cmd : (s.start).cmd = s.cmd := rfl
@[simp] theorem State.start_errInfo : (s.start).errInfo = 0 := rfl
@[simp] theorem State.start_rngPtr : (s.start).rngPtr = s.rngPtr := rfl
@[simp] theorem State.start_rngCnt : (s.start).rngCnt = s.rngCnt := rfl
@[simp] theorem State.start_dmem : (s.start).dmem = s.dmem := rfl
@[simp] theorem State.start_keyBuf : (s.start).keyBuf = s.keyBuf := rfl
@[simp] theorem State.start_ivBuf : (s.start).ivBuf = s.ivBuf := rfl
@[simp] theorem State.start_coefBuf : (s.start).coefBuf = s.coefBuf := rfl
@[simp] theorem State.start_shareBuf : (s.start).shareBuf = s.shareBuf := rfl
@[simp] theorem State.start_rstN : (s.start).rstN = s.rstN := rfl
@[simp] theorem State.start_entropy : (s.start).entropy = s.entropy := rfl
@[simp] theorem State.start_pending : (s.start).pending = s.pending := rfl
@[simp] theorem State.start_rdata : (s.start).rdata = s.rdata := rfl
@[simp] theorem State.start_freeCount : (s.start).freeCount = s.freeCount := rfl
@[simp] theorem State.start_reg (q : RegNum) : (s.start).reg q = s.reg q := rfl
@[simp] theorem State.start_arg (q : RegNum) : (s.start).arg q = s.arg q := rfl
@[simp] theorem State.start_byteOp (q : RegNum) : (s.start).byteOp q = s.byteOp q := rfl
@[simp] theorem State.start_memRead (x k : Nat) : (s.start).memRead x k = s.memRead x k := rfl

/-! ### `State.scrub` -/

@[simp] theorem State.scrub_params : (s.scrub).params = s.params := rfl
@[simp] theorem State.scrub_regs : (s.scrub).regs = s.regs := rfl
@[simp] theorem State.scrub_rngSrc : (s.scrub).rngSrc = s.rngSrc := rfl
@[simp] theorem State.scrub_irqEn : (s.scrub).irqEn = s.irqEn := rfl
@[simp] theorem State.scrub_busy : (s.scrub).busy = s.busy := rfl
@[simp] theorem State.scrub_done : (s.scrub).done = s.done := rfl
@[simp] theorem State.scrub_err : (s.scrub).err = s.err := rfl
@[simp] theorem State.scrub_warn : (s.scrub).warn = s.warn := rfl
@[simp] theorem State.scrub_herr : (s.scrub).herr = s.herr := rfl
@[simp] theorem State.scrub_errCode : (s.scrub).errCode = s.errCode := rfl
@[simp] theorem State.scrub_fsm : (s.scrub).fsm = s.fsm := rfl
@[simp] theorem State.scrub_cmd : (s.scrub).cmd = s.cmd := rfl
@[simp] theorem State.scrub_errInfo : (s.scrub).errInfo = s.errInfo := rfl
@[simp] theorem State.scrub_rngPtr : (s.scrub).rngPtr = s.rngPtr := rfl
@[simp] theorem State.scrub_rngCnt : (s.scrub).rngCnt = s.rngCnt := rfl
@[simp] theorem State.scrub_dmem : (s.scrub).dmem = s.dmem := rfl
@[simp] theorem State.scrub_keyBuf : (s.scrub).keyBuf = [] := rfl
@[simp] theorem State.scrub_ivBuf : (s.scrub).ivBuf = [] := rfl
@[simp] theorem State.scrub_coefBuf : (s.scrub).coefBuf = [] := rfl
@[simp] theorem State.scrub_shareBuf : (s.scrub).shareBuf = [] := rfl
@[simp] theorem State.scrub_rstN : (s.scrub).rstN = s.rstN := rfl
@[simp] theorem State.scrub_entropy : (s.scrub).entropy = s.entropy := rfl
@[simp] theorem State.scrub_pending : (s.scrub).pending = s.pending := rfl
@[simp] theorem State.scrub_rdata : (s.scrub).rdata = s.rdata := rfl
@[simp] theorem State.scrub_freeCount : (s.scrub).freeCount = s.freeCount := rfl
@[simp] theorem State.scrub_reg (q : RegNum) : (s.scrub).reg q = s.reg q := rfl
@[simp] theorem State.scrub_arg (q : RegNum) : (s.scrub).arg q = s.arg q := rfl
@[simp] theorem State.scrub_byteOp (q : RegNum) : (s.scrub).byteOp q = s.byteOp q := rfl
@[simp] theorem State.scrub_memRead (x k : Nat) : (s.scrub).memRead x k = s.memRead x k := rfl

/-! ### `State.complete` -/

@[simp] theorem State.complete_params : (s.complete).params = s.params := rfl
@[simp] theorem State.complete_regs : (s.complete).regs = s.regs := rfl
@[simp] theorem State.complete_rngSrc : (s.complete).rngSrc = s.rngSrc := rfl
@[simp] theorem State.complete_irqEn : (s.complete).irqEn = s.irqEn := rfl
@[simp] theorem State.complete_busy : (s.complete).busy = false := rfl
@[simp] theorem State.complete_done : (s.complete).done = s.done := rfl
@[simp] theorem State.complete_err : (s.complete).err = s.err := rfl
@[simp] theorem State.complete_warn : (s.complete).warn = s.warn := rfl
@[simp] theorem State.complete_herr : (s.complete).herr = s.herr := rfl
@[simp] theorem State.complete_errCode : (s.complete).errCode = s.errCode := rfl
@[simp] theorem State.complete_fsm : (s.complete).fsm = .idle := rfl
@[simp] theorem State.complete_cmd : (s.complete).cmd = s.cmd := rfl
@[simp] theorem State.complete_errInfo : (s.complete).errInfo = s.errInfo := rfl
@[simp] theorem State.complete_rngPtr : (s.complete).rngPtr = s.rngPtr := rfl
@[simp] theorem State.complete_rngCnt : (s.complete).rngCnt = s.rngCnt := rfl
@[simp] theorem State.complete_dmem : (s.complete).dmem = s.dmem := rfl
@[simp] theorem State.complete_keyBuf : (s.complete).keyBuf = [] := rfl
@[simp] theorem State.complete_ivBuf : (s.complete).ivBuf = [] := rfl
@[simp] theorem State.complete_coefBuf : (s.complete).coefBuf = [] := rfl
@[simp] theorem State.complete_shareBuf : (s.complete).shareBuf = [] := rfl
@[simp] theorem State.complete_rstN : (s.complete).rstN = s.rstN := rfl
@[simp] theorem State.complete_entropy : (s.complete).entropy = s.entropy := rfl
@[simp] theorem State.complete_pending : (s.complete).pending = s.pending := rfl
@[simp] theorem State.complete_rdata : (s.complete).rdata = s.rdata := rfl
@[simp] theorem State.complete_freeCount : (s.complete).freeCount = s.freeCount := rfl
@[simp] theorem State.complete_reg (q : RegNum) : (s.complete).reg q = s.reg q := rfl
@[simp] theorem State.complete_arg (q : RegNum) : (s.complete).arg q = s.arg q := rfl
@[simp] theorem State.complete_byteOp (q : RegNum) : (s.complete).byteOp q = s.byteOp q := rfl
@[simp] theorem State.complete_memRead (x k : Nat) : (s.complete).memRead x k = s.memRead x k := rfl

/-! ### `State.succeed` -/

@[simp] theorem State.succeed_params : (s.succeed).params = s.params := rfl
@[simp] theorem State.succeed_regs : (s.succeed).regs = s.regs := rfl
@[simp] theorem State.succeed_rngSrc : (s.succeed).rngSrc = s.rngSrc := rfl
@[simp] theorem State.succeed_irqEn : (s.succeed).irqEn = s.irqEn := rfl
@[simp] theorem State.succeed_busy : (s.succeed).busy = false := rfl
@[simp] theorem State.succeed_done : (s.succeed).done = true := rfl
@[simp] theorem State.succeed_err : (s.succeed).err = s.err := rfl
@[simp] theorem State.succeed_warn : (s.succeed).warn = s.warn := rfl
@[simp] theorem State.succeed_herr : (s.succeed).herr = s.herr := rfl
@[simp] theorem State.succeed_errCode : (s.succeed).errCode = s.errCode := rfl
@[simp] theorem State.succeed_fsm : (s.succeed).fsm = .idle := rfl
@[simp] theorem State.succeed_cmd : (s.succeed).cmd = s.cmd := rfl
@[simp] theorem State.succeed_errInfo : (s.succeed).errInfo = s.errInfo := rfl
@[simp] theorem State.succeed_rngPtr : (s.succeed).rngPtr = s.rngPtr := rfl
@[simp] theorem State.succeed_rngCnt : (s.succeed).rngCnt = s.rngCnt := rfl
@[simp] theorem State.succeed_dmem : (s.succeed).dmem = s.dmem := rfl
@[simp] theorem State.succeed_keyBuf : (s.succeed).keyBuf = [] := rfl
@[simp] theorem State.succeed_ivBuf : (s.succeed).ivBuf = [] := rfl
@[simp] theorem State.succeed_coefBuf : (s.succeed).coefBuf = [] := rfl
@[simp] theorem State.succeed_shareBuf : (s.succeed).shareBuf = [] := rfl
@[simp] theorem State.succeed_rstN : (s.succeed).rstN = s.rstN := rfl
@[simp] theorem State.succeed_entropy : (s.succeed).entropy = s.entropy := rfl
@[simp] theorem State.succeed_pending : (s.succeed).pending = s.pending := rfl
@[simp] theorem State.succeed_rdata : (s.succeed).rdata = s.rdata := rfl
@[simp] theorem State.succeed_freeCount : (s.succeed).freeCount = s.freeCount := rfl
@[simp] theorem State.succeed_reg (q : RegNum) : (s.succeed).reg q = s.reg q := rfl
@[simp] theorem State.succeed_arg (q : RegNum) : (s.succeed).arg q = s.arg q := rfl
@[simp] theorem State.succeed_byteOp (q : RegNum) : (s.succeed).byteOp q = s.byteOp q := rfl
@[simp] theorem State.succeed_memRead (x k : Nat) : (s.succeed).memRead x k = s.memRead x k := rfl

/-! ### `State.succeedWith` -/

@[simp] theorem State.succeedWith_params (n : Nat) : (s.succeedWith n).params = s.params := rfl
@[simp] theorem State.succeedWith_regs (n : Nat) : (s.succeedWith n).regs = s.regs.set 0 (BitVec.ofNat 32 n) := rfl
@[simp] theorem State.succeedWith_rngSrc (n : Nat) : (s.succeedWith n).rngSrc = s.rngSrc := rfl
@[simp] theorem State.succeedWith_irqEn (n : Nat) : (s.succeedWith n).irqEn = s.irqEn := rfl
@[simp] theorem State.succeedWith_busy (n : Nat) : (s.succeedWith n).busy = false := rfl
@[simp] theorem State.succeedWith_done (n : Nat) : (s.succeedWith n).done = true := rfl
@[simp] theorem State.succeedWith_err (n : Nat) : (s.succeedWith n).err = s.err := rfl
@[simp] theorem State.succeedWith_warn (n : Nat) : (s.succeedWith n).warn = s.warn := rfl
@[simp] theorem State.succeedWith_herr (n : Nat) : (s.succeedWith n).herr = s.herr := rfl
@[simp] theorem State.succeedWith_errCode (n : Nat) : (s.succeedWith n).errCode = s.errCode := rfl
@[simp] theorem State.succeedWith_fsm (n : Nat) : (s.succeedWith n).fsm = .idle := rfl
@[simp] theorem State.succeedWith_cmd (n : Nat) : (s.succeedWith n).cmd = s.cmd := rfl
@[simp] theorem State.succeedWith_errInfo (n : Nat) : (s.succeedWith n).errInfo = s.errInfo := rfl
@[simp] theorem State.succeedWith_rngPtr (n : Nat) : (s.succeedWith n).rngPtr = s.rngPtr := rfl
@[simp] theorem State.succeedWith_rngCnt (n : Nat) : (s.succeedWith n).rngCnt = s.rngCnt := rfl
@[simp] theorem State.succeedWith_dmem (n : Nat) : (s.succeedWith n).dmem = s.dmem := rfl
@[simp] theorem State.succeedWith_keyBuf (n : Nat) : (s.succeedWith n).keyBuf = [] := rfl
@[simp] theorem State.succeedWith_ivBuf (n : Nat) : (s.succeedWith n).ivBuf = [] := rfl
@[simp] theorem State.succeedWith_coefBuf (n : Nat) : (s.succeedWith n).coefBuf = [] := rfl
@[simp] theorem State.succeedWith_shareBuf (n : Nat) : (s.succeedWith n).shareBuf = [] := rfl
@[simp] theorem State.succeedWith_rstN (n : Nat) : (s.succeedWith n).rstN = s.rstN := rfl
@[simp] theorem State.succeedWith_entropy (n : Nat) : (s.succeedWith n).entropy = s.entropy := rfl
@[simp] theorem State.succeedWith_pending (n : Nat) : (s.succeedWith n).pending = s.pending := rfl
@[simp] theorem State.succeedWith_rdata (n : Nat) : (s.succeedWith n).rdata = s.rdata := rfl
@[simp] theorem State.succeedWith_freeCount (n : Nat) : (s.succeedWith n).freeCount = s.freeCount := rfl
@[simp] theorem State.succeedWith_memRead (n : Nat) (x k : Nat) : (s.succeedWith n).memRead x k = s.memRead x k := rfl

/-! ### `State.succeedWarn` -/

@[simp] theorem State.succeedWarn_params (n : Nat) (w : Bool) : (s.succeedWarn n w).params = s.params := rfl
@[simp] theorem State.succeedWarn_regs (n : Nat) (w : Bool) : (s.succeedWarn n w).regs = s.regs.set 0 (BitVec.ofNat 32 n) := rfl
@[simp] theorem State.succeedWarn_rngSrc (n : Nat) (w : Bool) : (s.succeedWarn n w).rngSrc = s.rngSrc := rfl
@[simp] theorem State.succeedWarn_irqEn (n : Nat) (w : Bool) : (s.succeedWarn n w).irqEn = s.irqEn := rfl
@[simp] theorem State.succeedWarn_busy (n : Nat) (w : Bool) : (s.succeedWarn n w).busy = false := rfl
@[simp] theorem State.succeedWarn_done (n : Nat) (w : Bool) : (s.succeedWarn n w).done = true := rfl
@[simp] theorem State.succeedWarn_err (n : Nat) (w : Bool) : (s.succeedWarn n w).err = s.err := rfl
@[simp] theorem State.succeedWarn_warn (n : Nat) (w : Bool) : (s.succeedWarn n w).warn = (s.warn || w) := rfl
@[simp] theorem State.succeedWarn_herr (n : Nat) (w : Bool) : (s.succeedWarn n w).herr = s.herr := rfl
@[simp] theorem State.succeedWarn_errCode (n : Nat) (w : Bool) : (s.succeedWarn n w).errCode = s.errCode := rfl
@[simp] theorem State.succeedWarn_fsm (n : Nat) (w : Bool) : (s.succeedWarn n w).fsm = .idle := rfl
@[simp] theorem State.succeedWarn_cmd (n : Nat) (w : Bool) : (s.succeedWarn n w).cmd = s.cmd := rfl
@[simp] theorem State.succeedWarn_errInfo (n : Nat) (w : Bool) : (s.succeedWarn n w).errInfo = s.errInfo := rfl
@[simp] theorem State.succeedWarn_rngPtr (n : Nat) (w : Bool) : (s.succeedWarn n w).rngPtr = s.rngPtr := rfl
@[simp] theorem State.succeedWarn_rngCnt (n : Nat) (w : Bool) : (s.succeedWarn n w).rngCnt = s.rngCnt := rfl
@[simp] theorem State.succeedWarn_dmem (n : Nat) (w : Bool) : (s.succeedWarn n w).dmem = s.dmem := rfl
@[simp] theorem State.succeedWarn_keyBuf (n : Nat) (w : Bool) : (s.succeedWarn n w).keyBuf = [] := rfl
@[simp] theorem State.succeedWarn_ivBuf (n : Nat) (w : Bool) : (s.succeedWarn n w).ivBuf = [] := rfl
@[simp] theorem State.succeedWarn_coefBuf (n : Nat) (w : Bool) : (s.succeedWarn n w).coefBuf = [] := rfl
@[simp] theorem State.succeedWarn_shareBuf (n : Nat) (w : Bool) : (s.succeedWarn n w).shareBuf = [] := rfl
@[simp] theorem State.succeedWarn_rstN (n : Nat) (w : Bool) : (s.succeedWarn n w).rstN = s.rstN := rfl
@[simp] theorem State.succeedWarn_entropy (n : Nat) (w : Bool) : (s.succeedWarn n w).entropy = s.entropy := rfl
@[simp] theorem State.succeedWarn_pending (n : Nat) (w : Bool) : (s.succeedWarn n w).pending = s.pending := rfl
@[simp] theorem State.succeedWarn_rdata (n : Nat) (w : Bool) : (s.succeedWarn n w).rdata = s.rdata := rfl
@[simp] theorem State.succeedWarn_freeCount (n : Nat) (w : Bool) : (s.succeedWarn n w).freeCount = s.freeCount := rfl
@[simp] theorem State.succeedWarn_memRead (n : Nat) (w : Bool) (x k : Nat) : (s.succeedWarn n w).memRead x k = s.memRead x k := rfl

/-! ### `State.fail` -/

@[simp] theorem State.fail_params (e : CmdError) : (s.fail e).params = s.params := rfl
@[simp] theorem State.fail_regs (e : CmdError) : (s.fail e).regs = s.regs := rfl
@[simp] theorem State.fail_rngSrc (e : CmdError) : (s.fail e).rngSrc = s.rngSrc := rfl
@[simp] theorem State.fail_irqEn (e : CmdError) : (s.fail e).irqEn = s.irqEn := rfl
@[simp] theorem State.fail_busy (e : CmdError) : (s.fail e).busy = false := rfl
@[simp] theorem State.fail_done (e : CmdError) : (s.fail e).done = s.done := rfl
@[simp] theorem State.fail_err (e : CmdError) : (s.fail e).err = true := rfl
@[simp] theorem State.fail_warn (e : CmdError) : (s.fail e).warn = s.warn := rfl
@[simp] theorem State.fail_herr (e : CmdError) : (s.fail e).herr = s.herr := rfl
@[simp] theorem State.fail_errCode (e : CmdError) : (s.fail e).errCode = e.code := rfl
@[simp] theorem State.fail_fsm (e : CmdError) : (s.fail e).fsm = .idle := rfl
@[simp] theorem State.fail_cmd (e : CmdError) : (s.fail e).cmd = s.cmd := rfl
@[simp] theorem State.fail_errInfo (e : CmdError) : (s.fail e).errInfo = e.info := rfl
@[simp] theorem State.fail_rngPtr (e : CmdError) : (s.fail e).rngPtr = s.rngPtr := rfl
@[simp] theorem State.fail_rngCnt (e : CmdError) : (s.fail e).rngCnt = s.rngCnt := rfl
@[simp] theorem State.fail_dmem (e : CmdError) : (s.fail e).dmem = s.dmem := rfl
@[simp] theorem State.fail_keyBuf (e : CmdError) : (s.fail e).keyBuf = [] := rfl
@[simp] theorem State.fail_ivBuf (e : CmdError) : (s.fail e).ivBuf = [] := rfl
@[simp] theorem State.fail_coefBuf (e : CmdError) : (s.fail e).coefBuf = [] := rfl
@[simp] theorem State.fail_shareBuf (e : CmdError) : (s.fail e).shareBuf = [] := rfl
@[simp] theorem State.fail_rstN (e : CmdError) : (s.fail e).rstN = s.rstN := rfl
@[simp] theorem State.fail_entropy (e : CmdError) : (s.fail e).entropy = s.entropy := rfl
@[simp] theorem State.fail_pending (e : CmdError) : (s.fail e).pending = s.pending := rfl
@[simp] theorem State.fail_rdata (e : CmdError) : (s.fail e).rdata = s.rdata := rfl
@[simp] theorem State.fail_freeCount (e : CmdError) : (s.fail e).freeCount = s.freeCount := rfl
@[simp] theorem State.fail_reg (e : CmdError) (q : RegNum) : (s.fail e).reg q = s.reg q := rfl
@[simp] theorem State.fail_arg (e : CmdError) (q : RegNum) : (s.fail e).arg q = s.arg q := rfl
@[simp] theorem State.fail_byteOp (e : CmdError) (q : RegNum) : (s.fail e).byteOp q = s.byteOp q := rfl
@[simp] theorem State.fail_memRead (e : CmdError) (x k : Nat) : (s.fail e).memRead x k = s.memRead x k := rfl

/-! ### `State.afterDraws` -/

@[simp] theorem State.afterDraws_params (n : Nat) : (s.afterDraws n).params = s.params := rfl
@[simp] theorem State.afterDraws_regs (n : Nat) : (s.afterDraws n).regs = s.regs := rfl
@[simp] theorem State.afterDraws_rngSrc (n : Nat) : (s.afterDraws n).rngSrc = s.rngSrc := rfl
@[simp] theorem State.afterDraws_irqEn (n : Nat) : (s.afterDraws n).irqEn = s.irqEn := rfl
@[simp] theorem State.afterDraws_busy (n : Nat) : (s.afterDraws n).busy = s.busy := rfl
@[simp] theorem State.afterDraws_done (n : Nat) : (s.afterDraws n).done = s.done := rfl
@[simp] theorem State.afterDraws_err (n : Nat) : (s.afterDraws n).err = s.err := rfl
@[simp] theorem State.afterDraws_warn (n : Nat) : (s.afterDraws n).warn = s.warn := rfl
@[simp] theorem State.afterDraws_herr (n : Nat) : (s.afterDraws n).herr = s.herr := rfl
@[simp] theorem State.afterDraws_errCode (n : Nat) : (s.afterDraws n).errCode = s.errCode := rfl
@[simp] theorem State.afterDraws_fsm (n : Nat) : (s.afterDraws n).fsm = s.fsm := rfl
@[simp] theorem State.afterDraws_cmd (n : Nat) : (s.afterDraws n).cmd = s.cmd := rfl
@[simp] theorem State.afterDraws_errInfo (n : Nat) : (s.afterDraws n).errInfo = s.errInfo := rfl
@[simp] theorem State.afterDraws_rngPtr (n : Nat) : (s.afterDraws n).rngPtr = (if s.rngSrc then s.rngPtr + BitVec.ofNat 32 n else s.rngPtr) := rfl
@[simp] theorem State.afterDraws_rngCnt (n : Nat) : (s.afterDraws n).rngCnt = s.rngCnt + BitVec.ofNat 32 n := rfl
@[simp] theorem State.afterDraws_dmem (n : Nat) : (s.afterDraws n).dmem = s.dmem := rfl
@[simp] theorem State.afterDraws_keyBuf (n : Nat) : (s.afterDraws n).keyBuf = s.keyBuf := rfl
@[simp] theorem State.afterDraws_ivBuf (n : Nat) : (s.afterDraws n).ivBuf = s.ivBuf := rfl
@[simp] theorem State.afterDraws_coefBuf (n : Nat) : (s.afterDraws n).coefBuf = s.coefBuf := rfl
@[simp] theorem State.afterDraws_shareBuf (n : Nat) : (s.afterDraws n).shareBuf = s.shareBuf := rfl
@[simp] theorem State.afterDraws_rstN (n : Nat) : (s.afterDraws n).rstN = s.rstN := rfl
@[simp] theorem State.afterDraws_entropy (n : Nat) : (s.afterDraws n).entropy = (if s.rngSrc then s.entropy else s.entropy.drop n) := rfl
@[simp] theorem State.afterDraws_pending (n : Nat) : (s.afterDraws n).pending = s.pending := rfl
@[simp] theorem State.afterDraws_rdata (n : Nat) : (s.afterDraws n).rdata = s.rdata := rfl
@[simp] theorem State.afterDraws_freeCount (n : Nat) : (s.afterDraws n).freeCount = s.freeCount := rfl
@[simp] theorem State.afterDraws_reg (n : Nat) (q : RegNum) : (s.afterDraws n).reg q = s.reg q := rfl
@[simp] theorem State.afterDraws_arg (n : Nat) (q : RegNum) : (s.afterDraws n).arg q = s.arg q := rfl
@[simp] theorem State.afterDraws_byteOp (n : Nat) (q : RegNum) : (s.afterDraws n).byteOp q = s.byteOp q := rfl
@[simp] theorem State.afterDraws_memRead (n : Nat) (x k : Nat) : (s.afterDraws n).memRead x k = s.memRead x k := rfl

/-! ### `State.refuse` -/

@[simp] theorem State.refuse_params : (s.refuse).params = s.params := rfl
@[simp] theorem State.refuse_regs : (s.refuse).regs = s.regs := rfl
@[simp] theorem State.refuse_rngSrc : (s.refuse).rngSrc = s.rngSrc := rfl
@[simp] theorem State.refuse_irqEn : (s.refuse).irqEn = s.irqEn := rfl
@[simp] theorem State.refuse_busy : (s.refuse).busy = s.busy := rfl
@[simp] theorem State.refuse_done : (s.refuse).done = s.done := rfl
@[simp] theorem State.refuse_err : (s.refuse).err = s.err := rfl
@[simp] theorem State.refuse_warn : (s.refuse).warn = s.warn := rfl
@[simp] theorem State.refuse_herr : (s.refuse).herr = true := rfl
@[simp] theorem State.refuse_errCode : (s.refuse).errCode = s.errCode := rfl
@[simp] theorem State.refuse_fsm : (s.refuse).fsm = s.fsm := rfl
@[simp] theorem State.refuse_cmd : (s.refuse).cmd = s.cmd := rfl
@[simp] theorem State.refuse_errInfo : (s.refuse).errInfo = s.errInfo := rfl
@[simp] theorem State.refuse_rngPtr : (s.refuse).rngPtr = s.rngPtr := rfl
@[simp] theorem State.refuse_rngCnt : (s.refuse).rngCnt = s.rngCnt := rfl
@[simp] theorem State.refuse_dmem : (s.refuse).dmem = s.dmem := rfl
@[simp] theorem State.refuse_keyBuf : (s.refuse).keyBuf = s.keyBuf := rfl
@[simp] theorem State.refuse_ivBuf : (s.refuse).ivBuf = s.ivBuf := rfl
@[simp] theorem State.refuse_coefBuf : (s.refuse).coefBuf = s.coefBuf := rfl
@[simp] theorem State.refuse_shareBuf : (s.refuse).shareBuf = s.shareBuf := rfl
@[simp] theorem State.refuse_rstN : (s.refuse).rstN = s.rstN := rfl
@[simp] theorem State.refuse_entropy : (s.refuse).entropy = s.entropy := rfl
@[simp] theorem State.refuse_pending : (s.refuse).pending = s.pending := rfl
@[simp] theorem State.refuse_rdata : (s.refuse).rdata = s.rdata := rfl
@[simp] theorem State.refuse_freeCount : (s.refuse).freeCount = s.freeCount := rfl
@[simp] theorem State.refuse_reg (q : RegNum) : (s.refuse).reg q = s.reg q := rfl
@[simp] theorem State.refuse_arg (q : RegNum) : (s.refuse).arg q = s.arg q := rfl
@[simp] theorem State.refuse_byteOp (q : RegNum) : (s.refuse).byteOp q = s.byteOp q := rfl
@[simp] theorem State.refuse_memRead (x k : Nat) : (s.refuse).memRead x k = s.memRead x k := rfl

/-! ### `State.clearStatus` -/

@[simp] theorem State.clearStatus_params (v : Word) : (s.clearStatus v).params = s.params := rfl
@[simp] theorem State.clearStatus_regs (v : Word) : (s.clearStatus v).regs = s.regs := rfl
@[simp] theorem State.clearStatus_rngSrc (v : Word) : (s.clearStatus v).rngSrc = s.rngSrc := rfl
@[simp] theorem State.clearStatus_irqEn (v : Word) : (s.clearStatus v).irqEn = s.irqEn := rfl
@[simp] theorem State.clearStatus_busy (v : Word) : (s.clearStatus v).busy = s.busy := rfl
@[simp] theorem State.clearStatus_done (v : Word) : (s.clearStatus v).done = (s.done && !v.getLsbD 1) := rfl
@[simp] theorem State.clearStatus_err (v : Word) : (s.clearStatus v).err = (s.err && !v.getLsbD 2) := rfl
@[simp] theorem State.clearStatus_warn (v : Word) : (s.clearStatus v).warn = (s.warn && !v.getLsbD 3) := rfl
@[simp] theorem State.clearStatus_herr (v : Word) : (s.clearStatus v).herr = (s.herr && !v.getLsbD 4) := rfl
@[simp] theorem State.clearStatus_errCode (v : Word) : (s.clearStatus v).errCode = s.errCode := rfl
@[simp] theorem State.clearStatus_fsm (v : Word) : (s.clearStatus v).fsm = s.fsm := rfl
@[simp] theorem State.clearStatus_cmd (v : Word) : (s.clearStatus v).cmd = s.cmd := rfl
@[simp] theorem State.clearStatus_errInfo (v : Word) : (s.clearStatus v).errInfo = s.errInfo := rfl
@[simp] theorem State.clearStatus_rngPtr (v : Word) : (s.clearStatus v).rngPtr = s.rngPtr := rfl
@[simp] theorem State.clearStatus_rngCnt (v : Word) : (s.clearStatus v).rngCnt = s.rngCnt := rfl
@[simp] theorem State.clearStatus_dmem (v : Word) : (s.clearStatus v).dmem = s.dmem := rfl
@[simp] theorem State.clearStatus_keyBuf (v : Word) : (s.clearStatus v).keyBuf = s.keyBuf := rfl
@[simp] theorem State.clearStatus_ivBuf (v : Word) : (s.clearStatus v).ivBuf = s.ivBuf := rfl
@[simp] theorem State.clearStatus_coefBuf (v : Word) : (s.clearStatus v).coefBuf = s.coefBuf := rfl
@[simp] theorem State.clearStatus_shareBuf (v : Word) : (s.clearStatus v).shareBuf = s.shareBuf := rfl
@[simp] theorem State.clearStatus_rstN (v : Word) : (s.clearStatus v).rstN = s.rstN := rfl
@[simp] theorem State.clearStatus_entropy (v : Word) : (s.clearStatus v).entropy = s.entropy := rfl
@[simp] theorem State.clearStatus_pending (v : Word) : (s.clearStatus v).pending = s.pending := rfl
@[simp] theorem State.clearStatus_rdata (v : Word) : (s.clearStatus v).rdata = s.rdata := rfl
@[simp] theorem State.clearStatus_freeCount (v : Word) : (s.clearStatus v).freeCount = s.freeCount := rfl
@[simp] theorem State.clearStatus_reg (v : Word) (q : RegNum) : (s.clearStatus v).reg q = s.reg q := rfl
@[simp] theorem State.clearStatus_arg (v : Word) (q : RegNum) : (s.clearStatus v).arg q = s.arg q := rfl
@[simp] theorem State.clearStatus_byteOp (v : Word) (q : RegNum) : (s.clearStatus v).byteOp q = s.byteOp q := rfl
@[simp] theorem State.clearStatus_memRead (v : Word) (x k : Nat) : (s.clearStatus v).memRead x k = s.memRead x k := rfl

/-! ### `State.ctrlBits` -/

@[simp] theorem State.ctrlBits_params (v : Word) : (s.ctrlBits v).params = s.params := rfl
@[simp] theorem State.ctrlBits_regs (v : Word) : (s.ctrlBits v).regs = s.regs := rfl
@[simp] theorem State.ctrlBits_rngSrc (v : Word) : (s.ctrlBits v).rngSrc = (if s.busy then s.rngSrc else v.getLsbD 2) := rfl
@[simp] theorem State.ctrlBits_irqEn (v : Word) : (s.ctrlBits v).irqEn = v.getLsbD 3 := rfl
@[simp] theorem State.ctrlBits_busy (v : Word) : (s.ctrlBits v).busy = s.busy := rfl
@[simp] theorem State.ctrlBits_done (v : Word) : (s.ctrlBits v).done = s.done := rfl
@[simp] theorem State.ctrlBits_err (v : Word) : (s.ctrlBits v).err = s.err := rfl
@[simp] theorem State.ctrlBits_warn (v : Word) : (s.ctrlBits v).warn = s.warn := rfl
@[simp] theorem State.ctrlBits_herr (v : Word) : (s.ctrlBits v).herr = (s.herr || (s.busy && (v.getLsbD 2 != s.rngSrc))) := rfl
@[simp] theorem State.ctrlBits_errCode (v : Word) : (s.ctrlBits v).errCode = s.errCode := rfl
@[simp] theorem State.ctrlBits_fsm (v : Word) : (s.ctrlBits v).fsm = s.fsm := rfl
@[simp] theorem State.ctrlBits_cmd (v : Word) : (s.ctrlBits v).cmd = s.cmd := rfl
@[simp] theorem State.ctrlBits_errInfo (v : Word) : (s.ctrlBits v).errInfo = s.errInfo := rfl
@[simp] theorem State.ctrlBits_rngPtr (v : Word) : (s.ctrlBits v).rngPtr = s.rngPtr := rfl
@[simp] theorem State.ctrlBits_rngCnt (v : Word) : (s.ctrlBits v).rngCnt = s.rngCnt := rfl
@[simp] theorem State.ctrlBits_dmem (v : Word) : (s.ctrlBits v).dmem = s.dmem := rfl
@[simp] theorem State.ctrlBits_keyBuf (v : Word) : (s.ctrlBits v).keyBuf = s.keyBuf := rfl
@[simp] theorem State.ctrlBits_ivBuf (v : Word) : (s.ctrlBits v).ivBuf = s.ivBuf := rfl
@[simp] theorem State.ctrlBits_coefBuf (v : Word) : (s.ctrlBits v).coefBuf = s.coefBuf := rfl
@[simp] theorem State.ctrlBits_shareBuf (v : Word) : (s.ctrlBits v).shareBuf = s.shareBuf := rfl
@[simp] theorem State.ctrlBits_rstN (v : Word) : (s.ctrlBits v).rstN = s.rstN := rfl
@[simp] theorem State.ctrlBits_entropy (v : Word) : (s.ctrlBits v).entropy = s.entropy := rfl
@[simp] theorem State.ctrlBits_pending (v : Word) : (s.ctrlBits v).pending = s.pending := rfl
@[simp] theorem State.ctrlBits_rdata (v : Word) : (s.ctrlBits v).rdata = s.rdata := rfl
@[simp] theorem State.ctrlBits_freeCount (v : Word) : (s.ctrlBits v).freeCount = s.freeCount := rfl
@[simp] theorem State.ctrlBits_reg (v : Word) (q : RegNum) : (s.ctrlBits v).reg q = s.reg q := rfl
@[simp] theorem State.ctrlBits_arg (v : Word) (q : RegNum) : (s.ctrlBits v).arg q = s.arg q := rfl
@[simp] theorem State.ctrlBits_byteOp (v : Word) (q : RegNum) : (s.ctrlBits v).byteOp q = s.byteOp q := rfl
@[simp] theorem State.ctrlBits_memRead (v : Word) (x k : Nat) : (s.ctrlBits v).memRead x k = s.memRead x k := rfl

/-! ### `State.resetEngine` -/

@[simp] theorem State.resetEngine_params : s.resetEngine.params = s.params := rfl
@[simp] theorem State.resetEngine_regs : s.resetEngine.regs = Vector.replicate 16 0 := rfl
@[simp] theorem State.resetEngine_rngSrc : s.resetEngine.rngSrc = false := rfl
@[simp] theorem State.resetEngine_irqEn : s.resetEngine.irqEn = false := rfl
@[simp] theorem State.resetEngine_busy : s.resetEngine.busy = false := rfl
@[simp] theorem State.resetEngine_done : s.resetEngine.done = false := rfl
@[simp] theorem State.resetEngine_err : s.resetEngine.err = false := rfl
@[simp] theorem State.resetEngine_warn : s.resetEngine.warn = false := rfl
@[simp] theorem State.resetEngine_herr : s.resetEngine.herr = false := rfl
@[simp] theorem State.resetEngine_errCode : s.resetEngine.errCode = 0 := rfl
@[simp] theorem State.resetEngine_fsm : s.resetEngine.fsm = .idle := rfl
@[simp] theorem State.resetEngine_cmd : s.resetEngine.cmd = 0 := rfl
@[simp] theorem State.resetEngine_errInfo : s.resetEngine.errInfo = 0 := rfl
@[simp] theorem State.resetEngine_rngPtr : s.resetEngine.rngPtr = 0 := rfl
@[simp] theorem State.resetEngine_rngCnt : s.resetEngine.rngCnt = 0 := rfl
@[simp] theorem State.resetEngine_dmem : s.resetEngine.dmem = (if s.busy then s.abandon else s.dmem) := rfl
@[simp] theorem State.resetEngine_keyBuf : s.resetEngine.keyBuf = [] := rfl
@[simp] theorem State.resetEngine_ivBuf : s.resetEngine.ivBuf = [] := rfl
@[simp] theorem State.resetEngine_coefBuf : s.resetEngine.coefBuf = [] := rfl
@[simp] theorem State.resetEngine_shareBuf : s.resetEngine.shareBuf = [] := rfl
@[simp] theorem State.resetEngine_rstN : s.resetEngine.rstN = s.rstN := rfl
@[simp] theorem State.resetEngine_entropy : s.resetEngine.entropy = s.entropy := rfl
@[simp] theorem State.resetEngine_pending : s.resetEngine.pending = s.pending := rfl
@[simp] theorem State.resetEngine_rdata : s.resetEngine.rdata = s.rdata := rfl
@[simp] theorem State.resetEngine_freeCount : s.resetEngine.freeCount = (if s.busy then s.freeCount + 1 else s.freeCount) := rfl

/-! ### `putCoef` -/

@[simp] theorem putCoef_params (b : Byte) : (putCoef b s).params = s.params := rfl
@[simp] theorem putCoef_regs (b : Byte) : (putCoef b s).regs = s.regs := rfl
@[simp] theorem putCoef_rngSrc (b : Byte) : (putCoef b s).rngSrc = s.rngSrc := rfl
@[simp] theorem putCoef_irqEn (b : Byte) : (putCoef b s).irqEn = s.irqEn := rfl
@[simp] theorem putCoef_busy (b : Byte) : (putCoef b s).busy = s.busy := rfl
@[simp] theorem putCoef_done (b : Byte) : (putCoef b s).done = s.done := rfl
@[simp] theorem putCoef_err (b : Byte) : (putCoef b s).err = s.err := rfl
@[simp] theorem putCoef_warn (b : Byte) : (putCoef b s).warn = s.warn := rfl
@[simp] theorem putCoef_herr (b : Byte) : (putCoef b s).herr = s.herr := rfl
@[simp] theorem putCoef_errCode (b : Byte) : (putCoef b s).errCode = s.errCode := rfl
@[simp] theorem putCoef_fsm (b : Byte) : (putCoef b s).fsm = s.fsm := rfl
@[simp] theorem putCoef_cmd (b : Byte) : (putCoef b s).cmd = s.cmd := rfl
@[simp] theorem putCoef_errInfo (b : Byte) : (putCoef b s).errInfo = s.errInfo := rfl
@[simp] theorem putCoef_rngPtr (b : Byte) : (putCoef b s).rngPtr = s.rngPtr := rfl
@[simp] theorem putCoef_rngCnt (b : Byte) : (putCoef b s).rngCnt = s.rngCnt := rfl
@[simp] theorem putCoef_dmem (b : Byte) : (putCoef b s).dmem = s.dmem := rfl
@[simp] theorem putCoef_keyBuf (b : Byte) : (putCoef b s).keyBuf = s.keyBuf := rfl
@[simp] theorem putCoef_ivBuf (b : Byte) : (putCoef b s).ivBuf = s.ivBuf := rfl
@[simp] theorem putCoef_coefBuf (b : Byte) : (putCoef b s).coefBuf = s.coefBuf ++ [b] := rfl
@[simp] theorem putCoef_shareBuf (b : Byte) : (putCoef b s).shareBuf = s.shareBuf := rfl
@[simp] theorem putCoef_rstN (b : Byte) : (putCoef b s).rstN = s.rstN := rfl
@[simp] theorem putCoef_entropy (b : Byte) : (putCoef b s).entropy = s.entropy := rfl
@[simp] theorem putCoef_pending (b : Byte) : (putCoef b s).pending = s.pending := rfl
@[simp] theorem putCoef_rdata (b : Byte) : (putCoef b s).rdata = s.rdata := rfl
@[simp] theorem putCoef_freeCount (b : Byte) : (putCoef b s).freeCount = s.freeCount := rfl

/-! ### `putKeyIv` -/

@[simp] theorem putKeyIv_params (b : Byte) : (putKeyIv b s).params = s.params := by unfold putKeyIv; split <;> rfl
@[simp] theorem putKeyIv_regs (b : Byte) : (putKeyIv b s).regs = s.regs := by unfold putKeyIv; split <;> rfl
@[simp] theorem putKeyIv_rngSrc (b : Byte) : (putKeyIv b s).rngSrc = s.rngSrc := by unfold putKeyIv; split <;> rfl
@[simp] theorem putKeyIv_irqEn (b : Byte) : (putKeyIv b s).irqEn = s.irqEn := by unfold putKeyIv; split <;> rfl
@[simp] theorem putKeyIv_busy (b : Byte) : (putKeyIv b s).busy = s.busy := by unfold putKeyIv; split <;> rfl
@[simp] theorem putKeyIv_done (b : Byte) : (putKeyIv b s).done = s.done := by unfold putKeyIv; split <;> rfl
@[simp] theorem putKeyIv_err (b : Byte) : (putKeyIv b s).err = s.err := by unfold putKeyIv; split <;> rfl
@[simp] theorem putKeyIv_warn (b : Byte) : (putKeyIv b s).warn = s.warn := by unfold putKeyIv; split <;> rfl
@[simp] theorem putKeyIv_herr (b : Byte) : (putKeyIv b s).herr = s.herr := by unfold putKeyIv; split <;> rfl
@[simp] theorem putKeyIv_errCode (b : Byte) : (putKeyIv b s).errCode = s.errCode := by unfold putKeyIv; split <;> rfl
@[simp] theorem putKeyIv_fsm (b : Byte) : (putKeyIv b s).fsm = s.fsm := by unfold putKeyIv; split <;> rfl
@[simp] theorem putKeyIv_cmd (b : Byte) : (putKeyIv b s).cmd = s.cmd := by unfold putKeyIv; split <;> rfl
@[simp] theorem putKeyIv_errInfo (b : Byte) : (putKeyIv b s).errInfo = s.errInfo := by unfold putKeyIv; split <;> rfl
@[simp] theorem putKeyIv_rngPtr (b : Byte) : (putKeyIv b s).rngPtr = s.rngPtr := by unfold putKeyIv; split <;> rfl
@[simp] theorem putKeyIv_rngCnt (b : Byte) : (putKeyIv b s).rngCnt = s.rngCnt := by unfold putKeyIv; split <;> rfl
@[simp] theorem putKeyIv_dmem (b : Byte) : (putKeyIv b s).dmem = s.dmem := by unfold putKeyIv; split <;> rfl
@[simp] theorem putKeyIv_coefBuf (b : Byte) : (putKeyIv b s).coefBuf = s.coefBuf := by unfold putKeyIv; split <;> rfl
@[simp] theorem putKeyIv_shareBuf (b : Byte) : (putKeyIv b s).shareBuf = s.shareBuf := by unfold putKeyIv; split <;> rfl
@[simp] theorem putKeyIv_rstN (b : Byte) : (putKeyIv b s).rstN = s.rstN := by unfold putKeyIv; split <;> rfl
@[simp] theorem putKeyIv_entropy (b : Byte) : (putKeyIv b s).entropy = s.entropy := by unfold putKeyIv; split <;> rfl
@[simp] theorem putKeyIv_pending (b : Byte) : (putKeyIv b s).pending = s.pending := by unfold putKeyIv; split <;> rfl
@[simp] theorem putKeyIv_rdata (b : Byte) : (putKeyIv b s).rdata = s.rdata := by unfold putKeyIv; split <;> rfl
@[simp] theorem putKeyIv_freeCount (b : Byte) : (putKeyIv b s).freeCount = s.freeCount := by unfold putKeyIv; split <;> rfl

theorem putKeyIv_keyBuf (b : Byte) :
    (putKeyIv b s).keyBuf = if s.keyBuf.length < 32 then s.keyBuf ++ [b] else s.keyBuf := by
  unfold putKeyIv; split <;> rfl

theorem putKeyIv_ivBuf (b : Byte) :
    (putKeyIv b s).ivBuf = if s.keyBuf.length < 32 then s.ivBuf else s.ivBuf ++ [b] := by
  unfold putKeyIv; split <;> rfl

end

/-! ### Registers -/

theorem State.reg_setReg (s : State) (r q : RegNum) (v : Word) :
    (s.setReg r v).reg q = if q = r then v else s.reg q := by
  show (s.regs.set r.val v r.isLt)[q.val] = if q = r then v else s.regs[q.val]
  rw [Vector.getElem_set]
  by_cases h : q = r
  · simp [h]
  · have : ¬ r.val = q.val := fun e => h (Fin.ext e.symm)
    simp [h, this]

@[simp] theorem State.reg_setReg_self (s : State) (r : RegNum) (v : Word) : (s.setReg r v).reg r = v := by
  simp [State.reg_setReg]

theorem State.reg_setReg_of_ne (s : State) (r q : RegNum) (v : Word) (h : q ≠ r) :
    (s.setReg r v).reg q = s.reg q := by simp [State.reg_setReg, h]

end Sys2Proof.Machine
end

