-- ==== Sys2Proof/Laws/Ops.lean ====
section
/-! SUPPORT. Turns, runs and draws: what a run of one, two or many turns answers, everything one draw can do, and what `n`
draws do together. -/

namespace Sys2Proof.Machine

/-! ### Turns -/

theorem runTurns_more {turn : State → Progress} {s t : State} (n : Nat) (h : turn s = .more t) :
    runTurns (n + 1) turn s = runTurns n turn t := by simp only [runTurns, h]

theorem runTurns_ends {turn : State → Progress} {s t : State} (n : Nat) (h : turn s = .ends t) :
    runTurns (n + 1) turn s = t := by simp only [runTurns, h]

/-- What every turn keeps, a run keeps; what every last turn brings about, a run that ends brings about. -/
theorem runTurns_induction {turn : State → Progress} (P Q : State → Prop) (hPQ : ∀ s, P s → Q s)
    (hmore : ∀ s t, P s → turn s = .more t → P t) (hends : ∀ s t, P s → turn s = .ends t → Q t) (n : Nat) (s : State)
    (h : P s) : Q (runTurns n turn s) := by
  induction n generalizing s with
  | zero => exact hPQ s h
  | succ n ih =>
    cases ht : turn s with
    | more t => rw [runTurns_more n ht]; exact ih t (hmore s t h ht)
    | ends t => rw [runTurns_ends n ht]; exact hends s t h ht

/-- An invariant of the turns is an invariant of the run. -/
theorem runTurns_invariant {turn : State → Progress} (P : State → Prop) (h : ∀ s, P s → P (turn s).state) (n : Nat)
    (s : State) (hs : P s) : P (runTurns n turn s) :=
  runTurns_induction P P (fun _ hp => hp) (fun s t hp ht => by simpa [ht, Progress.state] using h s hp)
    (fun s t hp ht => by simpa [ht, Progress.state] using h s hp) n s hs

/-- A run of one turn. -/
theorem runCommand_of_ends {turn : State → Progress} {s t : State} (h : turn s = .ends t) :
    runCommand turn s = .next t := by
  simp only [runCommand, show maxTurns = 65535 + 1 from rfl, runTurns_ends _ h]

/-- A run of two turns: DISPATCH, then the work. -/
theorem runCommand_of_more {turn : State → Progress} {s t u : State} (h₁ : turn s = .more t)
    (h₂ : turn t = .ends u) : runCommand turn s = .next u := by
  simp only [runCommand, show maxTurns = 65534 + 1 + 1 from rfl, runTurns_more _ h₁, runTurns_ends _ h₂]

/-- Everything `simpleTurn` can do. -/
theorem simpleTurn_exec {check : State → Option CmdError} {work : State → Progress} {s : State}
    (h : s.fsm = .exec) : simpleTurn check work s = work s := by simp only [simpleTurn, h]

theorem simpleTurn_fail {check : State → Option CmdError} {work : State → Progress} {s : State} {e : CmdError}
    (h : s.fsm ≠ .exec) (hc : check s = some e) : simpleTurn check work s = .ends (s.fail e) := by
  cases hf : s.fsm <;> simp_all [simpleTurn, dispatchTo]

theorem simpleTurn_pass {check : State → Option CmdError} {work : State → Progress} {s : State}
    (h : s.fsm ≠ .exec) (hc : check s = none) :
    simpleTurn check work s = .more { s with fsm := .exec } := by
  cases hf : s.fsm <;> simp_all [simpleTurn, dispatchTo]

/-- Everything a turn of a simple command can do. -/
theorem simpleTurn_cases (check : State → Option CmdError) (work : State → Progress) (s : State) :
    (s.fsm = .exec ∧ simpleTurn check work s = work s) ∨
    (s.fsm ≠ .exec ∧ ∃ e, check s = some e ∧ simpleTurn check work s = .ends (s.fail e)) ∨
    (s.fsm ≠ .exec ∧ check s = none ∧ simpleTurn check work s = .more { s with fsm := .exec }) := by
  by_cases h : s.fsm = .exec
  · exact .inl ⟨h, simpleTurn_exec h⟩
  · cases hc : check s with
    | none => exact .inr (.inr ⟨h, rfl, simpleTurn_pass h hc⟩)
    | some e => exact .inr (.inl ⟨h, e, rfl, simpleTurn_fail h hc⟩)

/-- Everything leaving DISPATCH can do. -/
theorem dispatchTo_cases (next : Fsm) (check : Option CmdError) (s : State) :
    (∃ e, check = some e ∧ dispatchTo next check s = .ends (s.fail e)) ∨
    (check = none ∧ dispatchTo next check s = .more { s with fsm := next }) := by
  cases check with
  | none => exact .inr ⟨rfl, rfl⟩
  | some e => exact .inl ⟨e, rfl, rfl⟩

/-- A simple command that fails a check of DISPATCH. -/
theorem runCommand_simple_fail {check : State → Option CmdError} {work : State → Progress} {s : State}
    {e : CmdError} (h : s.fsm ≠ .exec) (hc : check s = some e) :
    runCommand (simpleTurn check work) s = .next (s.fail e) :=
  runCommand_of_ends (simpleTurn_fail h hc)

/-- A simple command that passes its checks and whose work takes one turn. -/
theorem runCommand_simple_pass {check : State → Option CmdError} {work : State → Progress} {s u : State}
    (h : s.fsm ≠ .exec) (hc : check s = none) (hw : work { s with fsm := .exec } = .ends u) :
    runCommand (simpleTurn check work) s = .next u :=
  runCommand_of_more (simpleTurn_pass h hc) ((simpleTurn_exec rfl).trans hw)

/-! ### Completion forgets where the FSM stood and what the hidden buffers held -/

@[simp] theorem State.fail_fsm_update (s : State) (f : Fsm) (e : CmdError) : ({ s with fsm := f }).fail e = s.fail e := rfl

@[simp] theorem State.succeed_fsm_update (s : State) (f : Fsm) : ({ s with fsm := f }).succeed = s.succeed := rfl

theorem State.fail_of_scrub_eq {s t : State} (h : s.complete = t.complete) (e : CmdError) : s.fail e = t.fail e := by
  simp only [State.fail, h]

/-! ### One draw -/

/-- The external port offers no byte, and the command waits. -/
theorem State.rng_eq_none (s : State) : s.rng = none ↔ s.rngSrc = false ∧ s.entropy = [] := by
  unfold State.rng
  by_cases hs : s.rngSrc = true
  · simp [hs]
  · cases he : s.entropy <;> simp [hs]

/-- Everything a draw can do: it gives the next byte of the source and counts, and nothing else changes. -/
theorem State.rng_eq_some (s : State) (h : s.canDraw 1 = true) :
    ∃ b, s.nextBytes 1 = [b] ∧ s.rng = some (b, s.afterDraws 1) := by
  unfold State.canDraw at h
  unfold State.rng State.nextBytes State.afterDraws
  cases hs : s.rngSrc
  · cases he : s.entropy with
    | nil => simp [hs, he] at h
    | cons b rest => exact ⟨b, by simp, by simp⟩
  · exact ⟨s.dmem.byte s.rngPtr.toNat, by simp [State.memRead, Mem.read], by simp⟩

/-- Everything a state that draws can do in one turn: its work, when nothing is left to draw; a wait; or one draw. -/
theorem drawThen_cases (left : Nat) (put : Byte → State → State) (k : State → Progress) (s : State) :
    (left = 0 ∧ drawThen left put k s = k s) ∨
    (left ≠ 0 ∧ s.canDraw 1 = false ∧ drawThen left put k s = .ends s) ∨
    (left ≠ 0 ∧ s.canDraw 1 = true ∧
      ∃ b, s.nextBytes 1 = [b] ∧ drawThen left put k s = .more (put b (s.afterDraws 1))) := by
  cases left with
  | zero => exact .inl ⟨rfl, rfl⟩
  | succ n =>
    cases hc : s.canDraw 1 with
    | true =>
      obtain ⟨b, hb, hr⟩ := s.rng_eq_some hc
      exact .inr (.inr ⟨by simp, rfl, b, hb, by simp only [drawThen, hr]⟩)
    | false =>
      have hr : s.rng = none := by
        rw [State.rng_eq_none]
        simpa [State.canDraw, Nat.lt_one_iff] using hc
      exact .inr (.inl ⟨by simp, rfl, by simp only [drawThen, hr]⟩)

/-! ### Many draws -/

/-- `n` draws, each byte put where `put` says, stopping where the port offers no byte. -/
def drawMany (put : Byte → State → State) : Nat → State → State
  | 0, s => s
  | n + 1, s =>
    match s.rng with
    | none => s
    | some (b, t) => drawMany put n (put b t)

/-- Where the first byte of `n + 1` draws is taken, `n` draws are left. -/
theorem State.canDraw_afterDraws (s : State) (n : Nat) (h : s.canDraw (n + 1) = true) :
    (s.afterDraws 1).canDraw n = true := by
  unfold State.canDraw State.afterDraws at *
  by_cases hs : s.rngSrc = true
  · simp [hs]
  · simp only [hs, Bool.false_or, decide_eq_true_eq] at h
    simp only [hs, Bool.false_or, decide_eq_true_eq, Bool.false_eq_true, if_false, List.length_drop]
    omega

theorem State.canDraw_one (s : State) (n : Nat) (h : s.canDraw (n + 1) = true) : s.canDraw 1 = true := by
  unfold State.canDraw at *
  by_cases hs : s.rngSrc = true
  · simp [hs]
  · simp only [hs, Bool.false_or, decide_eq_true_eq] at *
    omega

/-- RNG_PTR does not wrap in `n` draws. -/
def State.drawsFit (s : State) (n : Nat) : Prop := s.rngSrc = true → s.rngPtr.toNat + n < 2 ^ 32

theorem State.rngPtr_succ (s : State) (h : s.rngPtr.toNat + 1 < 2 ^ 32) :
    (s.rngPtr + BitVec.ofNat 32 1).toNat = s.rngPtr.toNat + 1 := by
  rw [BitVec.toNat_add, BitVec.toNat_ofNat]
  omega

@[simp] theorem State.nextBytes_zero (s : State) : s.nextBytes 0 = [] := by
  unfold State.nextBytes
  by_cases hs : s.rngSrc = true <;> simp [hs, State.memRead, Mem.read]

@[simp] theorem State.afterDraws_zero (s : State) : s.afterDraws 0 = s := by
  have e : ∀ p en c, p = s.rngPtr → en = s.entropy → c = s.rngCnt →
      { s with rngPtr := p, entropy := en, rngCnt := c } = s := by
    rintro _ _ _ rfl rfl rfl; rfl
  apply e <;> simp

theorem State.nextBytes_succ (s : State) (n : Nat) (b : Byte) (hb : s.nextBytes 1 = [b])
    (h : s.canDraw (n + 1) = true) (hf : s.drawsFit (n + 1)) :
    s.nextBytes (n + 1) = b :: (s.afterDraws 1).nextBytes n := by
  unfold State.canDraw at h
  unfold State.drawsFit at hf
  unfold State.nextBytes at *
  by_cases hs : s.rngSrc = true
  · have hlt := hf hs
    have hs1 : (s.afterDraws 1).rngSrc = true := hs
    have hp : (s.afterDraws 1).rngPtr = s.rngPtr + BitVec.ofNat 32 1 := by simp [State.afterDraws, hs]
    have hm : ∀ a k, (s.afterDraws 1).memRead a k = s.memRead a k := fun _ _ => rfl
    rw [if_pos hs] at hb
    rw [if_pos hs, if_pos hs1, hp, hm, State.rngPtr_succ s (by omega)]
    simp only [State.memRead, Mem.read, List.range_succ_eq_map, List.map_cons, List.map_map] at *
    simp only [Function.comp_def, Nat.succ_eq_add_one]
    have hb' : s.dmem.byte (s.rngPtr.toNat + 0) = b := by simpa using hb
    rw [hb']
    congr 1
    apply List.map_congr_left
    intro i _
    congr 1
    omega
  · have hs1 : (s.afterDraws 1).rngSrc = false := by simpa using hs
    have he1 : (s.afterDraws 1).entropy = s.entropy.drop 1 := by simp [State.afterDraws, hs]
    simp only [hs, Bool.false_or, decide_eq_true_eq, Bool.false_eq_true, if_false] at h hb
    rw [if_neg hs, hs1, he1, if_neg Bool.false_ne_true]
    cases he : s.entropy with
    | nil => simp [he] at h
    | cons c rest => simp_all

theorem State.afterDraws_succ (s : State) (n : Nat) :
    (s.afterDraws 1).afterDraws n = s.afterDraws (n + 1) := by
  have e : ∀ x : Word, x + BitVec.ofNat 32 1 + BitVec.ofNat 32 n = x + BitVec.ofNat 32 (n + 1) := by
    intro x
    rw [BitVec.add_assoc, ← BitVec.ofNat_add, Nat.add_comm]
  unfold State.afterDraws
  by_cases hs : s.rngSrc = true
  · simp only [hs, if_true, e]
  · simp only [hs, Bool.false_eq_true, if_false, e, List.drop_drop, Nat.add_comm 1 n]

theorem State.length_nextBytes (s : State) (n : Nat) (h : s.canDraw n = true) :
    (s.nextBytes n).length = n := by
  unfold State.canDraw at h
  unfold State.nextBytes
  by_cases hs : s.rngSrc = true
  · simp [hs, State.memRead]
  · simp only [hs, Bool.false_or, decide_eq_true_eq] at h
    simp [hs, h]

theorem State.drawsFit_afterDraws (s : State) (n : Nat) (hf : s.drawsFit (n + 1)) :
    (s.afterDraws 1).drawsFit n := by
  intro hs
  have hs' : s.rngSrc = true := hs
  have hlt := hf hs'
  have hp : (s.afterDraws 1).rngPtr = s.rngPtr + BitVec.ofNat 32 1 := by simp [State.afterDraws, hs']
  rw [hp, State.rngPtr_succ s (by omega)]
  omega

/-- The first of `n + 1` draws. -/
theorem drawMany_succ (put : Byte → State → State) (n : Nat) (s : State) (h : s.canDraw (n + 1) = true) :
    ∃ b, s.nextBytes 1 = [b] ∧ drawMany put (n + 1) s = drawMany put n (put b (s.afterDraws 1)) := by
  obtain ⟨b, hb, hr⟩ := s.rng_eq_some (s.canDraw_one n h)
  exact ⟨b, hb, by simp only [drawMany, hr]⟩

/-- What `n` draws into COEFBUF do (42_shamir.md R471). -/
theorem drawMany_putCoef (n : Nat) (s : State) (h : s.canDraw n = true) (hf : s.drawsFit n) :
    drawMany putCoef n s = { s.afterDraws n with coefBuf := s.coefBuf ++ s.nextBytes n } := by
  induction n generalizing s with
  | zero => simp [drawMany]
  | succ n ih =>
    obtain ⟨b, hb, hd⟩ := drawMany_succ putCoef n s h
    rw [hd, ih (putCoef b (s.afterDraws 1)) (s.canDraw_afterDraws n h) (s.drawsFit_afterDraws n hf),
      ← State.afterDraws_succ s n, State.nextBytes_succ s n b hb h hf]
    have e₁ : (putCoef b (s.afterDraws 1)).nextBytes n = (s.afterDraws 1).nextBytes n := rfl
    have e₂ : (putCoef b (s.afterDraws 1)).afterDraws n
        = { (s.afterDraws 1).afterDraws n with coefBuf := s.coefBuf ++ [b] } := rfl
    rw [e₁, e₂]
    simp

/-- What `n` draws into KEYBUF and IVBUF do: the bytes drawn go to KEYBUF until it holds 32, the rest to IVBUF
(46_vault_fsm.md R612). -/
theorem drawMany_putKeyIv (n : Nat) (s : State) (h : s.canDraw n = true) (hf : s.drawsFit n)
    (hk : s.keyBuf.length ≤ 32) (hiv : s.keyBuf.length < 32 → s.ivBuf = []) :
    drawMany putKeyIv n s =
      { s.afterDraws n with
        keyBuf := (s.keyBuf ++ s.ivBuf ++ s.nextBytes n).take 32
        ivBuf := (s.keyBuf ++ s.ivBuf ++ s.nextBytes n).drop 32 } := by
  induction n generalizing s with
  | zero =>
    have e : ∀ k iv, k = s.keyBuf → iv = s.ivBuf → s = { s with keyBuf := k, ivBuf := iv } := by
      rintro _ _ rfl rfl; rfl
    rw [State.nextBytes_zero, State.afterDraws_zero, List.append_nil]
    apply e
    all_goals
      by_cases hlt : s.keyBuf.length < 32
      · simp [hiv hlt, List.take_of_length_le hk, List.drop_of_length_le hk]
      · have hl : s.keyBuf.length = 32 := by omega
        simp [List.take_left' hl, List.drop_left' hl]
  | succ n ih =>
    obtain ⟨b, hb, hd⟩ := drawMany_succ putKeyIv n s h
    have hc := s.canDraw_afterDraws n h
    have hw := s.drawsFit_afterDraws n hf
    have hm := s.afterDraws_succ n
    have hn := s.nextBytes_succ n b hb h hf
    have ec : (putKeyIv b (s.afterDraws 1)).canDraw n = (s.afterDraws 1).canDraw n := by
      unfold putKeyIv; split <;> rfl
    have ef : (putKeyIv b (s.afterDraws 1)).drawsFit n = (s.afterDraws 1).drawsFit n := by
      unfold putKeyIv; split <;> rfl
    have en : (putKeyIv b (s.afterDraws 1)).nextBytes n = (s.afterDraws 1).nextBytes n := by
      unfold putKeyIv; split <;> rfl
    by_cases hlt : s.keyBuf.length < 32
    · have hi := hiv hlt
      have ep : putKeyIv b (s.afterDraws 1) = { s.afterDraws 1 with keyBuf := s.keyBuf ++ [b] } := by
        unfold putKeyIv; exact if_pos hlt
      rw [hd, ih _ (ec ▸ hc) (ef ▸ hw) (by rw [ep]; simp; omega) (by rw [ep]; exact fun _ => hi), en, hn, ep, ← hm]
      simp [hi, State.afterDraws]
    · have ep : putKeyIv b (s.afterDraws 1) = { s.afterDraws 1 with ivBuf := s.ivBuf ++ [b] } := by
        unfold putKeyIv; exact if_neg hlt
      rw [hd, ih _ (ec ▸ hc) (ef ▸ hw) (by rw [ep]; exact hk) (by rw [ep]; exact fun hx => absurd hx hlt), en, hn, ep,
        ← hm]
      simp [State.afterDraws]

/-- A state of the FSM that draws `n` bytes: its draws, then what comes after them. -/
theorem runTurns_draws {turn k : State → Progress} {put : Byte → State → State} {left : State → Nat}
    (P : State → Prop) (hturn : ∀ s, P s → turn s = drawThen (left s) put k s)
    (hput : ∀ s b n, P s → left s = n + 1 →
      P (put b (s.afterDraws 1)) ∧ left (put b (s.afterDraws 1)) = n
        ∧ ∀ m, (put b (s.afterDraws 1)).canDraw m = (s.afterDraws 1).canDraw m)
    (n m : Nat) (s : State) (hP : P s) (hl : left s = n) (hc : s.canDraw n = true) :
    runTurns (n + m) turn s = runTurns m turn (drawMany put n s) ∧ P (drawMany put n s)
      ∧ left (drawMany put n s) = 0 := by
  induction n generalizing s with
  | zero => simp [drawMany, hP, hl]
  | succ n ih =>
    obtain ⟨b, -, hr⟩ := s.rng_eq_some (s.canDraw_one n hc)
    obtain ⟨hP', hl', hd'⟩ := hput s b n hP hl
    have ht : turn s = .more (put b (s.afterDraws 1)) := by
      rw [hturn s hP, hl]; simp only [drawThen, hr]
    have hm : drawMany put (n + 1) s = drawMany put n (put b (s.afterDraws 1)) := by simp only [drawMany, hr]
    rw [hm, show n + 1 + m = n + m + 1 by omega, runTurns_more _ ht]
    exact ih _ hP' hl' ((hd' n).trans (s.canDraw_afterDraws n hc))

end Sys2Proof.Machine
end

