-- ==== Sys2Proof/Laws/Operands.lean ====
section
/-! SUPPORT. The range and overlap checks of 20_memory.md R210-R212 as statements about all ranges of a command. -/

namespace Sys2Proof.Machine

theorem Range.legal_iff (size : Nat) (r : Range) :
    r.legal size = true ↔ r.len = 0 ∨ r.addr + r.len ≤ size := by
  simp [Range.legal]

theorem Range.overlaps_eq_false_iff (x y : Range) :
    x.overlaps y = false ↔ x.len = 0 ∨ y.len = 0 ∨ y.addr + y.len ≤ x.addr ∨ x.addr + x.len ≤ y.addr := by
  simp only [Range.overlaps, Bool.and_eq_false_iff, decide_eq_false_iff_not]
  omega

/-- The range check passes just where every range is legal. -/
theorem rangeError_eq_none_iff (size : Nat) (rs : List Range) :
    rangeError size rs = none ↔ ∀ r ∈ rs, r.legal size = true := by
  simp [rangeError]

/-- The overlap check passes just where no output overlaps an input or a later output. -/
theorem firstOverlap_eq_none_iff (ins outs : List Range) :
    firstOverlap ins outs = none ↔
      (∀ o ∈ outs, ∀ i ∈ ins, o.overlaps i = false) ∧ outs.Pairwise (fun x y => x.overlaps y = false) := by
  induction outs with
  | nil => simp [firstOverlap]
  | cons o outs ih =>
    rw [firstOverlap]
    split
    · rename_i r hr
      have h₁ := List.find?_some hr
      have h₂ := List.mem_of_find?_eq_some hr
      constructor
      · simp
      · rintro ⟨hi, hp⟩
        rw [List.pairwise_cons] at hp
        rcases List.mem_append.1 h₂ with h | h
        · have := hi o (by simp) r h
          simp_all
        · have := hp.1 r h
          simp_all
    · rename_i hn
      rw [List.find?_eq_none] at hn
      rw [ih, List.pairwise_cons]
      constructor
      · rintro ⟨hi, hp⟩
        refine ⟨?_, ?_, hp⟩
        · intro x hx i hi'
          rcases List.mem_cons.1 hx with rfl | hx
          · simpa using hn i (List.mem_append_left _ hi')
          · exact hi x hx i hi'
        · intro y hy
          simpa using hn y (List.mem_append_right _ hy)
      · rintro ⟨hi, -, hp⟩
        exact ⟨fun x hx => hi x (List.mem_cons_of_mem _ hx), hp⟩

/-- Phases 2 and 3 pass just where every range is legal and no output overlaps an input or a later output. -/
theorem checkRanges_eq_none_iff (size : Nat) (rs : List Range) :
    checkRanges size rs = none ↔
      (∀ r ∈ rs, r.legal size = true) ∧ (∀ o ∈ outputs rs, ∀ i ∈ inputs rs, o.overlaps i = false) ∧
        (outputs rs).Pairwise (fun x y => x.overlaps y = false) := by
  rw [checkRanges, ← rangeError_eq_none_iff, ← firstOverlap_eq_none_iff]
  cases rangeError size rs <;> simp

/-- Reading one range is not disturbed by writing a range that does not overlap it. -/
theorem memRead_memWrite_of_disjoint (s : State) (o i : Range) (bs : List Byte) (hl : bs.length ≤ o.len)
    (h : o.overlaps i = false) : (s.memWrite o.addr bs).memRead i.addr i.len = s.memRead i.addr i.len := by
  rw [Range.overlaps_eq_false_iff] at h
  show (s.dmem.write o.addr bs).read i.addr i.len = s.dmem.read i.addr i.len
  apply List.ext_getElem (by simp)
  intro j h₁ h₂
  rw [Mem.length_read] at h₁
  rw [Mem.getElem_read, Mem.getElem_read, Mem.byte_write_of_notin _ _ _ _ (by omega)]

/-- DMEM is at most 2^28 bytes, so an address in it is far below 2^32 (00_scope.md R9). -/
theorem dmemBytes_le (p : Config.Params) : p.dmemBytes ≤ 2 ^ 28 := by
  unfold Config.Params.dmemBytes Config.Params.dmemLog
  exact Nat.pow_le_pow_right (by omega) (by omega)

/-- A command that passed its checks in replay mode makes its draws without wrapping RNG_PTR (20_memory.md R231). -/
theorem drawsFit_of_legal (s : State) (n : Nat)
    (h : ∀ r ∈ s.replayRange n, r.legal s.params.dmemBytes = true) : s.drawsFit n := by
  intro hs
  have hr := h ⟨.input, replayId, s.rngPtr.toNat, n⟩ (by simp [State.replayRange, hs])
  rw [Range.legal_iff] at hr
  have hd := dmemBytes_le s.params
  have hp := s.rngPtr.isLt
  rcases hr with hr | hr <;> simp only at hr <;> omega

end Sys2Proof.Machine
end

