-- ==== Sys2Proof/Laws/Bus.lean ====
section
/-! SUPPORT. The host interface: what an offset reaches, and that a reset keeps DMEM in its canonical form and touches only
the output ranges of the command it abandons, and everything the reset input can do. -/

namespace Sys2Proof.Machine

/-- The offset of a general register (10_state.md R117). -/
theorem registerAt_gpr (r : RegNum) : registerAt (0x040 + 4 * r.val) = some (.gpr r) := by
  revert r; decide

theorem targetAt_gpr (size : Nat) (r : RegNum) : targetAt size (0x040 + 4 * r.val) 4 = some (.gpr r) := by
  have h : 0x040 + 4 * r.val < 0x1000 := by omega
  rw [targetAt, if_pos h, if_pos rfl, registerAt_gpr]

/-- The offset of a DMEM byte, half word or word (20_memory.md R201, R202). -/
theorem targetAt_dmem {dmemBytes a size : Nat} (hs : size = 1 ∨ size = 2 ∨ size = 4) (ha : a % size = 0)
    (hb : a + size ≤ dmemBytes) : targetAt dmemBytes (0x100_0000 + a) size = some (.dmem a) := by
  have h1 : ¬ 0x100_0000 + a < 0x1000 := by omega
  have h2 : 0x100_0000 + a - dmemBase = a := by rw [dmemBase]; omega
  rw [targetAt, if_neg h1, h2, if_pos ⟨by rw [dmemBase]; omega, hs, ha, hb⟩]

/-- What the host reaches while the engine is idle is what the offset names. -/
theorem State.reach_idle (s : State) (off size : Nat) (h : s.busy = false) :
    s.reach off size = targetAt s.params.dmemBytes off size := by
  rw [State.reach]
  cases targetAt s.params.dmemBytes off size <;> simp [h]

/-- What the host reaches while the engine runs is what the engine does not own (20_memory.md R207). -/
theorem State.reach_busy (s : State) (off size : Nat) (t : Target) (h : s.busy = true)
    (ht : targetAt s.params.dmemBytes off size = some t) :
    s.reach off size = if t.engineOwned then none else some t := by
  simp [State.reach, ht, h]

theorem abandon_wf_of_fold (rs : List Range) (f : Range → List Byte) (m : Mem) (h : m.wf) :
    (rs.foldl (fun m r => m.write r.addr (f r)) m).wf := by
  induction rs generalizing m with
  | nil => exact h
  | cons r rs ih => exact ih _ (Mem.wf_write _ _ _ h)

/-- Abandoning a command keeps the canonical form. -/
theorem State.abandon_wf (s : State) (h : s.dmem.wf) : s.abandon.wf := abandon_wf_of_fold _ _ _ h

theorem byte_fold_of_notin (rs : List Range) (f : Range → List Byte) (a : Nat) (m : Mem)
    (h : ∀ r ∈ rs, a < r.addr ∨ r.addr + (f r).length ≤ a) :
    (rs.foldl (fun m r => m.write r.addr (f r)) m).byte a = m.byte a := by
  induction rs generalizing m with
  | nil => rfl
  | cons r rs ih =>
    rw [List.foldl_cons, ih _ (fun x hx => h x (List.mem_cons_of_mem _ hx)),
      Mem.byte_write_of_notin _ _ _ _ (h r List.mem_cons_self)]

theorem length_abandonedBytes (event size : Nat) (r : Range) :
    (abandonedBytes event size r).length = min (r.addr + r.len) size - r.addr := by
  simp [abandonedBytes]

/-- Abandoning a command changes only bytes of its output ranges (70_reset_and_hazards.md R801). -/
theorem State.abandon_byte (s : State) (a : Nat) (h : ∀ r ∈ s.outputRanges, ¬ (r.addr ≤ a ∧ a < r.addr + r.len)) :
    Mem.byte s.abandon a = s.dmem.byte a := by
  refine byte_fold_of_notin _ _ _ _ (fun r hr => ?_)
  have := h r hr
  rw [length_abandonedBytes]
  omega

theorem byte_fold_of_mem (rs : List Range) (f : Range → List Byte) (g : Nat → Byte) (a : Nat) (m : Mem)
    (hf : ∀ r ∈ rs, ∀ i (h : i < (f r).length), (f r)[i] = g (r.addr + i))
    (h : ∃ r ∈ rs, r.addr ≤ a ∧ a < r.addr + (f r).length) :
    (rs.foldl (fun m r => m.write r.addr (f r)) m).byte a = g a := by
  induction rs generalizing m with
  | nil => simp at h
  | cons r rs ih =>
    rw [List.foldl_cons]
    by_cases hr : ∃ x ∈ rs, x.addr ≤ a ∧ a < x.addr + (f x).length
    · exact ih _ (fun x hx => hf x (List.mem_cons_of_mem _ hx)) hr
    · have hn : ∀ x ∈ rs, a < x.addr ∨ x.addr + (f x).length ≤ a := fun x hx => by
        by_contra hc
        exact hr ⟨x, hx, by omega, by omega⟩
      obtain ⟨x, hx, h₁, h₂⟩ := h
      rcases List.mem_cons.1 hx with rfl | hx
      · have hb := Mem.byte_write_of_mem m x.addr (f x) (a - x.addr) (by omega)
        rw [Nat.add_sub_cancel' h₁] at hb
        rw [byte_fold_of_notin _ _ _ _ hn, hb, hf x List.mem_cons_self, Nat.add_sub_cancel' h₁]
      · exact absurd ⟨x, hx, h₁, h₂⟩ hr

/-- Abandoning a command leaves the free value of each byte of its output ranges that is in DMEM
(70_reset_and_hazards.md R801; log 7). -/
theorem State.abandon_byte_of_mem (s : State) (a : Nat) (ha : a < s.params.dmemBytes)
    (h : ∃ r ∈ s.outputRanges, r.addr ≤ a ∧ a < r.addr + r.len) :
    Mem.byte s.abandon a = Config.abandonedByte s.freeCount a := by
  obtain ⟨r, hr, h₁, h₂⟩ := h
  exact byte_fold_of_mem _ _ (Config.abandonedByte s.freeCount) a _ (fun r _ i hi => by simp [abandonedBytes])
    ⟨r, hr, h₁, by rw [length_abandonedBytes]; omega⟩

/-! ### The reset input (70_reset_and_hazards.md R800) -/

/-- The pin is where it was driven. -/
@[simp] theorem State.driveReset_rstN (s : State) (high : Bool) : (s.driveReset high).rstN = high := by
  cases hs : s.rstN <;> cases high <;> simp [State.driveReset, hs]

/-- Everything a level of `rst_n` can do: nothing, where it is high and stays high; else the reset. -/
theorem State.driveReset_cases (s : State) (high : Bool) :
    (s.rstN = true ∧ high = true ∧ s.driveReset high = s) ∨
    ((s.rstN = false ∨ high = false) ∧ s.driveReset high = { s.resetEngine with rstN := high }) := by
  cases hs : s.rstN <;> cases high <;> simp [State.driveReset, hs]

/-- A reset keeps the canonical form. -/
theorem State.resetEngine_wf (s : State) (h : s.dmem.wf) : s.resetEngine.dmem.wf := by
  rw [State.resetEngine_dmem]
  split
  · exact s.abandon_wf h
  · exact h

theorem State.driveReset_wf (s : State) (high : Bool) (h : s.dmem.wf) : (s.driveReset high).dmem.wf := by
  rcases s.driveReset_cases high with ⟨-, -, e⟩ | ⟨-, e⟩
  · rw [e]; exact h
  · rw [e]; exact s.resetEngine_wf h

/-- Everything a host write can do. -/
theorem State.hostWrite_cases (s : State) (off size : Nat) (v : Word) :
    (s.rstN = true ∧ s.hostWrite off size v = s.busWrite off size v) ∨
    (s.rstN = false ∧ s.hostWrite off size v = s) := by
  cases hs : s.rstN <;> simp [State.hostWrite, hs]

/-- Everything a host read can do. -/
theorem State.hostRead_cases (s : State) (off size : Nat) :
    (s.rstN = true ∧ s.hostRead off size = s.busRead off size) ∨
    (s.rstN = false ∧ s.hostRead off size = { s with rdata := (s.busRead off size).rdata }) := by
  cases hs : s.rstN <;> simp [State.hostRead, hs]

end Sys2Proof.Machine
end

