-- ==== Sys2Proof/Laws/Cipher.lean ====
section
/-! SUPPORT. The lengths the cipher commands rely on: a stream cipher's output is no longer than its input, and the tag and
the bytes of a block number 16. -/

namespace Sys2Proof.Machine

theorem length_xorBytes (xs ys : List Byte) : (xorBytes xs ys).length = min xs.length ys.length := by
  simp [xorBytes]

@[simp] theorem length_blockBytes (x : Block) : (blockBytes x).length = 16 := by simp [blockBytes]

/-- Pieces put together are the bytes they were cut from. -/
theorem flatten_pieces (size m : Nat) (bs : List Byte) : (pieces size m bs).flatten = bs.take (m * size) := by
  induction m generalizing bs with
  | zero => simp [pieces]
  | succ m ih =>
    rw [pieces, List.flatten_cons, ih, ← List.take_add]
    congr 1
    rw [Nat.succ_mul, Nat.add_comm]

theorem length_gctrFrom_le (keys : List (List Byte)) (xs : List (List Byte)) (cb : Block) :
    (gctrFrom keys cb xs).length ≤ xs.flatten.length := by
  induction xs generalizing cb with
  | nil => simp [gctrFrom]
  | cons x xs ih =>
    have := ih (inc32 cb)
    simp only [gctrFrom, List.length_append, List.flatten_cons, length_xorBytes]
    omega

theorem length_gctr_le (keys : List (List Byte)) (icb : Block) (x : List Byte) :
    (gctr keys icb x).length ≤ x.length := by
  refine (length_gctrFrom_le keys _ icb).trans ?_
  rw [flatten_pieces, List.length_take]
  omega

theorem length_gcmTag_le (keys : List (List Byte)) (iv c : List Byte) : (gcmTag keys iv c).length ≤ 16 := by
  refine (length_gctr_le _ _ _).trans ?_
  simp

/-- Encryption writes at most 16 bytes more than the plaintext. -/
theorem length_gcmEnc_le (k iv p : List Byte) : (gcmEnc k iv p).length ≤ p.length + 16 := by
  simp only [gcmEnc, List.length_append]
  have h1 := length_gctr_le (roundKeys k) (inc32 (preCounter iv)) p
  have h2 := length_gcmTag_le (roundKeys k) iv (gctr (roundKeys k) (inc32 (preCounter iv)) p)
  omega

/-- Decryption gives at most what the tag leaves of the ciphertext. -/
theorem length_gcmPlain_le (k iv ct : List Byte) : (gcmPlain k iv ct).length ≤ ct.length - 16 := by
  refine (length_gctr_le _ _ _).trans ?_
  simp [splitTag]

end Sys2Proof.Machine
end

