-- ==== Sys2Proof/Laws/Codec.lean ====
section
/-! SUPPORT. Hex text, tokens, records and digests: their lengths, and that reading hex undoes writing it. -/

namespace Sys2Proof.Machine

theorem unhex2_hex2 (b : Byte) : unhex2 (hexchar (b.extractLsb' 4 4)) (hexchar (b.extractLsb' 0 4)) = b := by
  have : ∀ b : Byte, unhex2 (hexchar (b.extractLsb' 4 4)) (hexchar (b.extractLsb' 0 4)) = b := by decide +kernel
  exact this b

theorem ishex_hexchar (d : BitVec 4) : ishex (hexchar d) = true := by
  have : ∀ d : BitVec 4, ishex (hexchar d) = true := by decide
  exact this d

theorem hexhex_cons (b : Byte) (bs : List Byte) :
    hexhex (b :: bs) = hexchar (b.extractLsb' 4 4) :: hexchar (b.extractLsb' 0 4) :: hexhex bs := rfl

@[simp] theorem length_hexhex (bs : List Byte) : (hexhex bs).length = 2 * bs.length := by
  induction bs with
  | nil => rfl
  | cons b bs ih => rw [hexhex_cons]; simp only [List.length_cons, ih]; omega

@[simp] theorem unhex_hexhex (bs : List Byte) : unhex (hexhex bs) = bs := by
  induction bs with
  | nil => rfl
  | cons b bs ih => rw [hexhex_cons, unhex, ih, unhex2_hex2]

theorem all_ishex_hexhex (bs : List Byte) : (hexhex bs).all ishex = true := by
  induction bs with
  | nil => rfl
  | cons b bs ih => rw [hexhex_cons]; simp [ishex_hexchar, ih]

/-- Two hex digits make one byte. -/
theorem length_unhex (n : Nat) (cs : List Byte) (h : cs.length = 2 * n) : (unhex cs).length = n := by
  induction n generalizing cs with
  | zero => rw [List.length_eq_zero_iff.1 h]; rfl
  | succ n ih =>
    match cs, h with
    | [], h => simp at h
    | [_], h => simp at h; omega
    | _ :: _ :: cs, h =>
      rw [unhex, List.length_cons, ih cs (by simp only [List.length_cons] at h; omega)]

/-- A token is the bit length, two digits of the index and two digits a value (43_share_codec.md R500). -/
theorem length_encodefn (r : List Byte) : (encodefn r).length = 3 + 2 * (r.length - 2) := by
  simp [encodefn, hex2]; omega

/-- What decoding accepts is a record of L + 2 bytes (43_share_codec.md R501). -/
theorem length_of_decodefn {tok r : List Byte} {L : Nat} (h : decodefn tok L = .ok r) : r.length = L + 2 := by
  unfold decodefn at h
  split_ifs at h with h1 h2 h3 h4
  cases h
  rw [List.length_cons, length_unhex (L + 1) _ (by rw [List.length_drop]; omega)]

/-- A record has the bit length, the index and one value a secret byte (42_shamir.md R472). -/
theorem length_shareRecord (secret : List Byte) (t : Nat) (a : List Byte) (i : Nat) :
    (shareRecord secret t a i).length = secret.length + 2 := by
  simp [shareRecord]

@[simp] theorem length_splitfn (secret : List Byte) (n t : Nat) (a : List Byte) :
    (splitfn secret n t a).length = n := by
  simp [splitfn]

theorem length_of_mem_splitfn {secret : List Byte} {n t : Nat} {a r : List Byte} (h : r ∈ splitfn secret n t a) :
    r.length = secret.length + 2 := by
  simp only [splitfn, List.mem_map] at h
  obtain ⟨i, -, rfl⟩ := h
  exact length_shareRecord secret t a i

@[simp] theorem length_combinefn (L : Nat) (recs : List (List Byte)) : (combinefn L recs).length = L := by
  simp [combinefn]

@[simp] theorem length_sha256 (m : List Byte) : (sha256 m).length = 32 := rfl

end Sys2Proof.Machine
end

