-- ==== Sys2Proof/Laws/Decode.lean ====
section
/-! SUPPORT. The fields of a command word: taking them apart and putting them together are inverse, and a word selects a row
of the opcode map just where its opcode and the fields its form wants to be 0 say so. -/

namespace Sys2Proof

/-- The bits of a word, field by field. -/
theorem getLsbD_wordOf (f : Fields) (i : Nat) :
    (wordOf f).getLsbD i =
      if i < 8 then f.opc.getLsbD i else if i < 12 then f.rd.getLsbD (i - 8) else if i < 16 then f.rs1.getLsbD (i - 12)
      else if i < 20 then f.rs2.getLsbD (i - 16) else if i < 24 then f.rs3.getLsbD (i - 20) else f.rsv.getLsbD (i - 24) := by
  show BitVec.getLsbD (w := 8 + 4 + 4 + 4 + 4 + 8) (f.rsv ++ f.rs3 ++ f.rs2 ++ f.rs1 ++ f.rd ++ f.opc) i = _
  simp only [BitVec.getLsbD_append, Nat.sub_sub]
  split_ifs <;> first | rfl | omega

@[simp] theorem fieldsOf_wordOf (f : Fields) : fieldsOf (wordOf f) = f := by
  obtain ⟨rsv, rs3, rs2, rs1, rd, opc⟩ := f
  simp only [fieldsOf, Fields.mk.injEq]
  refine ⟨?_, ?_, ?_, ?_, ?_, ?_⟩ <;>
  · apply BitVec.eq_of_getLsbD_eq
    intro i hi
    rw [BitVec.getLsbD_extractLsb', getLsbD_wordOf]
    split_ifs <;> first | omega | (simp [hi])

@[simp] theorem wordOf_fieldsOf (w : Word) : wordOf (fieldsOf w) = w := by
  apply BitVec.eq_of_getLsbD_eq
  intro i hi
  rw [getLsbD_wordOf]
  simp only [fieldsOf, BitVec.getLsbD_extractLsb']
  split_ifs <;> (rw [decide_eq_true (by omega), Bool.true_and]; congr 1; omega)

theorem fieldsOf_injective (v w : Word) (h : fieldsOf v = fieldsOf w) : v = w := by
  rw [← wordOf_fieldsOf v, h, wordOf_fieldsOf]

/-- Fields of a conjunction. -/
theorem fieldsOf_and (v w : Word) :
    fieldsOf (v &&& w) =
      ⟨(fieldsOf v).rsv &&& (fieldsOf w).rsv, (fieldsOf v).rs3 &&& (fieldsOf w).rs3, (fieldsOf v).rs2 &&& (fieldsOf w).rs2,
        (fieldsOf v).rs1 &&& (fieldsOf w).rs1, (fieldsOf v).rd &&& (fieldsOf w).rd, (fieldsOf v).opc &&& (fieldsOf w).opc⟩ := by
  simp [fieldsOf, BitVec.extractLsb'_and]

/-- Fields of a match value. -/
theorem fieldsOf_opcode (o : BitVec 8) : fieldsOf (o.setWidth 32) = ⟨0, 0, 0, 0, 0, o⟩ := by
  have : o.setWidth 32 = wordOf ⟨0, 0, 0, 0, 0, o⟩ := by
    apply BitVec.eq_of_getLsbD_eq
    intro i hi
    rw [getLsbD_wordOf, BitVec.getLsbD_setWidth]
    split_ifs <;> simp [*]
    all_goals exact BitVec.getLsbD_of_ge _ _ (by omega)
  rw [this, fieldsOf_wordOf]

/-- The mask and match test of 30_encoding.md R303 says what the form table of R302 says. -/
theorem selects_iff (w : Word) (r : OpRow) :
    selects w r = true ↔ (fieldsOf w).opc = r.opc ∧ (fieldsOf w).wellFormed r.form = true := by
  obtain ⟨opc, form, build⟩ := r
  have hall8 : ∀ x : BitVec 8, x &&& 255#8 = x := by intro x; exact BitVec.and_allOnes
  have hall4 : ∀ x : BitVec 4, x &&& 15#4 = x := by intro x; exact BitVec.and_allOnes
  have key : selects w ⟨opc, form, build⟩ = true ↔ fieldsOf (w &&& formMask form) = fieldsOf (opc.setWidth 32) := by
    simp only [selects, rowMask, rowMatch, beq_iff_eq]
    exact ⟨fun h => by rw [h], fun h => fieldsOf_injective _ _ h⟩
  rw [key, fieldsOf_and, fieldsOf_opcode]
  generalize fieldsOf w = f
  cases form
  · have : fieldsOf (formMask .n) = ⟨255#8, 15#4, 15#4, 15#4, 15#4, 255#8⟩ := by decide
    rw [this]; simp [hall8, hall4, Fields.wellFormed]; tauto
  · have : fieldsOf (formMask .r1) = ⟨255#8, 15#4, 15#4, 0, 0, 255#8⟩ := by decide
    rw [this]; simp [hall8, hall4, Fields.wellFormed]; tauto
  · have : fieldsOf (formMask .r2) = ⟨255#8, 15#4, 0, 0, 0, 255#8⟩ := by decide
    rw [this]; simp [hall8, hall4, Fields.wellFormed]; tauto
  · have : fieldsOf (formMask .r3) = ⟨255#8, 0, 0, 0, 0, 255#8⟩ := by decide
    rw [this]; simp [hall8, Fields.wellFormed]; tauto
  · have : fieldsOf (formMask .b) = ⟨255#8, 15#4, 15#4, 15#4, 15#4, 255#8⟩ := by decide
    rw [this]; simp [hall8, hall4, Fields.wellFormed]; tauto

end Sys2Proof
end

