-- ==== Sys2Proof/Laws/Field.lean ====
section
/-! SUPPORT. The ROM tables and the field functions: the logarithm undoes, the exponential is never 0, and each function on
nonzero operands by one formula. -/

namespace Sys2Proof.Machine

theorem logRom_lt (a : Byte) (h : a ≠ 0) : logRom a < 255 := by
  have : ∀ a : Byte, a ≠ 0 → logRom a < 255 := by decide +kernel
  exact this a h

theorem expRom_logRom (a : Byte) (h : a ≠ 0) : expRom (logRom a) = a := by
  have : ∀ a : Byte, a ≠ 0 → expRom (logRom a) = a := by decide +kernel
  exact this a h

theorem expRom_ne_zero (i : Nat) (h : i < 255) : expRom i ≠ 0 := by
  have : ∀ i : Fin 255, expRom i.val ≠ 0 := by decide +kernel
  exact this ⟨i, h⟩

theorem gmul_of_ne_zero {a b : Byte} (ha : a ≠ 0) (hb : b ≠ 0) :
    gmul a b = expRom ((logRom a + logRom b) % 255) := if_neg (by tauto)

theorem gdiv_of_ne_zero (a : Byte) {b : Byte} (hb : b ≠ 0) : gdiv a b = some (gquot a b) := if_neg hb

theorem ginv_of_ne_zero {a : Byte} (ha : a ≠ 0) : ginv a = some (expRom ((255 - logRom a) % 255)) := if_neg ha

@[simp] theorem peval_cons (c : Byte) (cs : List Byte) (x : Byte) :
    peval (c :: cs) x = gadd (gmul (peval cs x) x) c := rfl

end Sys2Proof.Machine
end

