-- ==== Sys2Proof/Laws/PerInstr.lean ====
section
/-! SUPPORT. One statement per command about its encoding: the fields of its word are those of the opcode map, and the fields
its form does not use are 0. -/

namespace Sys2Proof.Laws.Encoding

/-- The word of a command has the command's fields, and its form allows them (30_encoding.md R301-R303). -/
def Statement (i : Instr) : Prop :=
  fieldsOf (Sys2Proof.encode i) = encodeFields i ∧ (encodeFields i).opc = opcodeOf i ∧
    (encodeFields i).wellFormed (formOf i) = true ∧ (Sys2Proof.encode i).extractLsb' 0 8 = opcodeOf i

theorem opcode_field (i : Instr) (h : (encodeFields i).opc = opcodeOf i) :
    (Sys2Proof.encode i).extractLsb' 0 8 = opcodeOf i := by
  have e : (fieldsOf (Sys2Proof.encode i)).opc = (encodeFields i).opc := by rw [Sys2Proof.encode, fieldsOf_wordOf]
  exact e.trans h

theorem nop : Statement .nop :=
  ⟨fieldsOf_wordOf _, rfl, by simp [encodeFields, formOf, Fields.wellFormed], opcode_field _ rfl⟩

theorem gadd (rd rs1 rs2 : RegNum) : Statement (.gadd rd rs1 rs2) :=
  ⟨fieldsOf_wordOf _, rfl, by simp [encodeFields, formOf, Fields.wellFormed], opcode_field _ rfl⟩

theorem gmul (rd rs1 rs2 : RegNum) : Statement (.gmul rd rs1 rs2) :=
  ⟨fieldsOf_wordOf _, rfl, by simp [encodeFields, formOf, Fields.wellFormed], opcode_field _ rfl⟩

theorem gdiv (rd rs1 rs2 : RegNum) : Statement (.gdiv rd rs1 rs2) :=
  ⟨fieldsOf_wordOf _, rfl, by simp [encodeFields, formOf, Fields.wellFormed], opcode_field _ rfl⟩

theorem gpow (rd rs1 rs2 : RegNum) : Statement (.gpow rd rs1 rs2) :=
  ⟨fieldsOf_wordOf _, rfl, by simp [encodeFields, formOf, Fields.wellFormed], opcode_field _ rfl⟩

theorem ginv (rd rs1 : RegNum) : Statement (.ginv rd rs1) :=
  ⟨fieldsOf_wordOf _, rfl, by simp [encodeFields, formOf, Fields.wellFormed], opcode_field _ rfl⟩

theorem geval (rd rs1 rs2 rs3 : RegNum) : Statement (.geval rd rs1 rs2 rs3) :=
  ⟨fieldsOf_wordOf _, rfl, by simp [encodeFields, formOf, Fields.wellFormed], opcode_field _ rfl⟩

theorem split : Statement .split :=
  ⟨fieldsOf_wordOf _, rfl, by simp [encodeFields, formOf, Fields.wellFormed], opcode_field _ rfl⟩

theorem combine : Statement .combine :=
  ⟨fieldsOf_wordOf _, rfl, by simp [encodeFields, formOf, Fields.wellFormed], opcode_field _ rfl⟩

theorem encode : Statement .encode :=
  ⟨fieldsOf_wordOf _, rfl, by simp [encodeFields, formOf, Fields.wellFormed], opcode_field _ rfl⟩

theorem decode : Statement .decode :=
  ⟨fieldsOf_wordOf _, rfl, by simp [encodeFields, formOf, Fields.wellFormed], opcode_field _ rfl⟩

theorem aenc : Statement .aenc :=
  ⟨fieldsOf_wordOf _, rfl, by simp [encodeFields, formOf, Fields.wellFormed], opcode_field _ rfl⟩

theorem adec : Statement .adec :=
  ⟨fieldsOf_wordOf _, rfl, by simp [encodeFields, formOf, Fields.wellFormed], opcode_field _ rfl⟩

theorem hash : Statement .hash :=
  ⟨fieldsOf_wordOf _, rfl, by simp [encodeFields, formOf, Fields.wellFormed], opcode_field _ rfl⟩

theorem vseal : Statement .vseal :=
  ⟨fieldsOf_wordOf _, rfl, by simp [encodeFields, formOf, Fields.wellFormed], opcode_field _ rfl⟩

theorem vopen : Statement .vopen :=
  ⟨fieldsOf_wordOf _, rfl, by simp [encodeFields, formOf, Fields.wellFormed], opcode_field _ rfl⟩

end Sys2Proof.Laws.Encoding
end

