-- ==== Sys2Proof/Laws/Turns.lean ====
section
/-! SUPPORT. Everything one turn of VSEAL or VOPEN can do, from any state: one alternative per edge of the FSM
(46_vault_fsm.md R601, R603, R604). -/

namespace Sys2Proof.Machine

/-- The FSM states VSEAL works in after DISPATCH. -/
def sealStates : List Fsm := [.sealKeygen, .sealEncrypt, .sealDigest, .sealSplit, .sealScrub, .sealEncode]

/-- The FSM states VOPEN works in after DISPATCH. -/
def openStates : List Fsm := [.openDecode, .openIvCheck, .openCombine, .openAuth, .openDecrypt, .openDigest]

/-- A turn of VSEAL. -/
theorem turnVseal_cases (s : State) :
    (s.fsm = .sealKeygen ∧
      turnVseal s = drawThen (leftKeyIv s) putKeyIv (fun s => .more { sealKeygen s with fsm := .sealEncrypt }) s) ∨
    (s.fsm = .sealEncrypt ∧ turnVseal s = .more { sealEncrypt s with fsm := .sealDigest }) ∨
    (s.fsm = .sealDigest ∧ turnVseal s = .more { sealDigest s with fsm := .sealSplit }) ∨
    (s.fsm = .sealSplit ∧
      turnVseal s = drawThen (leftSeal s) putCoef (fun s => .more { sealSplit s with fsm := .sealScrub }) s) ∨
    (s.fsm = .sealScrub ∧ turnVseal s = .more { s with keyBuf := [], coefBuf := [], fsm := .sealEncode }) ∨
    (s.fsm = .sealEncode ∧ turnVseal s = .ends ((sealEncode s).succeedWith (s.arg 2 + 16))) ∨
    (s.fsm ∉ sealStates ∧ ∃ e, checkAll (splitParams (s.arg 3) (s.arg 4)) s (rangesVseal s) = some e ∧
      turnVseal s = .ends (s.fail e)) ∨
    (s.fsm ∉ sealStates ∧ checkAll (splitParams (s.arg 3) (s.arg 4)) s (rangesVseal s) = none ∧
      turnVseal s = .more { s with fsm := .sealKeygen }) := by
  rcases dispatchTo_cases .sealKeygen (checkAll (splitParams (s.arg 3) (s.arg 4)) s (rangesVseal s)) s with
    ⟨e, hc, hd⟩ | ⟨hc, hd⟩
  all_goals
    rw [hc] at hd
    cases hf : s.fsm <;> simp only [turnVseal, hf, hc, reduceCtorEq, false_and, true_and, false_or] <;>
    simp [goTo, sealScrub, sealStates, hd]

/-- A turn of VOPEN. -/
theorem turnVopen_cases (s : State) :
    (s.fsm = .openDecode ∧ turnVopen s = openDecode s) ∨
    (s.fsm = .openIvCheck ∧ turnVopen s = openIvCheck s) ∨
    (s.fsm = .openCombine ∧ turnVopen s = openCombine s) ∨
    (s.fsm = .openAuth ∧ turnVopen s = openAuth s) ∨
    (s.fsm = .openDecrypt ∧ turnVopen s = .more { openDecrypt s with fsm := .openDigest }) ∨
    (s.fsm = .openDigest ∧ turnVopen s = openDigest s) ∨
    (s.fsm ∉ openStates ∧ ∃ e, checkAll (paramsVopen s) s (rangesVopen s) = some e ∧ turnVopen s = .ends (s.fail e)) ∨
    (s.fsm ∉ openStates ∧ checkAll (paramsVopen s) s (rangesVopen s) = none ∧
      turnVopen s = .more { s with fsm := .openDecode }) := by
  rcases dispatchTo_cases .openDecode (checkAll (paramsVopen s) s (rangesVopen s)) s with ⟨e, hc, hd⟩ | ⟨hc, hd⟩
  all_goals
    rw [hc] at hd
    cases hf : s.fsm <;> simp only [turnVopen, hf, hc, reduceCtorEq, false_and, true_and, false_or] <;>
    simp [goTo, openStates, hd]

/-- Every error of VOPEN after DISPATCH leaves the state as error completion of the state before it: its work has touched
only hidden buffers, which completion scrubs. -/
theorem openDecode_cases (s : State) :
    (∃ e, openDecode s = .ends (s.fail e)) ∨
    ∃ recs, decodeTokens 0 ((tokenEntries s).map (fun e => s.memRead e.1 e.2)) = .ok recs ∧
      openDecode s = .more { s with shareBuf := recs, fsm := .openIvCheck } := by
  rw [openDecode]
  cases h : decodeTokens 0 ((tokenEntries s).map (fun e => s.memRead e.1 e.2)) with
  | error e => exact .inl ⟨e, rfl⟩
  | ok recs => exact .inr ⟨recs, rfl, rfl⟩

theorem openIvCheck_cases (s : State) :
    (∃ e, openIvCheck s = .ends (s.fail e)) ∨
    ((s.memRead (s.arg 3) 24).all ishex = true ∧
      openIvCheck s = .more { s with ivBuf := unhex (s.memRead (s.arg 3) 24), fsm := .openCombine }) := by
  simp only [openIvCheck]
  cases h : (s.memRead (s.arg 3) 24).findIdx? (fun c => !ishex c) with
  | some q => exact .inl ⟨_, rfl⟩
  | none =>
    rw [List.findIdx?_eq_none_iff] at h
    exact .inr ⟨by simpa using h, rfl⟩

theorem openCombine_cases (s : State) :
    (∃ e, combineError s.shareBuf (s.arg 7) (s.arg 8) = some e ∧ openCombine s = .ends (s.fail e)) ∨
    (combineError s.shareBuf (s.arg 7) (s.arg 8) = none ∧
      openCombine s = .more { s with keyBuf := combinefn vaultL s.shareBuf, shareBuf := [], fsm := .openAuth }) := by
  rw [openCombine]
  cases h : combineError s.shareBuf (s.arg 7) (s.arg 8) with
  | some e => exact .inl ⟨e, rfl, rfl⟩
  | none => exact .inr ⟨rfl, rfl⟩

theorem openAuth_cases (s : State) :
    (∃ e, openAuth s = .ends (s.fail e)) ∨
    (16 ≤ s.arg 2 ∧ gcmVerify s.keyBuf s.ivBuf (s.memRead (s.arg 1) (s.arg 2)) = true ∧
      openAuth s = .more { s with fsm := .openDecrypt }) := by
  rw [openAuth]
  split
  · exact .inl ⟨_, rfl⟩
  · split
    · exact .inr ⟨by omega, ‹_›, rfl⟩
    · exact .inl ⟨_, rfl⟩

end Sys2Proof.Machine
end

