-- ==== Sys2Proof/Machine/HostProgram.lean ====
section
/-! DEFINITION. The notation of host programs (30_encoding.md R331) as lists of events. A program is what the host does;
the TVE runs no program (10_state.md R104). -/

namespace Sys2Proof.Machine

/-- `W off, v`. -/
def hostW (off v : Nat) : Event := .busWrite off 4 (BitVec.ofNat 32 v)

/-- `R off`. -/
def hostR (off : Nat) : Event := .busRead off 4

/-- `WB a, bytes`: one-byte writes of DMEM from address `a` on. -/
def hostWB : Nat → List Byte → List Event
  | _, [] => []
  | a, b :: bs => .busWrite (dmemBase + a) 1 (b.setWidth 32) :: hostWB (a + 1) bs

/-- `RB a, n`: one-byte reads of DMEM from address `a` on. -/
def hostRB (a n : Nat) : List Event := (List.range n).map (fun i => .busRead (dmemBase + a + i) 1)

/-- `POLL`: the engine runs until it completes (or waits for a byte), and STATUS is read. -/
def hostPoll : List Event := [.engineRun, hostR 0x010]

/-- `RUN c` with the CTRL bits 2 and 3 to keep. -/
def hostRUN (c keep : Nat) : List Event := [hostW 0x014 c, hostW 0x00C (0x1 ||| keep)] ++ hostPoll

/-- A state with a host program to come. -/
def State.withProgram (s : State) (p : List Event) : State := { s with pending := p }

end Sys2Proof.Machine
end

