-- ==== Sys2Proof/Tests/Slice0.lean ====
section
/-! SUPPORT. Tests: ill-formed words refused, words written from the encoding tables decoded, one or two runs of each command
against the vectors of 95_test_vectors.md, and for each statement with hypotheses a state that meets them. -/

namespace Sys2Proof.Tests

open Sys2Proof.Machine Sys2Proof.Safety

/-! ### Ill-formed fields (30_encoding.md R302): each check refuses one term -/

theorem test_wf_rsv : Fields.wellFormed .r3 ⟨1, 0, 0, 0, 0, 0x06⟩ = false := by decide
theorem test_wf_rs3 : Fields.wellFormed .r2 ⟨0, 1, 0, 0, 0, 0x01⟩ = false := by decide
theorem test_wf_rs2 : Fields.wellFormed .r1 ⟨0, 0, 1, 0, 0, 0x05⟩ = false := by decide
theorem test_wf_rs1 : Fields.wellFormed .b ⟨0, 0, 0, 1, 0, 0x10⟩ = false := by decide
theorem test_wf_rd : Fields.wellFormed .n ⟨0, 0, 0, 0, 1, 0x00⟩ = false := by decide
theorem test_wf_all : Fields.wellFormed .r3 ⟨0, 4, 3, 2, 1, 0x06⟩ = true := by decide

/-! ### Words written bit by bit from the pattern column of 30_encoding.md R302 and R303 -/

theorem test_decode_nop : decode 0b00000000_0000_0000_0000_0000_00000000 = .ok .nop := by decide
theorem test_decode_gadd : decode 0b00000000_0000_0011_0010_0001_00000001 = .ok (.gadd 1 2 3) := by decide
theorem test_decode_gmul : decode 0b00000000_0000_0010_0001_0011_00000010 = .ok (.gmul 3 1 2) := by decide
theorem test_decode_gdiv : decode 0b00000000_0000_1111_0000_1000_00000011 = .ok (.gdiv 8 0 15) := by decide
theorem test_decode_gpow : decode 0b00000000_0000_0111_0001_0110_00000100 = .ok (.gpow 6 1 7) := by decide
theorem test_decode_ginv : decode 0b00000000_0000_0000_0101_0100_00000101 = .ok (.ginv 4 5) := by decide
theorem test_decode_geval : decode 0b00000000_0100_0011_0010_0001_00000110 = .ok (.geval 1 2 3 4) := by decide
theorem test_decode_split : decode 0b00000000_0000_0000_0000_0000_00010000 = .ok .split := by decide
theorem test_decode_combine : decode 0b00000000_0000_0000_0000_0000_00010001 = .ok .combine := by decide
theorem test_decode_encode : decode 0b00000000_0000_0000_0000_0000_00010010 = .ok .encode := by decide
theorem test_decode_decode : decode 0b00000000_0000_0000_0000_0000_00010011 = .ok .decode := by decide
theorem test_decode_aenc : decode 0b00000000_0000_0000_0000_0000_00100000 = .ok .aenc := by decide
theorem test_decode_adec : decode 0b00000000_0000_0000_0000_0000_00100001 = .ok .adec := by decide
theorem test_decode_hash : decode 0b00000000_0000_0000_0000_0000_00100010 = .ok .hash := by decide
theorem test_decode_vseal : decode 0b00000000_0000_0000_0000_0000_00110000 = .ok .vseal := by decide
theorem test_decode_vopen : decode 0b00000000_0000_0000_0000_0000_00110001 = .ok .vopen := by decide

/-- V-ENC-2: each illegal word, by the reason R304 gives. -/
theorem test_decode_illegal :
    [0x0000_0007, 0x0000_00FF, 0x0000_0014, 0x0000_0023, 0x0000_0032].all
      (fun w => decode w == .error .reservedOpcode) = true ∧
    [0x0000_0100, 0x0100_0001, 0x0001_5405, 0x0010_1302, 0x0000_1010].all
      (fun w => decode w == .error .nonzeroReservedField) = true := by decide

/-- The masks of spec/opcode_table.json, row by row. -/
theorem test_masks :
    opRows.map rowMask = [0xFFFF_FFFF, 0xFFF0_00FF, 0xFFF0_00FF, 0xFFF0_00FF, 0xFFF0_00FF, 0xFFFF_00FF, 0xFF00_00FF]
      ++ List.replicate 9 0xFFFF_FFFF := by decide

/-- The notation of 30_encoding.md R330 and the pseudo-commands of R332. -/
theorem test_notation :
    asmText (.geval 1 2 3 4) = "GEVAL r1, r2, r3, r4" ∧ asmText .vseal = "VSEAL" ∧
    encode (pseudoGclr 7) = 0x0007_7701 ∧ pseudoGsqr 1 1 = .gmul 1 1 1 ∧ pseudoGsub 1 2 3 = .gadd 1 2 3 := by
  decide +kernel

/-! ### States to start from -/

/-- A state that START has just left: registers, bytes of DMEM, bytes on offer, and the replay pointer in replay mode. -/
def st (regs : List (RegNum × Word)) (mem : List (Nat × List Byte)) (offer : List Byte) (replay : Option Word) : State :=
  let s := mem.foldl (fun s c => s.memWrite c.1 c.2) (regs.foldl (fun s c => s.setReg c.1 c.2) State.reset)
  ({ s with entropy := offer, rngSrc := replay.isSome, rngPtr := replay.getD 0 }).start

theorem scrubbed_mem (mem : List (Nat × List Byte)) (s : State) (h : Scrubbed s) :
    Scrubbed (mem.foldl (fun s c => s.memWrite c.1 c.2) s) := by
  induction mem generalizing s with
  | nil => exact h
  | cons c mem ih => exact ih _ h

theorem scrubbed_regs (regs : List (RegNum × Word)) (s : State) (h : Scrubbed s) :
    Scrubbed (regs.foldl (fun s c => s.setReg c.1 c.2) s) := by
  induction regs generalizing s with
  | nil => exact h
  | cons c regs ih => exact ih _ h

/-- Such a state is one START leaves. -/
theorem started (regs : List (RegNum × Word)) (mem : List (Nat × List Byte)) (offer : List Byte) (replay : Option Word) :
    Started (st regs mem offer replay) :=
  { busy := rfl, dispatch := rfl, done := rfl, err := rfl, warn := rfl, errCode := rfl, errInfo := rfl
    scrubbed := scrubbed_mem mem _ (scrubbed_regs regs _ ⟨rfl, rfl, rfl, rfl⟩) }

/-- The state after one step that runs the word from a state with nothing pending. -/
def after (s : State) (w : Nat) : Option State :=
  match step (s.withFetchWord 32 w) with
  | .next t => some t
  | _ => none

/-- The same as `exec` of a command. -/
def run (i : Instr) (s : State) : Option State :=
  match exec i s with
  | .next t => some t
  | _ => none

/-- STATUS, ERRINFO and x[0] of a state. -/
def report (s : Option State) : Option (Word × Word × Word) := s.map (fun t => (t.statusWord, t.errInfo, t.reg 0))

/-- A register of a state. -/
def regOf (r : RegNum) (s : Option State) : Option Word := s.map (fun t => t.reg r)

/-- Bytes of a state. -/
def bytesOf (a n : Nat) (s : Option State) : Option (List Byte) := s.map (fun t => t.memRead a n)

def hello : List Byte := [0x68, 0x65, 0x6c, 0x6c, 0x6f, 0x20, 0x76, 0x61, 0x75, 0x6c, 0x74]

/-- The replay bytes of V-AEAD-4: the key, then the IV. -/
def keyBytes : List Byte := (List.range 32).map (BitVec.ofNat 8)
def ivBytes : List Byte := (List.range 12).map (BitVec.ofNat 8)

/-! ### GF commands (V-GF-1 to V-GF-8) -/

/-- R410, and V-ENC-3: START right after reset runs NOP and leaves DONE. -/
theorem test_nop : report (after State.reset 0) = some (0x0000_0002, 0, 0) := by decide

theorem test_gadd : regOf 3 (after (st [(1, 0x1_0057), (2, 0x83)] [] [] none) 0x0002_1301) = some 0xd4 := by decide
theorem test_gmul : regOf 3 (after (st [(1, 0x57), (2, 0x83)] [] [] none) 0x0002_1302) = some 0xc1 := by decide
theorem test_gmul_same_register : regOf 1 (after (st [(1, 0x57)] [] [] none) 0x0001_1102) = some 0xa5 := by decide
theorem test_gdiv : regOf 3 (after (st [(1, 0xC1), (2, 0x83)] [] [] none) 0x0002_1303) = some 0x57 := by decide
/-- x[rs2] = 0x100 counts as divisor 0 (R442). -/
theorem test_gdiv_zero :
    report (after (st [(1, 0xC1), (2, 0x100), (0, 7)] [] [] none) 0x0002_1003) = some (0x0000_0204, 0, 7) := by decide
theorem test_gpow : regOf 3 (after (st [(1, 2), (2, 8)] [] [] none) 0x0002_1304) = some 0x1b := by decide
/-- 2^32 - 1 is a multiple of 255 (R443). -/
theorem test_gpow_wide : regOf 3 (after (st [(1, 2), (2, 0xFFFF_FFFF)] [] [] none) 0x0002_1304) = some 1 := by decide
theorem test_ginv : regOf 4 (after (st [(5, 0x53)] [] [] none) 0x0000_5405) = some 0xca := by decide
theorem test_ginv_zero : report (after (st [(5, 0x100)] [] [] none) 0x0000_5405) = some (0x0000_0204, 0, 0) := by decide
theorem test_geval :
    regOf 1 (after (st [(2, 0x100), (3, 3), (4, 2)] [(0x100, [0x12, 0x34, 0x56])] [] none) 0x0043_2106) = some 0x39 := by
  decide
/-- V-GF-7: AddressFault with the number of the address register. -/
theorem test_geval_range :
    report (after (st [(2, 0xFF_FFFE), (3, 3)] [] [] none) 0x0043_2106) = some (0x0000_1104, 2, 0) := by decide

/-! ### Sharing and codec (V-SSS, V-CODEC) -/

def sSplit : State := st [(1, 0x100), (2, 1), (3, 3), (4, 2), (5, 0x200)] [(0x100, [0x42])] [0x05] none

/-- The example of R475. -/
theorem test_split :
    report (run .split sSplit) = some (0x0000_0002, 0, 9) ∧
    bytesOf 0x200 9 (run .split sSplit) = some [0x08, 0x01, 0x47, 0x08, 0x02, 0x48, 0x08, 0x03, 0x4d] := by
  decide +kernel
/-- V-SSS-3. -/
theorem test_split_params :
    report (run .split (st [(2, 1), (3, 3), (4, 5)] [] [] none)) = some (0x0000_0104, 0x34, 0) := by decide

def sCombine : State :=
  st [(1, 0x300), (2, 1), (3, 2), (4, 0), (5, 0x400)] [(0x300, [0x08, 0x01, 0x47, 0x08, 0x03, 0x4d])] [] none

theorem test_combine :
    report (run .combine sCombine) = some (0x0000_0002, 0, 1) ∧ bytesOf 0x400 1 (run .combine sCombine) = some [0x42] := by
  decide +kernel
/-- V-SSS-9 and C1: two records with one index are Inconsistent, not InsufficientShares. -/
theorem test_combine_duplicate :
    report (run .combine (st [(1, 0x300), (2, 1), (3, 2), (5, 0x400)] [(0x300, [8, 1, 0x47, 8, 1, 0x47])] [] none))
      = some (0x0000_0504, 1, 0) := by decide +kernel

def sEncode : State := st [(1, 0x300), (2, 1), (5, 0x400)] [(0x300, [0x08, 0x01, 0x47])] [] none

theorem test_encode :
    report (run .encode sEncode) = some (0x0000_0002, 0, 5) ∧
    bytesOf 0x400 5 (run .encode sEncode) = some [0x38, 0x30, 0x31, 0x34, 0x37] := by decide +kernel
/-- D46: a record with index 0 is MalformedShare(4). -/
theorem test_encode_index :
    report (run .encode (st [(1, 0x300), (2, 1), (5, 0x400)] [(0x300, [8, 0, 0x47])] [] none))
      = some (0x0000_0304, 4, 0) := by decide +kernel

def sDecode : State := st [(1, 0x300), (2, 5), (3, 1), (5, 0x400)] [(0x300, [0x38, 0x30, 0x31, 0x34, 0x37])] [] none

theorem test_decode_token :
    report (run .decode sDecode) = some (0x0000_0002, 0, 3) ∧
    bytesOf 0x400 3 (run .decode sDecode) = some [0x08, 0x01, 0x47] := by decide +kernel
/-- R510: a first digit 'A' fails with reason 3, not 2. -/
theorem test_decode_token_reason :
    report (run .decode (st [(1, 0x300), (2, 5), (3, 1), (5, 0x400)] [(0x300, [0x41, 0x30, 0x31, 0x34, 0x37])] [] none))
      = some (0x0000_0304, 3, 0) := by decide +kernel

/-! ### Cipher and digest (V-AEAD, V-HASH) -/

/-- V-AEAD-4: AENC in replay mode. -/
def sAenc : State :=
  st [(1, 0x1000), (2, 11), (5, 0x3000), (6, 0x4000), (7, 0x4100), (8, 0x4200)]
    [(0x1000, hello), (0x2000, keyBytes ++ ivBytes)] [] (some 0x2000)

def helloSealed : List Byte :=
  [0x2f, 0x67, 0xba, 0x77, 0xaa, 0xc5, 0xb4, 0x7a, 0xf8, 0x2d, 0xe3, 0xdd, 0xd5, 0x43, 0xc7, 0x1c,
    0x3c, 0x32, 0x9b, 0x79, 0xc5, 0xb1, 0x84, 0x81, 0xea, 0x23, 0x72]

theorem test_aenc :
    report (run .aenc sAenc) = some (0x0000_0002, 0, 27) ∧ bytesOf 0x3000 27 (run .aenc sAenc) = some helloSealed ∧
    (run .aenc sAenc).map (fun t => (t.rngPtr, t.rngCnt)) = some (0x202C, 44) := by decide +kernel
/-- V-AEAD-10: the replay range ends one byte past DMEM. -/
theorem test_aenc_replay_range :
    report (run .aenc (st [(1, 0x1000), (2, 11), (5, 0x3000), (6, 0x4000), (7, 0x4100), (8, 0x4200)] [] [] (some 0xFF_FFD5)))
      = some (0x0000_1104, 0x20, 0) := by decide +kernel

/-- V-AEAD-4 decrypted, with the ciphertext as given. -/
def sAdec (ct : List Byte) : State :=
  st [(1, 0x3000), (2, 27), (3, 0x4000), (4, 32), (5, 0x3600), (6, 0x4100), (7, 12)]
    [(0x3000, ct), (0x4000, keyBytes), (0x4100, ivBytes)] [] none

theorem test_adec :
    report (run .adec (sAdec helloSealed)) = some (0x0000_0002, 0, 11) ∧
    bytesOf 0x3600 11 (run .adec (sAdec helloSealed)) = some hello := by decide +kernel
/-- V-AEAD-5: one bit flipped; nothing is written. -/
theorem test_adec_tampered :
    report (run .adec (sAdec (0x2e :: helloSealed.drop 1))) = some (0x0000_0704, 2, 0) ∧
    (run .adec (sAdec (0x2e :: helloSealed.drop 1))).map (fun t => t.dmem.lookup 0x3600) = some none := by decide +kernel

def sHash : State := st [(1, 0x200), (2, 3), (5, 0x300)] [(0x200, [0x61, 0x62, 0x63])] [] none

theorem test_hash :
    report (run .hash sHash) = some (0x0000_0002, 0, 32) ∧
    bytesOf 0x300 4 (run .hash sHash) = some [0xba, 0x78, 0x16, 0xbf] := by decide +kernel
/-- V-HASH-5: the output overlaps the message. -/
theorem test_hash_overlap :
    report (run .hash (st [(1, 0x100), (2, 64), (5, 0x120)] [] [] none)) = some (0x0000_1204, 0x0005_0001, 0) := by
  decide +kernel

/-! ### The vault (V-VAULT-1, V-VAULT-2, V-VAULT-4, V-VAULT-15) -/

def coefBytes : List Byte := (List.range 32).map (fun i => BitVec.ofNat 8 (0xa0 + i))

def sVseal : State :=
  st [(1, 0x1000), (2, 11), (3, 3), (4, 2), (5, 0x3000), (6, 0x3100), (7, 0x3200), (8, 0x3400)]
    [(0x1000, hello), (0x2000, keyBytes ++ ivBytes ++ coefBytes)] [] (some 0x2000)

def ivHex : List Byte :=
  [0x30, 0x30, 0x30, 0x31, 0x30, 0x32, 0x30, 0x33, 0x30, 0x34, 0x30, 0x35, 0x30, 0x36, 0x30, 0x37,
    0x30, 0x38, 0x30, 0x39, 0x30, 0x61, 0x30, 0x62]

def digestHex : List Byte :=
  [0x35, 0x35, 0x65, 0x37, 0x30, 0x32, 0x63, 0x39, 0x33, 0x62, 0x64, 0x38, 0x33, 0x66, 0x35, 0x64,
    0x63, 0x31, 0x65, 0x61, 0x62, 0x64, 0x63, 0x37, 0x65, 0x30, 0x63, 0x32, 0x36, 0x38, 0x62, 0x38,
    0x61, 0x37, 0x36, 0x32, 0x36, 0x62, 0x32, 0x65, 0x38, 0x30, 0x30, 0x38, 0x61, 0x37, 0x62, 0x39,
    0x36, 0x30, 0x32, 0x33, 0x31, 0x39, 0x32, 0x65, 0x66, 0x64, 0x34, 0x30, 0x63, 0x32, 0x61, 0x34]

def token1 : List Byte := [0x38, 0x30, 0x31] ++ (List.replicate 32 [0x61, 0x30]).flatten

def token3 : List Byte :=
  [0x38, 0x30, 0x33, 0x66, 0x62, 0x66, 0x39, 0x66, 0x66, 0x66, 0x64, 0x66, 0x33, 0x66, 0x31, 0x66,
    0x37, 0x66, 0x35, 0x65, 0x62, 0x65, 0x39, 0x65, 0x66, 0x65, 0x64, 0x65, 0x33, 0x65, 0x31, 0x65,
    0x37, 0x65, 0x35, 0x64, 0x62, 0x64, 0x39, 0x64, 0x66, 0x64, 0x64, 0x64, 0x33, 0x64, 0x31, 0x64,
    0x37, 0x64, 0x35, 0x63, 0x62, 0x63, 0x39, 0x63, 0x66, 0x63, 0x64, 0x63, 0x33, 0x63, 0x31, 0x63,
    0x37, 0x63, 0x35]

theorem test_vseal :
    report (run .vseal sVseal) = some (0x0000_0002, 0, 27) ∧
    bytesOf 0x3000 27 (run .vseal sVseal) = some helloSealed ∧ bytesOf 0x3100 24 (run .vseal sVseal) = some ivHex ∧
    bytesOf 0x3200 67 (run .vseal sVseal) = some token1 ∧ bytesOf 0x3286 67 (run .vseal sVseal) = some token3 ∧
    bytesOf 0x3400 64 (run .vseal sVseal) = some digestHex ∧
    (run .vseal sVseal).map (fun t => (t.rngPtr, t.rngCnt)) = some (0x204C, 76) := by decide +kernel
/-- V-VAULT-15: output 5 is checked first, against the later outputs too. -/
theorem test_vseal_overlap :
    report (run .vseal (st
      [(1, 0x1000), (2, 11), (3, 3), (4, 2), (5, 0x3000), (6, 0x3100), (7, 0x3000), (8, 0x3400)] [] [] none))
      = some (0x0000_1204, 0x0005_0007, 0) := by decide +kernel

/-- V-VAULT-2, with the digest hex as given. -/
def sVopen (digest : List Byte) : State :=
  st [(1, 0x3000), (2, 27), (3, 0x3100), (4, 24), (5, 0x3600), (6, 0x3500), (7, 2), (8, 2), (9, 0x3400), (10, 64)]
    [(0x3000, helloSealed), (0x3100, ivHex), (0x3200, token1), (0x3286, token3), (0x3400, digest),
      (0x3500, [0x00, 0x32, 0, 0, 67, 0, 0, 0, 0x86, 0x32, 0, 0, 67, 0, 0, 0])] [] none

theorem test_vopen :
    report (run .vopen (sVopen digestHex)) = some (0x0000_0002, 0, 11) ∧
    bytesOf 0x3600 11 (run .vopen (sVopen digestHex)) = some hello := by decide +kernel
/-- V-VAULT-4: a digest that does not match sets WARN with DONE. -/
theorem test_vopen_mismatch :
    report (run .vopen (sVopen (digestHex.take 63 ++ [0x35]))) = some (0x0000_000A, 0, 11) := by decide +kernel

/-! ### The host interface (V-HOST-1 to V-HOST-3) -/

/-- PARAM at the reference size. -/
theorem test_param : (State.reset.busRead 0x008 4).rdata = 0x0003_1B18 := by decide
theorem test_little_endian :
    ((State.reset.busWrite 0x100_0100 4 0x4433_2211).busRead 0x100_0102 2).rdata = 0x4433 ∧
    (State.reset.busWrite 0x100_0100 4 0x4433_2211).memRead 0x100 4 = [0x11, 0x22, 0x33, 0x44] := by decide
/-- The refused accesses of V-HOST-2. -/
theorem test_refused :
    [(0x024, 4), (0x100_0001, 2), (0x010, 1), (0x200_0000, 4)].all
      (fun a => (State.reset.busRead a.1 a.2).statusWord == 0x10 && (State.reset.busRead a.1 a.2).rdata == 0) = true := by
  decide
/-- The notation of host programs (30_encoding.md R331): RUN writes CMD and CTRL.START, and polls. -/
theorem test_host_notation :
    hostRUN 0x0002_1302 0x4 =
      [.busWrite 0x014 4 0x0002_1302, .busWrite 0x00C 4 0x5, .engineRun, .busRead 0x010 4] ∧
    hostWB 0x10 [7, 8] = [.busWrite 0x100_0010 1 7, .busWrite 0x100_0011 1 8] ∧
    hostRB 0x10 2 = [.busRead 0x100_0010 1, .busRead 0x100_0011 1] := by decide

/-! ### Witnesses: for each statement with hypotheses, states and operands that meet them, clause by clause -/

/-- `EncodeOfDecode`. -/
theorem witness_EncodeOfDecode : decode 0x0043_2106 = .ok (.geval 1 2 3 4) := by decide

/-- A busy state with a word in CMD. -/
def busyWith (w : Word) (f : Fsm) : State := { State.reset with cmd := w, busy := true, fsm := f }

/-- `DecoderIsTotal`, `IllegalWordFails`: a reserved opcode, a nonzero reserved field, and words of every form that the
second clause tells apart. -/
theorem witness_DecoderIsTotal :
    ((busyWith 0x07 .dispatch).busy = true ∧ decode (busyWith 0x07 .dispatch).cmd = .error .reservedOpcode) ∧
    ((busyWith 0x0100_0000 .dispatch).busy = true ∧
      decode (busyWith 0x0100_0000 .dispatch).cmd = .error .nonzeroReservedField) ∧
    (∃ r ∈ opRows, r.opc = BitVec.extractLsb' 0 8 (0x0010_1302 : Word) ∧
      (fieldsOf 0x0010_1302).wellFormed r.form = false) ∧
    (∃ r ∈ opRows, r.opc = BitVec.extractLsb' 0 8 (0x000F_FF02 : Word) ∧
      (fieldsOf 0x000F_FF02).wellFormed r.form = true) := by decide

theorem witness_IllegalWordFails :
    (busyWith 0xFFFF_FFFF .dispatch).busy = true ∧
    decode (busyWith 0xFFFF_FFFF .dispatch).cmd = .error .reservedOpcode := by decide

/-- `ReservedOpcodesAreIllegal`: the ends of each range, and their neighbours outside it. -/
theorem witness_ReservedOpcodesAreIllegal :
    ([0x07, 0x0F, 0x14, 0x1F, 0x23, 0x2F, 0x32, 0xFF].all fun w => decode w == .error .reservedOpcode) = true ∧
    ([0x06, 0x10, 0x13, 0x20, 0x22, 0x30, 0x31].all fun w => (decode w).toOption.isSome) = true ∧
    decode 0 = .ok .nop := by decide

/-- `StepRunsCommandInCmd`: each clause. -/
theorem witness_StepRunsCommandInCmd :
    ((busyWith 0x22 .dispatch).busy = true ∧ (busyWith 0x22 .dispatch).pending = [] ∧
      decode (busyWith 0x22 .dispatch).cmd = .ok .hash) ∧
    ({ busyWith 0x22 .dispatch with pending := [.engineRun, .rstPin false] }.pending = [.engineRun, .rstPin false] ∧
      decode { busyWith 0x22 .dispatch with pending := [.engineRun, .rstPin false] }.cmd = .ok .hash) ∧
    (State.reset.busy = false ∧ State.reset.pending = []) := by decide

/-- `StartBeginsCommand`: with the CTRL bits clear, and with both set. -/
theorem witness_StartBeginsCommand :
    State.reset.busy = false ∧ ((1 : Word).getLsbD 0 = true ∧ (1 : Word).getLsbD 1 = false) ∧
    ((0xD : Word).getLsbD 0 = true ∧ (0xD : Word).getLsbD 1 = false ∧ (0xD : Word).getLsbD 3 = true) := by decide

/-- `CompletionIsSuccessOrError`, `IrqLevel`: a command that succeeds and one that fails. -/
theorem witness_CompletionIsSuccessOrError :
    (Started (st [] [] [] none) ∧ (run .nop (st [] [] [] none)).map (fun t => t.busy) = some false) ∧
    (run (.gdiv 1 2 3) (st [] [] [] none)).map (fun t => (t.busy, t.err)) = some (false, true) :=
  ⟨⟨started .., by decide⟩, by decide⟩

/-- `FailureAtomicity`: in DISPATCH, and in the last state that can fail. -/
theorem witness_FailureAtomicity :
    ((st [] [] [] none).err = false ∧ (run (.gdiv 1 2 3) (st [] [] [] none)).map (fun t => t.err) = some true) ∧
    ((busyWith 0x31 .openAuth).err = false ∧
      (run .vopen (busyWith 0x31 .openAuth)).map (fun t => t.err) = some true) := by decide

/-- `CommandsTerminate`: no draw needed; exactly the draws on offer; replay. -/
theorem witness_CommandsTerminate :
    (Started sHash ∧ sHash.canDraw (drawsOf .hash sHash) = true) ∧
    (Started sSplit ∧ drawsOf .split sSplit = 1 ∧ sSplit.canDraw 1 = true ∧ sSplit.canDraw 2 = false) ∧
    (Started sVseal ∧ drawsOf .vseal sVseal = 76 ∧ sVseal.canDraw 76 = true) :=
  ⟨⟨started .., by decide⟩, ⟨started .., by decide⟩, ⟨started .., by decide⟩⟩

/-- SPLIT in EXEC with one draw left, from the port or by replay. -/
def sDraw (offer : List Byte) (replay : Option Word) : State :=
  { st [(1, 0x100), (2, 1), (3, 3), (4, 2), (5, 0x200)] [(0x100, [0x42]), (0x400, [9])] offer replay with
    cmd := 0x10, fsm := .exec }

/-- `CommandsWaitForEntropy`. -/
theorem witness_CommandsWaitForEntropy :
    (sDraw [] none).busy = true ∧ decode (sDraw [] none).cmd = .ok .split ∧ (sDraw [] none).rngSrc = false ∧
    (sDraw [] none).entropy = [] ∧ 0 < drawsLeft .split (sDraw [] none) := by decide

/-- `OneDrawEachTurn`: from the port, and by replay. -/
theorem witness_OneDrawEachTurn :
    ((sDraw [5] none).busy = true ∧ decode (sDraw [5] none).cmd = .ok .split ∧
      drawsLeft .split (sDraw [5] none) = 0 + 1 ∧ (sDraw [5] none).canDraw 1 = true) ∧
    ((sDraw [] (some 0x400)).rngSrc = true ∧ drawsLeft .split (sDraw [] (some 0x400)) = 0 + 1 ∧
      (sDraw [] (some 0x400)).canDraw 1 = true) := by decide

/-- `GdivGinvResult`: a divisor of 0 and one that is not. -/
theorem witness_GdivGinvResult :
    BitVec.extractLsb' 0 8 ((st [(1, 0x100), (2, 0x1FF)] [] [] none).reg 1) = 0#8 ∧
    BitVec.extractLsb' 0 8 ((st [(1, 0x100), (2, 0x1FF)] [] [] none).reg 2) = 0xFF#8 := by decide

/-- `GevalResult`: the last legal range, the first illegal one, and the empty range beyond DMEM. -/
theorem witness_GevalResult :
    let s := st [(1, 0xFF_FFFF), (2, 1), (3, 2), (4, 0xFFFF_FFFF)] [] [] none
    s.fsm = .dispatch ∧ s.params.dmemBytes = 2 ^ 24 ∧
    checkRanges s.params.dmemBytes (rangesGeval 1 2 s) = none ∧
    checkRanges s.params.dmemBytes (rangesGeval 1 3 s) = some (.addressFault 1) ∧
    checkRanges s.params.dmemBytes (rangesGeval 4 0 s) = none := by decide

/-- `SplitResult`: passing, and each error at the bound of its range. -/
theorem witness_SplitResult :
    (Started sSplit ∧ paramsOf .split sSplit = none ∧
      checkRanges sSplit.params.dmemBytes (rangesOf .split sSplit) = none ∧ sSplit.canDraw 1 = true) ∧
    paramsOf .split (st [(2, 256), (3, 255), (4, 255)] [] [] none) = none ∧
    paramsOf .split (st [(2, 257), (3, 255), (4, 255)] [] [] none) = some (.invalidParameters 2) ∧
    paramsOf .split (st [(2, 0), (3, 2), (4, 2)] [] [] none) = some (.invalidParameters 2) ∧
    paramsOf .split (st [(2, 1), (3, 256), (4, 2)] [] [] none) = some (.invalidParameters 0x34) ∧
    paramsOf .split (st [(2, 1), (3, 2), (4, 1)] [] [] none) = some (.invalidParameters 0x34) ∧
    checkRanges (2 ^ 24) (rangesOf .split (st [(1, 0xFF_FFFF), (2, 1), (3, 2), (4, 2)] [] [] (some 0xFF_FFFF))) = none ∧
    checkRanges (2 ^ 24) (rangesOf .split (st [(1, 0xFF_FFFF), (2, 1), (3, 2), (4, 2)] [] [] (some 0x100_0000)))
      = some (.addressFault 0x20) ∧
    checkRanges (2 ^ 24) (rangesOf .split (st [(1, 5), (2, 1), (3, 2), (4, 2)] [] [] (some 6)))
      = some (.bufferOverlap 5 1) :=
  ⟨⟨started .., by decide⟩, by decide⟩

/-- `CombineResult`: passing, and each error at the bound of its range. -/
theorem witness_CombineResult :
    (Started sCombine ∧ paramsOf .combine sCombine = none ∧
      checkRanges sCombine.params.dmemBytes (rangesOf .combine sCombine) = none) ∧
    paramsOf .combine (st [(2, 256), (3, 255)] [] [] none) = none ∧
    paramsOf .combine (st [(2, 257), (3, 255)] [] [] none) = some (.invalidParameters 2) ∧
    paramsOf .combine (st [(2, 1), (3, 256)] [] [] none) = some (.invalidParameters 3) ∧
    recordErrors [[8, 1, 0], [7, 0, 0]] = some (.inconsistent 1) ∧
    recordErrors [[8, 1, 0], [8, 0, 0]] = some (.malformedShare 1 4) ∧
    combineError [[8, 1, 0], [8, 2, 0]] 2 2 = none ∧
    combineError [[8, 1, 0], [8, 1, 0]] 2 0 = some (.inconsistent 1) ∧
    combineError [[8, 1, 0]] 1 0 = some (.insufficientShares 1) ∧
    combineError [[8, 1, 0], [8, 2, 0]] 2 3 = some (.thresholdNotMet 2) :=
  ⟨⟨started .., by decide⟩, by decide⟩

/-- `EncodeResult`: passing, and the bounds of L. -/
theorem witness_EncodeResult :
    (Started sEncode ∧ paramsOf .encode sEncode = none ∧
      checkRanges sEncode.params.dmemBytes (rangesOf .encode sEncode) = none ∧ sEncode.memRead 0x300 3 = [8, 1, 0x47]) ∧
    paramsOf .encode (st [(2, 256)] [] [] none) = none ∧
    paramsOf .encode (st [(2, 257)] [] [] none) = some (.invalidParameters 2) ∧
    paramsOf .encode (st [(2, 0)] [] [] none) = some (.invalidParameters 2) :=
  ⟨⟨started .., by decide⟩, by decide⟩

/-- `DecodeResult`: passing, and each reason. -/
theorem witness_DecodeResult :
    (Started sDecode ∧ paramsOf .decode sDecode = none ∧
      checkRanges sDecode.params.dmemBytes (rangesOf .decode sDecode) = none) ∧
    paramsOf .decode (st [(3, 257)] [] [] none) = some (.invalidParameters 3) ∧
    decodefn [0x38, 0x30, 0x31, 0x34, 0x37] 1 = .ok [8, 1, 0x47] ∧
    decodefn [0x38, 0x30, 0x31, 0x34] 1 = .error 1 ∧
    decodefn [0x38, 0x30, 0x31, 0x34, 0x67] 1 = .error 2 ∧
    decodefn [0x39, 0x30, 0x31, 0x34, 0x37] 1 = .error 3 ∧
    decodefn [0x38, 0x30, 0x30, 0x34, 0x37] 1 = .error 4 ∧
    [0x2F, 0x30, 0x39, 0x3A, 0x40, 0x41, 0x46, 0x47, 0x60, 0x61, 0x66, 0x67].map hexDigit =
      [none, some 0, some 9, none, none, some 10, some 15, none, none, some 10, some 15, none] :=
  ⟨⟨started .., by decide⟩, by decide⟩

/-- `AencResult`: passing, and the first replay range past DMEM. -/
theorem witness_AencResult :
    (Started sAenc ∧ checkRanges sAenc.params.dmemBytes (rangesOf .aenc sAenc) = none ∧ sAenc.canDraw 44 = true) ∧
    checkRanges (2 ^ 24) (rangesOf .aenc (st [(5, 0x100), (6, 0x200), (7, 0x300), (8, 0x400)] [] [] (some 0xFF_FFD4))) = none ∧
    checkRanges (2 ^ 24) (rangesOf .aenc (st [(5, 0x100), (6, 0x200), (7, 0x300), (8, 0x400)] [] [] (some 0xFF_FFD5)))
      = some (.addressFault 0x20) :=
  ⟨⟨started .., by decide⟩, by decide⟩

/-- `AdecResult`: passing (with the tag), and each error at its bound. -/
theorem witness_AdecResult :
    (Started (sAdec helloSealed) ∧ paramsOf .adec (sAdec helloSealed) = none ∧
      checkRanges (2 ^ 24) (rangesOf .adec (sAdec helloSealed)) = none ∧
      gcmVerify keyBytes ivBytes helloSealed = true) ∧
    paramsOf .adec (st [(4, 31), (7, 12)] [] [] none) = some (.invalidKeyLength 31) ∧
    paramsOf .adec (st [(4, 32), (7, 13)] [] [] none) = some (.invalidNonceLength 13) ∧
    gcmVerify keyBytes ivBytes (0x2e :: helloSealed.drop 1) = false :=
  ⟨⟨started .., by decide, by decide +kernel, by decide +kernel⟩, by decide, by decide, by decide +kernel⟩

/-- `HashResult`: passing, and a message one byte past DMEM. -/
theorem witness_HashResult :
    (Started sHash ∧ checkRanges sHash.params.dmemBytes (rangesOf .hash sHash) = none) ∧
    checkRanges (2 ^ 24) (rangesOf .hash (st [(1, 0xFF_FFFF), (2, 2)] [] [] none)) = some (.addressFault 1) :=
  ⟨⟨started .., by decide⟩, by decide⟩

/-- `VsealResult`: passing with the draws it needs, and the bounds of n and t. -/
theorem witness_VsealResult :
    (Started sVseal ∧ paramsOf .vseal sVseal = none ∧
      checkRanges sVseal.params.dmemBytes (rangesOf .vseal sVseal) = none ∧ sVseal.canDraw 76 = true) ∧
    paramsOf .vseal (st [(3, 255), (4, 255)] [] [] none) = none ∧
    paramsOf .vseal (st [(3, 256), (4, 255)] [] [] none) = some (.invalidParameters 0x34) ∧
    paramsOf .vseal (st [(3, 2), (4, 3)] [] [] none) = some (.invalidParameters 0x34) :=
  ⟨⟨started .., by decide⟩, by decide⟩

/-- `VopenResult`: passing (`test_vopen` runs it), and each parameter error at its bound. -/
theorem witness_VopenResult :
    (Started (sVopen digestHex) ∧ paramsOf .vopen (sVopen digestHex) = none ∧
      checkRanges (2 ^ 24) (rangesOf .vopen (sVopen digestHex)) = none) ∧
    paramsOf .vopen (st [(4, 24), (7, 255), (10, 64)] [] [] none) = none ∧
    paramsOf .vopen (st [(4, 24), (7, 256), (10, 64)] [] [] none) = some (.invalidParameters 7) ∧
    paramsOf .vopen (st [(4, 24), (7, 255), (10, 63)] [] [] none) = some (.invalidParameters 10) ∧
    paramsOf .vopen (st [(4, 23), (7, 255), (10, 0)] [] [] none) = some (.invalidNonceLength 23) :=
  ⟨⟨started .., by decide, by decide +kernel⟩, by decide⟩

/-- The checks of VOPEN that follow: a malformed token, an IV byte that is not hex, one token, too few for the threshold, a
short ciphertext. -/
theorem witness_VopenResult_data :
    [sVopen digestHex |>.memWrite 0x3286 [0x39], sVopen digestHex |>.memWrite 0x3105 [0x67],
      (sVopen digestHex).setReg 7 1, (sVopen digestHex).setReg 8 3, (sVopen digestHex).setReg 2 15,
      sVopen digestHex |>.memWrite 0x3286 token1].map (fun s => (run .vopen s).map (fun t => (t.errCode, t.errInfo)))
    = [some (0x03, 0x0103), some (0x09, 0x0100_0005), some (0x04, 1), some (0x06, 2), some (0x07, 1), some (0x05, 1)] := by
  decide +kernel

/-- `CommandsKeepOtherState`: a command without a destination, one with, and the clauses about the source. -/
theorem witness_CommandsKeepOtherState :
    (run .nop State.reset).isSome = true ∧ destReg .nop ≠ some 0 ∧
    ((run (.gadd 1 2 3) State.reset).isSome = true ∧ destReg (.gadd 1 2 3) ≠ some 0) ∧
    ((run .hash sHash).isSome = true ∧ destReg .hash ≠ some 1 ∧ sHash.rngSrc = false) ∧
    ((run .split (sDraw [] (some 0x400))).isSome = true ∧ (sDraw [] (some 0x400)).rngSrc = true) := by decide +kernel

/-- `CommandsWriteOnlyOutputs`: the bytes next to the digest of HASH are outside its output range, its ends are inside; a
command without an output range. -/
theorem witness_CommandsWriteOnlyOutputs :
    OutputsFit sHash ∧ (run .hash sHash).isSome = true ∧
    ¬ inRanges (outputs (rangesOf .hash sHash)) 0x2FF ∧ ¬ inRanges (outputs (rangesOf .hash sHash)) 0x320 ∧
    inRanges (outputs (rangesOf .hash sHash)) 0x300 ∧ inRanges (outputs (rangesOf .hash sHash)) 0x31F ∧
    outputs (rangesOf (.geval 1 2 3 4) sHash) = [] := by
  refine ⟨⟨by decide, by decide, by decide, by decide⟩, by decide +kernel, ?_, ?_, ?_, ?_, by decide⟩ <;>
    · unfold inRanges; decide

/-- `MemoryStaysCanonical`: a step that writes DMEM. -/
theorem witness_MemoryStaysCanonical :
    State.reset.dmem.wf ∧
    (match step (State.reset.withProgram (hostWB 0 [1])) with
      | .next t => t.dmem == [(0, 1)]
      | _ => false) = true := by decide

theorem coherent_reset : Coherent State.reset := by
  constructor <;> simp [State.reset, legalErrCodes, Scrubbed]

theorem bounded_reset : Bounded State.reset :=
  { key := by decide, iv := by decide, share := by decide, count := by decide, coef := by decide, shares := by decide }

/-- A command in DISPATCH, and one whose word is that of `i` and whose parameters are legal, is checked. -/
theorem checked_of_params (s : State) (i : Instr) (hd : decode s.cmd = .ok i) (hp : paramsOf i s = none) :
    CommandChecked s := by
  intro j _ hj _
  have hij : i = j := by simpa [hd] using hj
  exact hij ▸ hp

/-- `CoherentIsKept`, `BoundedIsKept`, and the last clause of `ResetMeetsInvariants`: the reset state, which is idle, and a
step of it. -/
theorem witness_CoherentIsKept :
    Coherent State.reset ∧ Bounded State.reset ∧ CommandChecked State.reset ∧ State.reset.busy = false ∧
    step State.reset = .next State.reset :=
  ⟨coherent_reset, bounded_reset, checked_of_params _ .nop rfl rfl, rfl, rfl⟩

/-- SEAL_SPLIT of a VSEAL with 32 coefficients left, key and IV drawn, and one byte on offer. -/
def sSealSplit : State :=
  { sVseal with cmd := 0x30, fsm := .sealSplit, keyBuf := keyBytes, ivBuf := ivBytes, rngSrc := false, entropy := [0xa0] }

/-- `BoundedIsKept`, `ResumedRunIsOneRun`: VSEAL in SEAL_SPLIT, whose turn makes a draw and whose run then waits. -/
theorem witness_BoundedIsKept :
    Coherent sSealSplit ∧ Bounded sSealSplit ∧ CommandChecked sSealSplit ∧ sSealSplit.busy = true ∧
    decode sSealSplit.cmd = .ok .vseal ∧ (engineTurn sSealSplit).busy = true ∧
    (engineTurn sSealSplit).coefBuf = [0xa0] ∧ (run .vseal sSealSplit).map (fun t => t.busy) = some true := by
  refine ⟨?_, ?_, checked_of_params _ .vseal (by decide) (by decide), by decide, by decide, by decide, by decide,
    by decide +kernel⟩
  · exact { busyIff := by decide, running := by decide, exclusive := by decide, succeeded := by decide, codes := by decide,
            scrubbed := fun h => absurd h (by decide) }
  · exact { key := by decide, iv := by decide, share := by decide, count := by decide, coef := by decide,
            shares := by decide }

/-- `WorkAfterDraws`: each state it names with nothing left to draw. -/
theorem witness_WorkAfterDraws :
    (let s := { sSplit with cmd := 0x10, fsm := .exec, coefBuf := [5] };
      s.busy = true ∧ decode s.cmd = .ok .split ∧ drawsLeft .split s = 0) ∧
    (let s := { sAenc with cmd := 0x20, fsm := .exec, keyBuf := keyBytes, ivBuf := ivBytes };
      s.busy = true ∧ decode s.cmd = .ok .aenc ∧ drawsLeft .aenc s = 0) ∧
    (let s := { sSealSplit with coefBuf := coefBytes };
      s.busy = true ∧ decode s.cmd = .ok .vseal ∧ s.fsm = .sealSplit ∧ drawsLeft .vseal s = 0 ∧
      drawsLeft .vseal { s with fsm := .sealKeygen } = 0) ∧
    (let s := { sVopen digestHex with cmd := 0x31, fsm := .openDecode };
      s.busy = true ∧ decode s.cmd = .ok .vopen) := by decide +kernel

/-- The FSM codes a command shows in its turns, repeats left out, from a state on. -/
def fsmPath : Nat → State → List Byte
  | 0, _ => []
  | n + 1, s =>
    let t := engineTurn s
    if t.fsm = s.fsm then fsmPath n t else t.fsm.code :: fsmPath n t

/-- V-VAULT-5: the FSM path of a VOPEN with one token, which fails in OPEN_COMBINE. -/
theorem test_vopen_path :
    fsmPath 8 { (sVopen digestHex).setReg 7 1 with cmd := 0x31 } = [0x20, 0x21, 0x22, 0x00] := by decide +kernel

/-- `FsmFollowsPath`: at the first and the last state of each kind of path. -/
theorem witness_FsmFollowsPath :
    ([(busyWith 0x30 .dispatch, Instr.vseal), (busyWith 0x30 .sealEncode, .vseal), (busyWith 0x31 .openDecode, .vopen),
      (busyWith 0x31 .openDigest, .vopen), (busyWith 0x22 .exec, .hash)].all fun si =>
        si.1.busy && (decode si.1.cmd == .ok si.2) && (pathOf si.2).contains si.1.fsm) = true := by decide

/-- `LeavingDispatch`: an illegal word, and a command. -/
theorem witness_LeavingDispatch :
    ((busyWith 0x07 .dispatch).fsm = .dispatch ∧ decode (busyWith 0x07 .dispatch).cmd = .error .reservedOpcode) ∧
    ((busyWith 0x31 .dispatch).fsm = .dispatch ∧ decode (busyWith 0x31 .dispatch).cmd = .ok .vopen) := by decide

/-- `KeyIsScrubbedBeforeTokens`: in SEAL_SCRUB, in the states next to it, and in DISPATCH; the token range is outside the
three ranges, whose last bytes are inside. -/
theorem witness_KeyIsScrubbedBeforeTokens :
    ([Fsm.sealScrub, .sealSplit, .sealEncode, .dispatch].all fun f =>
      (busyWith 0x30 f).busy && (decode (busyWith 0x30 f).cmd == .ok .vseal)) = true ∧
    sSealSplit.ivBuf.length ≤ 12 ∧
    (let ranges : List Range := [⟨.output, 5, sSealSplit.arg 5, sSealSplit.arg 2 + 16⟩, ⟨.output, 6, sSealSplit.arg 6, 24⟩,
      ⟨.output, 8, sSealSplit.arg 8, 64⟩];
    ¬ inRanges ranges 0x3200 ∧ ¬ inRanges ranges 0x301B ∧ inRanges ranges 0x301A ∧ inRanges ranges 0x3117 ∧
    inRanges ranges 0x343F) := by
  refine ⟨by decide, by decide, ?_⟩
  unfold inRanges
  decide

/-- `FirstIllegalRangeDecides`: an empty range far beyond DMEM, a range that ends with DMEM, then one byte more. -/
theorem witness_FirstIllegalRangeDecides :
    (∀ x ∈ [(⟨.input, 1, 0xFFFF_FFFF, 0⟩ : Range), ⟨.input, 2, 0xFFFF, 1⟩], x.len = 0 ∨ x.addr + x.len ≤ 2 ^ 16) ∧
    (⟨.input, 3, 0xFFFF, 2⟩ : Range).len ≠ 0 ∧
    2 ^ 16 < (⟨.input, 3, 0xFFFF, 2⟩ : Range).addr + (⟨.input, 3, 0xFFFF, 2⟩ : Range).len := by decide

/-- `FirstOverlapDecides`: output 5 touches nothing (its neighbours only meet it), output 6 meets input 1 in one byte. -/
theorem witness_FirstOverlapDecides :
    let i1 : Range := ⟨.input, 1, 0, 16⟩
    let o5 : Range := ⟨.output, 5, 16, 16⟩
    let o6 : Range := ⟨.output, 6, 15, 1⟩
    let overlap : Range → Range → Prop := fun y z =>
      0 < y.len ∧ 0 < z.len ∧ y.addr < z.addr + z.len ∧ z.addr < y.addr + y.len
    (∀ y ∈ [i1, o5, o6], y.len = 0 ∨ y.addr + y.len ≤ 2 ^ 16) ∧ outputs [i1, o5, o6] = [o5] ++ o6 :: [] ∧
    inputs [i1, o5, o6] ++ [] = [] ++ i1 :: [] ∧
    (∀ p y q, [o5] = p ++ y :: q → ∀ z ∈ inputs [i1, o5, o6] ++ (q ++ o6 :: []), ¬ overlap y z) ∧ overlap o6 i1 := by
  intro i1 o5 o6 overlap
  refine ⟨by decide, by decide, by decide, fun p y q h z hz => ?_, by decide⟩
  match p, h with
  | [], h =>
    simp only [List.nil_append, List.cons.injEq] at h
    obtain ⟨rfl, rfl⟩ := h
    have hall : ∀ z ∈ inputs [i1, o5, o6] ++ ([] ++ o6 :: []), ¬ overlap o5 z := by decide
    exact hall z hz
  | _ :: p, h => simp at h

/-- `FirstOverlapDecides`, the last clause: an output between two inputs that overlap each other. -/
theorem witness_FirstOverlapDecides_none :
    let rs : List Range := [⟨.input, 1, 0, 16⟩, ⟨.input, 2, 8, 8⟩, ⟨.output, 5, 16, 16⟩]
    (∀ y ∈ rs, y.len = 0 ∨ y.addr + y.len ≤ 2 ^ 16) ∧ outputs rs = [⟨.output, 5, 16, 16⟩] ∧
    ∀ z ∈ inputs rs ++ [], (⟨.output, 5, 16, 16⟩ : Range).overlaps z = false := by decide

/-- `DmemWindow`: the last byte, half word and word of DMEM. -/
theorem witness_DmemWindow :
    State.reset.busy = false ∧
    ([(0xFF_FFFF, 1), (0xFF_FFFE, 2), (0xFF_FFFC, 4)].all fun a =>
      (a.2 == 1 || a.2 == 2 || a.2 == 4) && a.1 % a.2 == 0 && a.1 + a.2 == State.reset.params.dmemBytes) = true := by decide

/-- `RegisterWindow`. -/
theorem witness_RegisterWindow : State.reset.busy = false ∧ (0x040 + 4 * (15 : RegNum).val = 0x07C) := by decide

/-- `RefusedAccess`: reserved offsets at the ends of the gaps, wrong widths, misaligned, and past the end of DMEM. -/
theorem witness_RefusedAccess :
    ([(0x024, 4), (0x03C, 4), (0x080, 4), (0x0FFC, 4), (0x1000, 4), (0xFF_FFFC, 4), (0x010, 2), (0x011, 4),
      (0x100_0001, 2), (0x100_0002, 4), (0x200_0000, 1), (0x1FF_FFFF, 2), (0x100_0000, 3), (0x100_0000, 0)].all fun a =>
        decide (¬ (a.2 = 4 ∧ a.1 % 4 = 0 ∧ (a.1 < 0x024 ∨ (0x040 ≤ a.1 ∧ a.1 < 0x080))) ∧
          ¬ (0x100_0000 ≤ a.1 ∧ (a.2 = 1 ∨ a.2 = 2 ∨ a.2 = 4) ∧ (a.1 - 0x100_0000) % a.2 = 0 ∧
            a.1 - 0x100_0000 + a.2 ≤ State.reset.params.dmemBytes))) = true := by decide

/-- `BusyRefusal`: the first and last offset of each clause. -/
theorem witness_BusyRefusal :
    (busyWith 0 .exec).busy = true ∧
    ([0x014, 0x01C, 0x040, 0x07F, 0x100_0000].all fun off =>
      decide (0x100_0000 ≤ off ∨ off = 0x014 ∨ off = 0x01C ∨ (0x040 ≤ off ∧ off < 0x080))) = true := by decide

/-- `IrqLevel`: the clauses on writes. -/
theorem witness_IrqLevel :
    ((6 : Word).getLsbD 1 = true ∧ (6 : Word).getLsbD 2 = true) ∧ (7 : Word).getLsbD 3 = false ∧
    { State.reset with irqEn := true, done := true }.irq = true ∧ State.reset.irq = false := by decide

/-- HASH running, with an output range to abandon. -/
def sAbandon : State := { sHash with cmd := 0x22, fsm := .exec }

/-- `ResetValues`: each kind of reset, idle and running; the bytes next to the output range. -/
theorem witness_ResetValues :
    (handle (.rstPin false) sAbandon = .next (sAbandon.driveReset false) ∧ (sAbandon.driveReset false).rstN = false) ∧
    ((sAbandon.driveReset false).driveReset true).rstN = true ∧
    (2 : Word).getLsbD 1 = true ∧
    State.reset.rstN = true ∧ State.reset.busy = false ∧ sAbandon.busy = true ∧
    ¬ inRanges sAbandon.outputRanges 0x2FF ∧ ¬ inRanges sAbandon.outputRanges 0x320 ∧
    inRanges sAbandon.outputRanges 0x300 ∧ inRanges sAbandon.outputRanges 0x31F := by
  refine ⟨⟨rfl, rfl⟩, rfl, by decide, rfl, by decide, by decide, ?_, ?_, ?_, ?_⟩ <;>
    · unfold inRanges; decide

/-- The engine held in reset, with events to come. -/
def heldWith (p : List Event) : State := { State.reset.driveReset false with pending := p }

theorem resetHeld_heldWith (p : List Event) : ResetHeld (heldWith p) :=
  { regs := fun r => (show (heldWith p).reg r = State.reset.reg r from rfl).trans (by revert r; decide)
    rngSrc := rfl, irqEn := rfl
    status := (show (heldWith p).statusWord = State.reset.statusWord from rfl).trans (by decide)
    cmd := rfl, errInfo := rfl, rngPtr := rfl
    rngCnt := rfl, scrubbed := ⟨rfl, rfl, rfl, rfl⟩, fsm := rfl, irq := rfl, rngReady := rfl }

/-- `ResetValues`, held in reset: under a START, a DMEM write, a read, a byte on offer, and the rise of `rst_n`. -/
theorem witness_ResetValues_low (p : List Event) : ResetHeld (heldWith p) ∧ (heldWith p).rstN = false :=
  ⟨resetHeld_heldWith p, rfl⟩

/-- R800: under `rst_n` low a START, a write of DMEM and a refused write leave STATUS, DMEM and the pin as they are. -/
theorem test_held_in_reset :
    ([.busWrite 0x00C 4 1, .busWrite 0x100_0010 1 7, .busWrite 0x024 4 7].all fun e =>
      match step (heldWith [e]) with
      | .next t => t == heldWith []
      | _ => false) = true := by decide

/-- R800: after `rst_n` has risen the host reaches the engine again. -/
theorem test_reset_rises :
    (match step (heldWith [.rstPin true]) with
      | .next t => t == State.reset
      | _ => false) = true := by decide

/-- `FieldLaws`, `PevalIsSum`: nonzero operands, and a nonempty polynomial. -/
theorem witness_FieldLaws : (0x53 : Byte) ≠ 0 ∧ ginv 0x53 = some 0xca ∧ 1 ≤ 1 ∧ [(0 : Byte)] ≠ [] := by decide

/-- The clauses on functions in `SplitResult`, `CombineResult`, `EncodeResult` and `SboxAndExamples`: V-SSS-6, whose t = 3
coefficients have an order, its COMBINE of two records, and lengths that the clauses ask for. -/
theorem witness_functions :
    ([0x11, 0x22, 0x33, 0x44] : List Byte).length = ([0x42, 0x99] : List Byte).length * (3 - 1) ∧
    splitfn [0x42, 0x99] 4 3 [0x11, 0x22, 0x33, 0x44] =
      [[8, 1, 0x71, 0xee], [8, 2, 0xe8, 0xf4], [8, 3, 0xdb, 0x83], [8, 4, 0x10, 0x79]] ∧
    ([[8, 1, 0x71, 0xee], [8, 2, 0xe8, 0xf4]].map (fun r : List Byte => r.getD 1 0)).Nodup ∧
    combinefn 2 [[8, 1, 0x71, 0xee], [8, 2, 0xe8, 0xf4]] = [0x06, 0x11] ∧
    hexText [0xa0, 0x9f] = [0x61, 0x30, 0x39, 0x66] ∧
    counterBlock (List.replicate 12 7 ++ [0xff, 0xff, 0xff, 0xfe]) 3 = List.replicate 12 7 ++ [0, 0, 0, 1] ∧
    (keyBytes.length = 32 ∧ (ivBytes ++ [0, 0, 0, 1]).length = 16 ∧ ivBytes.length = 12) := by decide +kernel

/-- `CombineInvertsSplit`: records 3 and 1 of the split of R475, and a threshold equal to n. -/
theorem witness_CombineInvertsSplit :
    let recs : List (List Byte) := [[8, 3, 0x4d], [8, 1, 0x47]]
    2 ≤ 2 ∧ 2 ≤ 3 ∧ 3 ≤ 255 ∧ [(5 : Byte)].length = [(0x42 : Byte)].length * (2 - 1) ∧ recs.Nodup ∧
    (∀ r ∈ recs, r ∈ splitfn [0x42] 3 2 [5]) ∧ 2 ≤ recs.length := by decide +kernel

/-- `CodecRoundTrip`: a record, and a token with upper case digits. -/
theorem witness_CodecRoundTrip :
    ([8, 1, 0x47] : List Byte).length = 1 + 2 ∧ ([8, 1, 0x47] : List Byte).getD 0 0 = 8 ∧
    ([8, 1, 0x47] : List Byte).getD 1 0 ≠ 0 ∧ decodefn [0x38, 0x30, 0x41, 0x46, 0x61] 1 = .ok [8, 0x0a, 0xfa] := by decide

/-- `GcmRoundTrip`; and V-AEAD-5 and V-AEAD-6, which are refused. -/
theorem witness_GcmRoundTrip :
    keyBytes.length = 32 ∧ ivBytes.length = 12 ∧ gcmEnc keyBytes ivBytes hello = helloSealed ∧
    gcmDec keyBytes ivBytes (0x2e :: helloSealed.drop 1) = none ∧
    gcmDec keyBytes ivBytes (helloSealed.take 26 ++ [0xf2]) = none := by decide +kernel

/-- `VaultRoundTrip`: tokens 3 and 1 of V-VAULT-1. -/
theorem witness_VaultRoundTrip :
    keyBytes.length = 32 ∧ ivBytes.length = 12 ∧ coefBytes.length = 32 * (2 - 1) ∧ 2 ≤ 2 ∧ 2 ≤ 3 ∧ 3 ≤ 255 ∧
    [token3, token1].Nodup ∧ (∀ x ∈ [token3, token1], x ∈ (splitfn keyBytes 3 2 coefBytes).map encodefn) ∧
    2 ≤ [token3, token1].length := by decide +kernel

end Sys2Proof.Tests
end

section
/-! What one turn of any command can do, said once (`turnShape_turnOf`), and what a turn, and so a command, leaves alone. -/

namespace Sys2Proof.Machine

open Sys2Proof.Safety

/-! ### Commands as runs of turns -/

/-- Every command is a run of its turns (40_command_lifecycle.md R412). -/
theorem exec_eq_runCommand (i : Instr) (s : State) : exec i s = runCommand (turnOf i) s := by
  cases i <;> rfl

theorem State.command_eq_some {s : State} {i : Instr} : s.command = some i ↔ decode s.cmd = .ok i := by
  unfold State.command
  cases decode s.cmd <;> simp [Except.toOption]

/-! ### What the parameter checks look at and bound -/

theorem paramsOf_eq_regs (i : Instr) (s : State) : paramsOf i s = paramsOf i { State.reset with regs := s.regs } := by
  cases i <;> rfl

/-- The parameter check of a command looks at the general registers only. -/
theorem paramsOf_of_regs_eq {s t : State} (i : Instr) (h : t.regs = s.regs) : paramsOf i t = paramsOf i s := by
  rw [paramsOf_eq_regs i t, h, ← paramsOf_eq_regs]

/-- A command that passes all checks passes the parameter check, which comes first (40_command_lifecycle.md R403). -/
theorem checkAll_param_eq_none {param : Option CmdError} {s : State} {rs : List Range}
    (h : checkAll param s rs = none) : param = none := by
  cases param with
  | none => rfl
  | some e => simp [checkAll] at h

theorem splitParams_eq_none_iff (n t : Nat) : splitParams n t = none ↔ 2 ≤ t ∧ t ≤ n ∧ n ≤ 255 := by
  simp [splitParams]

/-- SPLIT draws at most 256·254 coefficients (10_state.md R132). -/
theorem needSplit_le {s : State} (h : paramsOf .split s = none) : needSplit s ≤ 256 * 254 := by
  simp only [paramsOf, paramsSplit] at h
  split at h
  · cases h
  next hp =>
    obtain ⟨-, htn, hn⟩ := (splitParams_eq_none_iff _ _).1 hp
    split_ifs at h with hL
    have hL' : s.arg 2 ≤ 256 := by
      simp only [legalLength, Bool.and_eq_true, decide_eq_true_eq] at hL
      exact hL.2
    exact Nat.mul_le_mul hL' (by omega)

/-- VSEAL draws at most 32·254 coefficients (46_vault_fsm.md R610). -/
theorem needSeal_le {s : State} (h : paramsOf .vseal s = none) : needSeal s ≤ 32 * 254 := by
  obtain ⟨-, htn, hn⟩ := (splitParams_eq_none_iff _ _).1 h
  exact Nat.mul_le_mul_left 32 (by omega)

/-- VOPEN reads at most 255 tokens (46_vault_fsm.md R620). -/
theorem tokenCount_le {s : State} (h : paramsOf .vopen s = none) : s.arg 7 ≤ 255 := by
  by_contra hgt
  have hfail : paramsOf .vopen s = some (.invalidParameters 7) := if_pos (by omega)
  rw [h] at hfail
  cases hfail

/-- Decoding gives a record of 34 bytes for each token. -/
theorem length_of_decodeTokens {i : Nat} {toks recs : List (List Byte)} (h : decodeTokens i toks = .ok recs) :
    recs.length = toks.length ∧ ∀ r ∈ recs, r.length = 34 := by
  induction toks generalizing i recs with
  | nil => cases h; simp
  | cons tok toks ih =>
    rw [decodeTokens] at h
    split at h
    · cases h
    next r hr =>
      split at h
      · cases h
      next rs hrs =>
        cases h
        obtain ⟨hlen, hall⟩ := ih hrs
        exact ⟨by simp [hlen], List.forall_mem_cons.2 ⟨length_of_decodefn hr, hall⟩⟩

/-! ### The shapes of a turn -/

/-- What a command does to the entropy source: nothing where it draws nothing, and never anything to the source that is not
selected (20_memory.md R230-R233). -/
def SourceKept (i : Instr) (s t : State) : Prop :=
  (i ≠ .split → i ≠ .aenc → i ≠ .vseal → t.rngCnt = s.rngCnt ∧ t.rngPtr = s.rngPtr ∧ t.entropy = s.entropy) ∧
  (s.rngSrc = true → t.entropy = s.entropy) ∧ (s.rngSrc = false → t.rngPtr = s.rngPtr)

theorem sourceKept_of_eq (i : Instr) {s t : State} (hc : t.rngCnt = s.rngCnt) (hp : t.rngPtr = s.rngPtr)
    (he : t.entropy = s.entropy) : SourceKept i s t :=
  ⟨fun _ _ _ => ⟨hc, hp, he⟩, fun _ => he, fun _ => hp⟩

/-- A turn that goes on moves the FSM, the source, DMEM and the hidden buffers alone, leaves the engine at work, comes after
the parameter check (46_vault_fsm.md R603), and keeps the buffers within their sizes. -/
def GoesOn (i : Instr) (s t : State) : Prop :=
  t = { s with
    fsm := t.fsm, rngPtr := t.rngPtr, rngCnt := t.rngCnt, entropy := t.entropy, dmem := t.dmem
    keyBuf := t.keyBuf, ivBuf := t.ivBuf, coefBuf := t.coefBuf, shareBuf := t.shareBuf } ∧
  SourceKept i s t ∧ t.fsm ≠ .idle ∧ t.fsm ≠ .dispatch ∧ (s.fsm = .dispatch → paramsOf i s = none) ∧
  (paramsOf i s = none → Bounded s → Bounded t)

/-- A turn that does not go on waits for a byte, fails, or completes with success. -/
def TurnEnds (i : Instr) (s t : State) : Prop :=
  t = s ∨ (∃ e, t = s.fail e) ∨
  ∃ (regs : Vector Word 16) (m : Mem) (w : Bool), t = { s.succeed with regs := regs, dmem := m, warn := w } ∧
    (∀ r, destReg i ≠ some r → regs.get r = s.reg r) ∧ (i ≠ .vopen → w = s.warn)

/-- Everything one turn of a command can do from any state. -/
def TurnShape (i : Instr) (s : State) : Progress → Prop
  | .more t => GoesOn i s t
  | .ends t => TurnEnds i s t

theorem turnShape_fail (i : Instr) (s : State) (e : CmdError) : TurnShape i s (.ends (s.fail e)) := .inr (.inl ⟨e, rfl⟩)

theorem turnShape_setByte {i : Instr} {rd : RegNum} (hi : destReg i = some rd) (s : State) (b : Byte) :
    TurnShape i s (.ends (s.setByte rd b).succeed) :=
  .inr (.inr ⟨(s.setByte rd b).regs, s.dmem, s.warn, rfl,
    fun r hr => State.reg_setReg_of_ne s rd r _ fun h => hr (h ▸ hi), fun _ => rfl⟩)

/-- A bulk command completes with bytes in DMEM and its result in x[0] (92_eei_decisions.md D11). -/
theorem turnShape_succeedWith {i : Instr} (hi : destReg i = some 0) (s : State) (m : Mem) (n : Nat) :
    TurnShape i s (.ends (({ s with dmem := m }).succeedWith n)) :=
  .inr (.inr ⟨(s.setReg 0 (BitVec.ofNat 32 n)).regs, m, s.warn, rfl,
    fun r hr => State.reg_setReg_of_ne s 0 r _ fun h => hr (h ▸ hi), fun _ => rfl⟩)

theorem turnShape_fieldResult {i : Instr} {rd : RegNum} (hi : destReg i = some rd) (s : State) (o : Option Byte) :
    TurnShape i s (fieldResult rd o s) := by
  cases o with
  | none => exact turnShape_fail i s _
  | some b => exact turnShape_setByte hi s b

/-! ### Turns that go on -/

/-- The FSM states a turn enters with the hidden buffers as they were. -/
def workStates : List Fsm :=
  [.exec, .sealKeygen, .sealEncrypt, .sealDigest, .sealSplit, .openDecode, .openDecrypt, .openDigest]

theorem goesOn_work {i : Instr} {s : State} {f : Fsm} (hf : f ∈ workStates) (m : Mem)
    (hp : s.fsm = .dispatch → paramsOf i s = none) : GoesOn i s { s with fsm := f, dmem := m } := by
  have hw : ∀ g ∈ workStates, g ≠ .idle ∧ g ≠ .dispatch ∧ ¬ (g = .sealScrub ∨ g = .sealEncode) := by decide
  obtain ⟨hidle, hdispatch, hseal⟩ := hw f hf
  exact ⟨rfl, sourceKept_of_eq i rfl rfl rfl, hidle, hdispatch, hp, fun _ hb =>
    ⟨⟨hb.key, hb.iv, hb.share, fun h => absurd h hseal⟩, hb.coef, hb.shares⟩⟩

/-- One draw moves the selected source only (20_memory.md R230, R231). -/
theorem sourceKept_afterDraws {i : Instr} (hi : i = .split ∨ i = .aenc ∨ i = .vseal) (s : State) (n : Nat) :
    SourceKept i s (s.afterDraws n) := by
  refine ⟨fun h₁ h₂ h₃ => ?_, fun hs => by simp [hs], fun hs => by simp [hs]⟩
  rcases hi with h | h | h <;> contradiction

/-- A draw of a coefficient that is still needed. -/
theorem goesOn_putCoef {i : Instr} {s : State} (hi : i = .split ∧ s.fsm = .exec ∨ i = .vseal ∧ s.fsm = .sealSplit)
    (hl : paramsOf i s = none → s.coefBuf.length < 256 * 254) (b : Byte) :
    GoesOn i s (putCoef b (s.afterDraws 1)) := by
  have hf : s.fsm ≠ .idle ∧ s.fsm ≠ .dispatch := by rcases hi with ⟨-, h⟩ | ⟨-, h⟩ <;> simp [h]
  have hsrc : SourceKept i s (s.afterDraws 1) := sourceKept_afterDraws (hi.imp And.left fun h => .inr h.1) s 1
  refine ⟨rfl, hsrc, hf.1, hf.2, fun h => absurd h hf.2, fun hp hb => ?_⟩
  have hcoef := hl hp
  exact ⟨⟨hb.key, hb.iv, hb.share, hb.count⟩, by simp; omega, hb.shares⟩

/-- A draw of a byte of the key or the IV that is still needed: KEYBUF is filled before IVBUF (46_vault_fsm.md R612). -/
theorem goesOn_putKeyIv {i : Instr} {s : State} (hi : i = .aenc ∧ s.fsm = .exec ∨ i = .vseal ∧ s.fsm = .sealKeygen)
    (hl : leftKeyIv s ≠ 0) (b : Byte) : GoesOn i s (putKeyIv b (s.afterDraws 1)) := by
  have hf : s.fsm ≠ .idle ∧ s.fsm ≠ .dispatch := by rcases hi with ⟨-, h⟩ | ⟨-, h⟩ <;> simp [h]
  have hsrc : SourceKept i s (s.afterDraws 1) := sourceKept_afterDraws (.inr (hi.imp And.left And.left)) s 1
  have hsum : s.keyBuf.length + s.ivBuf.length < 44 := by unfold leftKeyIv keyIvDraws at hl; omega
  by_cases hk : s.keyBuf.length < 32
  · rw [show putKeyIv b (s.afterDraws 1) = { s.afterDraws 1 with keyBuf := s.keyBuf ++ [b] } from if_pos hk]
    exact ⟨rfl, hsrc, hf.1, hf.2, fun h => absurd h hf.2, fun _ hb =>
      ⟨⟨by simp; omega, hb.iv, hb.share, hb.count⟩, hb.coef, hb.shares⟩⟩
  · rw [show putKeyIv b (s.afterDraws 1) = { s.afterDraws 1 with ivBuf := s.ivBuf ++ [b] } from if_neg hk]
    exact ⟨rfl, hsrc, hf.1, hf.2, fun h => absurd h hf.2, fun _ hb =>
      ⟨⟨hb.key, by simp; omega, hb.share, hb.count⟩, hb.coef, hb.shares⟩⟩

/-- A state of the vault past DISPATCH that fills or scrubs hidden buffers. -/
theorem goesOn_buffers {i : Instr} {s : State} (hs : s.fsm ≠ .dispatch) {f : Fsm} (hf : f ≠ .idle ∧ f ≠ .dispatch)
    {k iv c : List Byte} {sh : List (List Byte)}
    (hb : paramsOf i s = none → Bounded s →
      Bounded { s with keyBuf := k, ivBuf := iv, coefBuf := c, shareBuf := sh, fsm := f }) :
    GoesOn i s { s with keyBuf := k, ivBuf := iv, coefBuf := c, shareBuf := sh, fsm := f } :=
  ⟨rfl, sourceKept_of_eq i rfl rfl rfl, hf.1, hf.2, fun h => absurd h hs, hb⟩

/-- SEAL_SPLIT computes n shares of 34 bytes, and n is at most 255. -/
theorem goesOn_sealSplit {s : State} (hf : s.fsm = .sealSplit) :
    GoesOn .vseal s { sealSplit s with fsm := .sealScrub } := by
  refine goesOn_buffers (by simp [hf]) (by decide) fun hp hb => ?_
  obtain ⟨-, -, hn⟩ := (splitParams_eq_none_iff _ _).1 hp
  have hlen : (sealSplit s).shareBuf.length = s.arg 3 := length_splitfn _ _ _ _
  refine ⟨⟨hb.key, hb.iv, fun r hr => ?_, fun _ => hlen.le⟩, hb.coef, hlen.le.trans hn⟩
  have hrec : r.length = s.keyBuf.length + 2 := length_of_mem_splitfn hr
  have hkey := hb.key
  omega

theorem goesOn_sealScrub {s : State} (hf : s.fsm = .sealScrub) :
    GoesOn .vseal s { s with keyBuf := [], coefBuf := [], fsm := .sealEncode } :=
  goesOn_buffers (by simp [hf]) (by decide) fun _ hb =>
    ⟨⟨Nat.zero_le _, hb.iv, hb.share, fun _ => hb.count (.inl hf)⟩, Nat.zero_le _, hb.shares⟩

theorem goesOn_openDecode {s : State} {recs : List (List Byte)} (hf : s.fsm = .openDecode)
    (hd : decodeTokens 0 ((tokenEntries s).map (fun e => s.memRead e.1 e.2)) = .ok recs) :
    GoesOn .vopen s { s with shareBuf := recs, fsm := .openIvCheck } := by
  refine goesOn_buffers (by simp [hf]) (by decide) fun hp hb => ?_
  obtain ⟨hlen, hall⟩ := length_of_decodeTokens hd
  have hcount : recs.length = s.arg 7 := by simpa [tokenEntries] using hlen
  exact ⟨⟨hb.key, hb.iv, fun r hr => (hall r hr).le, by simp⟩, hb.coef, hcount.le.trans (tokenCount_le hp)⟩

theorem goesOn_openIvCheck {s : State} (hf : s.fsm = .openIvCheck) :
    GoesOn .vopen s { s with ivBuf := unhex (s.memRead (s.arg 3) 24), fsm := .openCombine } := by
  refine goesOn_buffers (by simp [hf]) (by decide) fun _ hb => ?_
  have hiv : (unhex (s.memRead (s.arg 3) 24)).length = 12 := length_unhex 12 _ (Mem.length_read _ _ _)
  exact ⟨⟨hb.key, hiv.le, hb.share, by simp⟩, hb.coef, hb.shares⟩

theorem goesOn_openCombine {s : State} (hf : s.fsm = .openCombine) :
    GoesOn .vopen s { s with keyBuf := combinefn vaultL s.shareBuf, shareBuf := [], fsm := .openAuth } :=
  goesOn_buffers (by simp [hf]) (by decide) fun _ hb =>
    ⟨⟨(length_combinefn _ _).le, hb.iv, by simp, by simp⟩, hb.coef, Nat.zero_le _⟩

/-! ### Every turn has a shape -/

/-- A command whose work is in EXEC (46_vault_fsm.md R601). -/
theorem turnShape_simpleTurn {i : Instr} {s : State} {check : State → Option CmdError} {work : State → Progress}
    (hc : check s = none → paramsOf i s = none) (hw : s.fsm = .exec → TurnShape i s (work s)) :
    TurnShape i s (simpleTurn check work s) := by
  rcases simpleTurn_cases check work s with ⟨hf, h⟩ | ⟨-, e, -, h⟩ | ⟨-, hn, h⟩ <;> rw [h]
  · exact hw hf
  · exact turnShape_fail i s e
  · exact goesOn_work (by decide) s.dmem fun _ => hc hn

/-- A state that draws waits, draws, or does what comes after its draws. -/
theorem turnShape_drawThen {i : Instr} {s : State} {left : Nat} {put : Byte → State → State} {k : State → Progress}
    (hd : left ≠ 0 → ∀ b, GoesOn i s (put b (s.afterDraws 1))) (hk : TurnShape i s (k s)) :
    TurnShape i s (drawThen left put k s) := by
  rcases drawThen_cases left put k s with ⟨-, h⟩ | ⟨-, -, h⟩ | ⟨hl, -, b, -, h⟩ <;> rw [h]
  · exact hk
  · exact .inl rfl
  · exact hd hl b

theorem turnShape_workCombine (s : State) : TurnShape .combine s (workCombine s) := by
  unfold workCombine
  dsimp only
  split
  · exact turnShape_fail _ s _
  · exact turnShape_succeedWith rfl s _ _

theorem turnShape_workEncode (s : State) : TurnShape .encode s (workEncode s) := by
  unfold workEncode
  dsimp only
  split_ifs
  · exact turnShape_fail _ s _
  · exact turnShape_fail _ s _
  · exact turnShape_succeedWith rfl s _ _

theorem turnShape_workDecode (s : State) : TurnShape .decode s (workDecode s) := by
  unfold workDecode
  split
  · exact turnShape_fail _ s _
  · exact turnShape_succeedWith rfl s _ _

theorem turnShape_workAdec (s : State) : TurnShape .adec s (workAdec s) := by
  unfold workAdec
  dsimp only
  split_ifs
  · exact turnShape_fail _ s _
  · split
    · exact turnShape_fail _ s _
    · exact turnShape_succeedWith rfl s _ _

theorem turnShape_workAenc (s : State) : TurnShape .aenc s (workAenc s) := by
  unfold workAenc
  dsimp only
  exact turnShape_succeedWith rfl s _ _

theorem turnShape_turnSplit (s : State) : TurnShape .split s (turnSplit s) := by
  apply turnShape_simpleTurn checkAll_param_eq_none
  refine fun hf => turnShape_drawThen (fun hl b => goesOn_putCoef (.inl ⟨rfl, hf⟩) (fun hp => ?_) b)
    (turnShape_succeedWith rfl s _ _)
  have hneed := needSplit_le hp
  unfold leftSplit at hl
  omega

theorem turnShape_turnVseal (s : State) : TurnShape .vseal s (turnVseal s) := by
  have hpast : s.fsm ∈ sealStates → s.fsm = .dispatch → paramsOf .vseal s = none := fun hs hd =>
    absurd hs (by rw [hd]; decide)
  rcases turnVseal_cases s with ⟨hf, h⟩ | ⟨hf, h⟩ | ⟨hf, h⟩ | ⟨hf, h⟩ | ⟨hf, h⟩ | ⟨-, h⟩ | ⟨-, e, -, h⟩ | ⟨-, hc, h⟩ <;>
    rw [h]
  · exact turnShape_drawThen (fun hl b => goesOn_putKeyIv (.inr ⟨rfl, hf⟩) hl b)
      (goesOn_work (f := .sealEncrypt) (by decide) _ (hpast (by rw [hf]; decide)))
  · exact goesOn_work (f := .sealDigest) (by decide) _ (hpast (by rw [hf]; decide))
  · exact goesOn_work (f := .sealSplit) (by decide) _ (hpast (by rw [hf]; decide))
  · refine turnShape_drawThen (fun hl b => goesOn_putCoef (.inr ⟨rfl, hf⟩) (fun hp => ?_) b) (goesOn_sealSplit hf)
    have hneed := needSeal_le hp
    unfold leftSeal at hl
    omega
  · exact goesOn_sealScrub hf
  · exact turnShape_succeedWith rfl s _ _
  · exact turnShape_fail _ s e
  · exact goesOn_work (by decide) s.dmem fun _ => checkAll_param_eq_none hc

theorem turnShape_turnVopen (s : State) : TurnShape .vopen s (turnVopen s) := by
  have hpast : s.fsm ∈ openStates → s.fsm = .dispatch → paramsOf .vopen s = none := fun hs hd =>
    absurd hs (by rw [hd]; decide)
  rcases turnVopen_cases s with ⟨hf, h⟩ | ⟨hf, h⟩ | ⟨hf, h⟩ | ⟨hf, h⟩ | ⟨hf, h⟩ | ⟨-, h⟩ | ⟨-, e, -, h⟩ | ⟨-, hc, h⟩ <;>
    rw [h]
  · rcases openDecode_cases s with ⟨e, h⟩ | ⟨recs, hd, h⟩ <;> rw [h]
    · exact turnShape_fail _ s e
    · exact goesOn_openDecode hf hd
  · rcases openIvCheck_cases s with ⟨e, h⟩ | ⟨-, h⟩ <;> rw [h]
    · exact turnShape_fail _ s e
    · exact goesOn_openIvCheck hf
  · rcases openCombine_cases s with ⟨e, -, h⟩ | ⟨-, h⟩ <;> rw [h]
    · exact turnShape_fail _ s e
    · exact goesOn_openCombine hf
  · rcases openAuth_cases s with ⟨e, h⟩ | ⟨-, -, h⟩ <;> rw [h]
    · exact turnShape_fail _ s e
    · exact goesOn_work (by decide) s.dmem (hpast (by rw [hf]; decide))
  · exact goesOn_work (f := .openDigest) (by decide) _ (hpast (by rw [hf]; decide))
  · exact .inr (.inr ⟨(s.setReg 0 _).regs, s.dmem, _, rfl,
      fun r hr => State.reg_setReg_of_ne s 0 r _ fun h => hr (h ▸ rfl), fun h => absurd rfl h⟩)
  · exact turnShape_fail _ s e
  · exact goesOn_work (by decide) s.dmem fun _ => checkAll_param_eq_none hc

/-- Every turn of every command, from any state, goes on or ends as `GoesOn` and `TurnEnds` say. -/
theorem turnShape_turnOf (i : Instr) (s : State) : TurnShape i s (turnOf i s) := by
  cases i with
  | nop =>
    apply turnShape_simpleTurn (fun _ => rfl)
    exact fun _ => .inr (.inr ⟨s.regs, s.dmem, s.warn, rfl, fun _ _ => rfl, fun _ => rfl⟩)
  | gadd | gmul | gpow | geval =>
    apply turnShape_simpleTurn (fun _ => rfl)
    exact fun _ => turnShape_setByte rfl s _
  | gdiv | ginv =>
    apply turnShape_simpleTurn id
    exact fun _ => turnShape_fieldResult rfl s _
  | split => exact turnShape_turnSplit s
  | combine =>
    apply turnShape_simpleTurn checkAll_param_eq_none
    exact fun _ => turnShape_workCombine s
  | encode =>
    apply turnShape_simpleTurn checkAll_param_eq_none
    exact fun _ => turnShape_workEncode s
  | decode =>
    apply turnShape_simpleTurn checkAll_param_eq_none
    exact fun _ => turnShape_workDecode s
  | aenc =>
    apply turnShape_simpleTurn checkAll_param_eq_none
    exact fun hf => turnShape_drawThen (fun hl b => goesOn_putKeyIv (.inl ⟨rfl, hf⟩) hl b) (turnShape_workAenc s)
  | adec =>
    apply turnShape_simpleTurn checkAll_param_eq_none
    exact fun _ => turnShape_workAdec s
  | hash =>
    apply turnShape_simpleTurn checkAll_param_eq_none
    exact fun _ => turnShape_succeedWith rfl s _ _
  | vseal => exact turnShape_turnVseal s
  | vopen => exact turnShape_turnVopen s

/-! ### What a command leaves alone -/

/-- What a command leaves alone (10_state.md R102; 20_memory.md R233; 60_exceptions.md R716). -/
def KeepsOther (i : Instr) (s t : State) : Prop :=
  (∀ r, destReg i ≠ some r → t.reg r = s.reg r) ∧
  t.params = s.params ∧ t.rstN = s.rstN ∧ t.cmd = s.cmd ∧ t.rngSrc = s.rngSrc ∧ t.irqEn = s.irqEn ∧ t.herr = s.herr ∧
  t.pending = s.pending ∧ t.rdata = s.rdata ∧ t.freeCount = s.freeCount ∧ SourceKept i s t ∧
  (i ≠ .vopen → t.warn = s.warn)

theorem KeepsOther.trans {i : Instr} {s t u : State} (h₁ : KeepsOther i s t) (h₂ : KeepsOther i t u) :
    KeepsOther i s u := by
  obtain ⟨reg₁, params₁, rst₁, cmd₁, src₁, irq₁, herr₁, pending₁, rdata₁, free₁, ⟨draws₁, replay₁, port₁⟩, warn₁⟩ := h₁
  obtain ⟨reg₂, params₂, rst₂, cmd₂, src₂, irq₂, herr₂, pending₂, rdata₂, free₂, ⟨draws₂, replay₂, port₂⟩, warn₂⟩ := h₂
  refine ⟨fun r hr => (reg₂ r hr).trans (reg₁ r hr), params₂.trans params₁, rst₂.trans rst₁, cmd₂.trans cmd₁,
    src₂.trans src₁, irq₂.trans irq₁, herr₂.trans herr₁, pending₂.trans pending₁, rdata₂.trans rdata₁,
    free₂.trans free₁, ⟨fun ha hb hc => ?_, fun hs => (replay₂ (src₁.trans hs)).trans (replay₁ hs),
      fun hs => (port₂ (src₁.trans hs)).trans (port₁ hs)⟩, fun hi => (warn₂ hi).trans (warn₁ hi)⟩
  obtain ⟨hcnt, hptr, hent⟩ := draws₁ ha hb hc
  rw [← hcnt, ← hptr, ← hent]
  exact draws₂ ha hb hc

theorem KeepsOther.refl (i : Instr) (s : State) : KeepsOther i s s :=
  ⟨fun _ _ => rfl, rfl, rfl, rfl, rfl, rfl, rfl, rfl, rfl, rfl, sourceKept_of_eq i rfl rfl rfl, fun _ => rfl⟩

theorem keepsOther_turn {i : Instr} {s : State} {p : Progress} (h : TurnShape i s p) : KeepsOther i s p.state := by
  cases p with
  | more t =>
    obtain ⟨he, hsrc, -⟩ := h
    have hreg : t.regs = s.regs := by rw [he]
    refine ⟨fun r _ => by simp only [Progress.state, State.reg, hreg], ?_, ?_, ?_, ?_, ?_, ?_, ?_, ?_, ?_, hsrc,
      fun _ => ?_⟩ <;>
      rw [Progress.state, he]
  | ends t =>
    rcases h with rfl | ⟨e, rfl⟩ | ⟨regs, m, w, rfl, hreg, hwarn⟩
    · exact .refl i t
    · exact KeepsOther.refl i s
    · exact ⟨hreg, rfl, rfl, rfl, rfl, rfl, rfl, rfl, rfl, rfl, sourceKept_of_eq i rfl rfl rfl, hwarn⟩

theorem exec_keepsOther {i : Instr} {s t : State} (h : exec i s = .next t) : KeepsOther i s t := by
  rw [exec_eq_runCommand, runCommand, Host.Outcome.next.injEq] at h
  subst h
  exact runTurns_invariant (KeepsOther i s) (fun u hu => hu.trans (keepsOther_turn (turnShape_turnOf i u))) _ s
    (.refl i s)

/-- Settles O26: what every turn leaves alone (`keepsOther_turn`), a run of turns leaves alone. -/
theorem commandsKeepOtherState : Obligations.CommandsKeepOtherState := by
  intro i s t h
  obtain ⟨reg, params, rst, cmd, src, irq, herr, pending, rdata, free, ⟨draws, replay, port⟩, warn⟩ := exec_keepsOther h
  exact ⟨reg, params, rst, cmd, src, irq, herr, pending, rdata, free, draws, replay, port, warn⟩

end Sys2Proof.Machine
end

section
/-! Everything a step of the TVE does to the engine's own registers, STATUS and buffers, packaged once for invariants
(`EngineInvariant`), and the two invariants: STATUS is coherent, and the hidden buffers stay within their sizes. -/

namespace Sys2Proof.Machine

open Sys2Proof.Safety

/-! ### Invariants of the engine -/

/-- The state with everything but the general registers, CMD, STATUS without HERR, ERRINFO and the hidden buffers at its
value after reset. -/
def State.enginePart (s : State) : State :=
  { s with
    params := State.reset.params, rngSrc := false, irqEn := false, herr := false, rngPtr := 0, rngCnt := 0, dmem := []
    rstN := true, entropy := [], pending := [], rdata := 0, freeCount := 0 }

/-- A property of the engine part that each kind of step keeps: the write-1-to-clear bits of STATUS, a write of a general
register or CMD between commands, START, a reset, an illegal word, and a turn of the command in CMD. -/
def EngineInvariant (P : State → Prop) : Prop :=
  (∀ s : State, P s.enginePart ↔ P s) ∧
  (∀ (s : State) (v : Word), P s → P (s.clearStatus v)) ∧
  (∀ (s : State) (regs : Vector Word 16) (cmd : Word), s.busy = false → P s → P { s with regs := regs, cmd := cmd }) ∧
  (∀ s : State, s.busy = false → P s → P s.start) ∧
  (∀ s : State, P s.resetEngine) ∧
  (∀ s : State, s.busy = true → P s → P (illegal s)) ∧
  ∀ (s : State) (i : Instr) (p : Progress), s.busy = true → decode s.cmd = .ok i → P s → TurnShape i s p → P p.state

/-- What the host reaches while the engine runs is not the engine's own (20_memory.md R207). -/
theorem State.engineOwned_of_reach {s : State} {off size : Nat} {t : Target} (h : s.reach off size = some t)
    (hb : s.busy = true) : t.engineOwned = false := by
  unfold State.reach at h
  split at h
  · rw [hb, Bool.true_and] at h
    split at h
    · cases h
    next ho =>
      obtain rfl := Option.some.inj h
      simpa using ho
  · cases h

section
variable {P : State → Prop} (hP : EngineInvariant P)
include hP

/-- A step that changes nothing of the engine part. -/
theorem EngineInvariant.same {s t : State} (h : P s) (he : t.enginePart = s.enginePart) : P t := by
  obtain ⟨hpart, -⟩ := hP
  exact (hpart t).1 (he ▸ (hpart s).2 h)

theorem EngineInvariant.writeCtrl (s : State) (v : Word) (h : P s) : P (s.writeCtrl v) := by
  have hbits : P (s.ctrlBits v) := hP.same h rfl
  have ⟨_, _, _, hstart, hreset, _⟩ := hP
  unfold State.writeCtrl
  split_ifs with hrst hgo hbusy
  · exact hreset _
  · exact hP.same hbits rfl
  · exact hstart _ (by simpa using hbusy) hbits
  · exact hbits

theorem EngineInvariant.writeTarget (s : State) (t : Target) (size : Nat) (v : Word)
    (ht : s.busy = true → t.engineOwned = false) (h : P s) : P (s.writeTarget t size v) := by
  have ⟨_, hclear, hwrite, _⟩ := hP
  have hidle : t.engineOwned = true → s.busy = false := fun ho => by
    by_contra hb
    simp [ht (by simpa using hb)] at ho
  cases t with
  | csr c =>
    cases c with
    | id | version | param | errInfo | rngCnt => exact h
    | ctrl => exact hP.writeCtrl s v h
    | status => exact hclear s v h
    | cmd => exact hwrite s s.regs v (hidle rfl) h
    | rngPtr => exact hP.same h rfl
  | gpr r => exact hwrite s (s.setReg r v).regs s.cmd (hidle rfl) h
  | dmem a => exact hP.same h rfl

theorem EngineInvariant.hostWrite (s : State) (off size : Nat) (v : Word) (h : P s) : P (s.hostWrite off size v) := by
  rcases s.hostWrite_cases off size v with ⟨-, e⟩ | ⟨-, e⟩ <;> rw [e]
  · unfold State.busWrite
    cases hr : s.reach off size with
    | some t => exact hP.writeTarget s t size v (State.engineOwned_of_reach hr) h
    | none => exact hP.same h rfl
  · exact h

theorem EngineInvariant.hostRead (s : State) (off size : Nat) (h : P s) : P (s.hostRead off size) := by
  rcases s.hostRead_cases off size with ⟨-, e⟩ | ⟨-, e⟩ <;> rw [e]
  · unfold State.busRead
    cases s.reach off size <;> exact hP.same h rfl
  · exact hP.same h rfl

theorem EngineInvariant.driveReset (s : State) (high : Bool) (h : P s) : P (s.driveReset high) := by
  have ⟨_, _, _, _, hreset, _⟩ := hP
  rcases s.driveReset_cases high with ⟨-, -, e⟩ | ⟨-, e⟩ <;> rw [e]
  · exact h
  · exact hP.same (hreset s) rfl

theorem EngineInvariant.engineTurn (s : State) (h : P s) : P (engineTurn s) := by
  obtain ⟨-, -, -, -, -, hillegal, hturn⟩ := hP
  unfold Machine.engineTurn
  split_ifs with hb
  · cases hc : s.command with
    | some i => exact hturn s i _ hb (State.command_eq_some.1 hc) h (turnShape_turnOf i s)
    | none => exact hillegal s hb h
  · exact h

/-- A command runs on while its turns go on, so each turn of a run is one of the command in CMD. -/
theorem EngineInvariant.exec {i : Instr} {s t : State} (hb : s.busy = true) (hd : decode s.cmd = .ok i) (h : P s)
    (he : exec i s = .next t) : P t := by
  obtain ⟨-, -, -, -, -, -, hturn⟩ := hP
  rw [exec_eq_runCommand, runCommand, Host.Outcome.next.injEq] at he
  subst he
  refine runTurns_induction (fun u => u.busy = true ∧ decode u.cmd = .ok i ∧ P u) P (fun u ⟨_, _, hu⟩ => hu) ?_ ?_ _ s
    ⟨hb, hd, h⟩
  · rintro u w ⟨hub, hud, hu⟩ hw
    have hshape : TurnShape i u (.more w) := hw ▸ turnShape_turnOf i u
    have ⟨hmove, _⟩ := hshape
    have hwb : w.busy = u.busy := by rw [hmove]
    have hwc : w.cmd = u.cmd := by rw [hmove]
    exact ⟨hwb.trans hub, hwc ▸ hud, hturn u i _ hub hud hu hshape⟩
  · rintro u w ⟨hub, hud, hu⟩ hw
    exact hturn u i _ hub hud hu (hw ▸ turnShape_turnOf i u)

theorem EngineInvariant.engineRun {s t : State} (h : P s) (he : engineRun s = .next t) : P t := by
  unfold Machine.engineRun at he
  split_ifs at he with hb
  · cases hc : s.command with
    | some i =>
      rw [hc] at he
      exact hP.exec hb (State.command_eq_some.1 hc) h he
    | none =>
      obtain ⟨-, -, -, -, -, hillegal, -⟩ := hP
      rw [hc] at he
      cases he
      exact hillegal s hb h
  · cases he
    exact h

/-- What every kind of step keeps, every step keeps. -/
theorem EngineInvariant.step {s t : State} (h : P s) (he : step s = .next t) : P t := by
  unfold Machine.step at he
  cases hp : s.pending with
  | nil =>
    rw [hp] at he
    exact hP.engineRun h he
  | cons e rest =>
    rw [hp] at he
    have hpop : P { s with pending := rest } := hP.same h rfl
    cases e with
    | busWrite off size v => cases he; exact hP.hostWrite _ off size v hpop
    | busRead off size => cases he; exact hP.hostRead _ off size hpop
    | entropyByte b => cases he; exact hP.same hpop rfl
    | rstPin high => cases he; exact hP.driveReset _ high hpop
    | engineTurn => cases he; exact hP.engineTurn _ hpop
    | engineRun => exact hP.engineRun hpop he

end

/-! ### STATUS stays coherent -/

theorem code_mem_legalErrCodes (e : CmdError) : e.code ∈ legalErrCodes := by
  cases e <;> simp [CmdError.code, legalErrCodes]

/-- A machine between commands is coherent where its error registers are. -/
theorem coherent_of_idle {s : State} (hb : s.busy = false) (hf : s.fsm = .idle) (hs : Scrubbed s)
    (hx : ¬ (s.done = true ∧ s.err = true)) (hd : s.done = true → s.errCode = 0 ∧ s.errInfo = 0)
    (hc : s.errCode ∈ legalErrCodes) : Coherent s where
  busyIff := by simp [hb, hf]
  running := by simp [hb]
  exclusive := hx
  succeeded := hd
  codes := hc
  scrubbed := fun _ => hs

/-- A machine at work is coherent where its status is clear. -/
theorem coherent_of_working {s : State} (hb : s.busy = true) (hf : s.fsm ≠ .idle)
    (hr : s.done = false ∧ s.err = false ∧ s.warn = false ∧ s.errCode = 0 ∧ s.errInfo = 0)
    (hs : s.fsm = .dispatch → Scrubbed s) : Coherent s := by
  obtain ⟨hdone, herr, hwarn, hcode, hinfo⟩ := hr
  exact {
    busyIff := by simp [hb, hf]
    running := fun _ => ⟨hdone, herr, hwarn, hcode, hinfo⟩
    exclusive := by simp [hdone]
    succeeded := by simp [hdone]
    codes := by rw [hcode]; decide
    scrubbed := fun h => hs (h.resolve_left hf) }

theorem fsm_idle_of_coherent {s : State} (h : Coherent s) (hb : s.busy = false) : s.fsm = .idle := by
  by_contra hf
  simp [h.busyIff.2 hf] at hb

theorem coherent_fail {s : State} (h : Coherent s) (hb : s.busy = true) (e : CmdError) : Coherent (s.fail e) := by
  obtain ⟨hdone, -⟩ := h.running hb
  exact coherent_of_idle rfl rfl ⟨rfl, rfl, rfl, rfl⟩ (by simp [hdone]) (by simp [hdone]) (code_mem_legalErrCodes e)

theorem coherent_turn {s : State} {i : Instr} {p : Progress} (h : Coherent s) (hb : s.busy = true)
    (hp : TurnShape i s p) : Coherent p.state := by
  cases p with
  | more t =>
    obtain ⟨hmove, -, hidle, hdispatch, -⟩ := hp
    have hrun := h.running hb
    have hbusy : t.busy = true := by rw [hmove]; exact hb
    have hstatus : t.done = false ∧ t.err = false ∧ t.warn = false ∧ t.errCode = 0 ∧ t.errInfo = 0 := by
      rw [hmove]; exact hrun
    exact coherent_of_working hbusy hidle hstatus fun hf => absurd hf hdispatch
  | ends t =>
    obtain ⟨-, herr, -, hcode, hinfo⟩ := h.running hb
    rcases hp with rfl | ⟨e, rfl⟩ | ⟨regs, m, w, rfl, -⟩
    · exact h
    · exact coherent_fail h hb e
    · exact coherent_of_idle rfl rfl ⟨rfl, rfl, rfl, rfl⟩ (fun hx => by simp [Progress.state, herr] at hx)
        (fun _ => ⟨hcode, hinfo⟩) h.codes

theorem coherent_clearStatus {s : State} (h : Coherent s) (v : Word) : Coherent (s.clearStatus v) where
  busyIff := h.busyIff
  running := fun hb => by
    obtain ⟨hdone, herr, hwarn, hcode, hinfo⟩ := h.running hb
    simp [hdone, herr, hwarn, hcode, hinfo]
  exclusive := fun ⟨hd, he⟩ => h.exclusive ⟨(Bool.and_eq_true_iff.1 hd).1, (Bool.and_eq_true_iff.1 he).1⟩
  succeeded := fun hd => h.succeeded (Bool.and_eq_true_iff.1 hd).1
  codes := h.codes
  scrubbed := h.scrubbed

theorem coherent_start {s : State} (hb : s.busy = false) (h : Coherent s) : Coherent s.start :=
  coherent_of_working rfl (by simp) ⟨rfl, rfl, rfl, rfl, rfl⟩ fun _ => h.scrubbed (.inl (fsm_idle_of_coherent h hb))

theorem coherent_resetEngine (s : State) : Coherent s.resetEngine :=
  coherent_of_idle rfl rfl ⟨rfl, rfl, rfl, rfl⟩ (by simp) (by simp) (by simp [legalErrCodes])

theorem engineInvariant_coherent : EngineInvariant Coherent :=
  ⟨fun _ => ⟨fun h => ⟨h.busyIff, h.running, h.exclusive, h.succeeded, h.codes, h.scrubbed⟩,
      fun h => ⟨h.busyIff, h.running, h.exclusive, h.succeeded, h.codes, h.scrubbed⟩⟩,
    fun _ v h => coherent_clearStatus h v,
    fun _ _ _ _ h => ⟨h.busyIff, h.running, h.exclusive, h.succeeded, h.codes, h.scrubbed⟩,
    fun _ hb h => coherent_start hb h, coherent_resetEngine, fun _ hb h => coherent_fail h hb _,
    fun _ _ _ hb _ h hp => coherent_turn h hb hp⟩

/-- Settles O29: each kind of step keeps STATUS coherent and the hidden buffers scrubbed outside a command
(`engineInvariant_coherent`), so every step does. -/
theorem coherentIsKept : Obligations.CoherentIsKept := fun _ _ h he =>
  EngineInvariant.step engineInvariant_coherent h he

/-! ### The hidden buffers stay within their sizes -/

/-- A coherent machine within the sizes of its buffers, whose command past DISPATCH has passed its parameter check. -/
def BoundedAndChecked (s : State) : Prop := Coherent s ∧ Bounded s ∧ CommandChecked s

theorem bounded_of_scrubbed {s : State} (h : Scrubbed s) : Bounded s := by
  obtain ⟨hk, hiv, hc, hs⟩ := h
  refine ⟨⟨?_, ?_, ?_, fun _ => ?_⟩, ?_, ?_⟩ <;> simp [hk, hiv, hc, hs]

/-- The parameter check reads the general registers alone, so it stays passed while they and the command stay. -/
theorem commandChecked_of_eq {s t : State} (h : CommandChecked s) (hr : t.regs = s.regs) (hc : t.cmd = s.cmd)
    (hb : t.busy = s.busy) (hf : t.fsm = s.fsm) : CommandChecked t := by
  intro i hbt hdt hft
  rw [paramsOf_of_regs_eq i hr]
  exact h i (hb ▸ hbt) (hc ▸ hdt) (hf ▸ hft)

/-- A coherent machine between commands has nothing in its hidden buffers, and no command to check. -/
theorem boundedAndChecked_of_idle {s : State} (h : Coherent s) (hb : s.busy = false) : BoundedAndChecked s :=
  ⟨h, bounded_of_scrubbed (h.scrubbed (.inl (fsm_idle_of_coherent h hb))), fun _ hb' => by simp [hb] at hb'⟩

theorem boundedAndChecked_turn {s : State} {i : Instr} {p : Progress} (h : BoundedAndChecked s) (hb : s.busy = true)
    (hd : decode s.cmd = .ok i) (hp : TurnShape i s p) : BoundedAndChecked p.state := by
  have ⟨hcoh, hbnd, hchk⟩ := h
  have hcoh' := coherent_turn hcoh hb hp
  cases p with
  | more t =>
    obtain ⟨hmove, -, -, -, hdispatch, hbound⟩ := hp
    have hpar : paramsOf i s = none := by
      by_cases hf : s.fsm = .dispatch
      · exact hdispatch hf
      · exact hchk i hb hd hf
    have hregs : t.regs = s.regs := by rw [hmove]
    have hcmd : t.cmd = s.cmd := by rw [hmove]
    refine ⟨hcoh', hbound hpar hbnd, fun j _ hj _ => ?_⟩
    obtain rfl : i = j := Except.ok.inj (hd.symm.trans (hcmd ▸ hj))
    exact (paramsOf_of_regs_eq i hregs).trans hpar
  | ends t =>
    rcases hp with rfl | ⟨e, rfl⟩ | ⟨regs, m, w, rfl, -⟩
    · exact h
    · exact boundedAndChecked_of_idle hcoh' rfl
    · exact boundedAndChecked_of_idle hcoh' rfl

theorem boundedAndChecked_start {s : State} (hb : s.busy = false) (h : Coherent s) : BoundedAndChecked s.start :=
  have hcoh := coherent_start hb h
  ⟨hcoh, bounded_of_scrubbed (hcoh.scrubbed (.inr rfl)), fun _ _ _ hf => absurd rfl hf⟩

theorem engineInvariant_boundedAndChecked : EngineInvariant BoundedAndChecked := by
  obtain ⟨hpart, hclear, hwrite, -, hreset, hillegal, -⟩ := engineInvariant_coherent
  refine ⟨fun s => ⟨fun ⟨hcoh, hbnd, hchk⟩ => ?_, fun ⟨hcoh, hbnd, hchk⟩ => ?_⟩, fun s v ⟨hcoh, hbnd, hchk⟩ => ?_,
    fun s regs cmd hb ⟨hcoh, _⟩ => boundedAndChecked_of_idle (hwrite s regs cmd hb hcoh) hb,
    fun s hb ⟨hcoh, _⟩ => boundedAndChecked_start hb hcoh, fun s => boundedAndChecked_of_idle (hreset s) rfl,
    fun s hb ⟨hcoh, _⟩ => boundedAndChecked_of_idle (hillegal s hb hcoh) rfl,
    fun s i p hb hd h hp => boundedAndChecked_turn h hb hd hp⟩
  · exact ⟨(hpart s).1 hcoh, ⟨⟨hbnd.key, hbnd.iv, hbnd.share, hbnd.count⟩, hbnd.coef, hbnd.shares⟩,
      commandChecked_of_eq hchk rfl rfl rfl rfl⟩
  · exact ⟨(hpart s).2 hcoh, ⟨⟨hbnd.key, hbnd.iv, hbnd.share, hbnd.count⟩, hbnd.coef, hbnd.shares⟩,
      commandChecked_of_eq hchk rfl rfl rfl rfl⟩
  · exact ⟨hclear s v hcoh, ⟨⟨hbnd.key, hbnd.iv, hbnd.share, hbnd.count⟩, hbnd.coef, hbnd.shares⟩,
      commandChecked_of_eq hchk rfl rfl rfl rfl⟩

/-- Settles O30: each kind of step keeps the bounds and the check (`engineInvariant_boundedAndChecked`), so every step does;
the bounds of COEFBUF and SHAREBUF rest on the parameter check (`needSplit_le`, `tokenCount_le`). -/
theorem boundedIsKept : Obligations.BoundedIsKept := fun s t hcoh hbnd hchk he => by
  obtain ⟨-, hbounded, hchecked⟩ :=
    EngineInvariant.step engineInvariant_boundedAndChecked (s := s) (t := t) ⟨hcoh, hbnd, hchk⟩ he
  exact ⟨hbounded, hchecked⟩

end Sys2Proof.Machine
end

section
/-! The register window as the host reads and writes it (10_state.md R110-R123), and the ROM tables (R141). -/

namespace Sys2Proof.Machine

/-! ### Accesses of the register window -/

/-- The window offset of a register (10_state.md R110). -/
def Csr.offset : Csr → Nat
  | .id => 0x000
  | .version => 0x004
  | .param => 0x008
  | .ctrl => 0x00C
  | .status => 0x010
  | .cmd => 0x014
  | .errInfo => 0x018
  | .rngPtr => 0x01C
  | .rngCnt => 0x020

theorem targetAt_csr (dmemBytes : Nat) (c : Csr) : targetAt dmemBytes c.offset 4 = some (.csr c) := by
  cases c <;> rfl

/-- A register the engine does not own is reached at any time (20_memory.md R207). -/
theorem State.reach_csr (s : State) {c : Csr} (hc : (Target.csr c).engineOwned = false) :
    s.reach c.offset 4 = some (.csr c) := by
  rw [State.reach, targetAt_csr]
  simp [hc]

/-- Every register is reached while the engine is idle. -/
theorem State.reach_csr_idle (s : State) (c : Csr) (hb : s.busy = false) : s.reach c.offset 4 = some (.csr c) := by
  rw [s.reach_idle _ _ hb, targetAt_csr]

theorem State.reach_gpr_idle (s : State) (r : RegNum) (hb : s.busy = false) :
    s.reach (0x040 + 4 * r.val) 4 = some (.gpr r) := by
  rw [s.reach_idle _ _ hb, targetAt_gpr]

theorem State.busWrite_of_reach {s : State} {off size : Nat} {t : Target} (h : s.reach off size = some t) (v : Word) :
    s.busWrite off size v = s.writeTarget t size v := by
  rw [State.busWrite, h]

theorem State.busRead_of_reach {s : State} {off size : Nat} {t : Target} (h : s.reach off size = some t) :
    s.busRead off size = { s with rdata := s.readTarget t size } := by
  rw [State.busRead, h]

/-- Settles O39: what the idle engine lets the host reach, it writes and reads as `writeTarget` and `readTarget` say. -/
theorem registerWindow : Obligations.RegisterWindow := by
  intro s r v hb
  have hgpr := s.reach_gpr_idle r hb
  have hcmd := s.reach_csr_idle .cmd hb
  have hptr := s.reach_csr_idle .rngPtr hb
  exact ⟨State.busWrite_of_reach hgpr v, State.busRead_of_reach hgpr, fun r' => s.reg_setReg r r' v,
    State.busWrite_of_reach hcmd v, State.busRead_of_reach hcmd, State.busWrite_of_reach hptr v,
    State.busRead_of_reach hptr⟩

/-! ### Read-only registers -/

/-- PARAM has log2(DMEM_BYTES) in its low byte (10_state.md R119). -/
theorem State.paramWord_eq (s : State) : s.paramWord = 0x0003_1B00 ||| BitVec.ofNat 32 s.params.dmemLog := by
  have h : ∀ k : Fin 13, (0 : BitVec 8) ++ (0x03 : BitVec 8) ++ (0x1B : BitVec 8) ++ BitVec.ofNat 8 (16 + k.val)
      = (0x0003_1B00 : Word) ||| BitVec.ofNat 32 (16 + k.val) := by decide
  exact h s.params.sizeSel

/-- Settles O40: the five read-only registers are reached at any time; `writeTarget` ignores a write of them. -/
theorem readOnlyRegisters : Obligations.ReadOnlyRegisters := by
  intro s v
  have hid : s.reach 0x000 4 = some (.csr .id) := s.reach_csr (c := .id) rfl
  have hversion : s.reach 0x004 4 = some (.csr .version) := s.reach_csr (c := .version) rfl
  have hparam : s.reach 0x008 4 = some (.csr .param) := s.reach_csr (c := .param) rfl
  have herrInfo : s.reach 0x018 4 = some (.csr .errInfo) := s.reach_csr (c := .errInfo) rfl
  have hrngCnt : s.reach 0x020 4 = some (.csr .rngCnt) := s.reach_csr (c := .rngCnt) rfl
  refine ⟨State.busRead_of_reach hid, State.busRead_of_reach hversion, ?_, State.busRead_of_reach herrInfo,
    State.busRead_of_reach hrngCnt, fun off hoff => ?_⟩
  · rw [← s.paramWord_eq]
    exact State.busRead_of_reach hparam
  · simp only [List.mem_cons, List.not_mem_nil, or_false] at hoff
    rcases hoff with rfl | rfl | rfl | rfl | rfl
    · exact State.busWrite_of_reach hid v
    · exact State.busWrite_of_reach hversion v
    · exact State.busWrite_of_reach hparam v
    · exact State.busWrite_of_reach herrInfo v
    · exact State.busWrite_of_reach hrngCnt v

/-! ### STATUS and CTRL -/

/-- The flags of STATUS (10_state.md R112). -/
theorem State.statusWord_flags (s : State) :
    s.statusWord.getLsbD 0 = s.busy ∧ s.statusWord.getLsbD 1 = s.done ∧ s.statusWord.getLsbD 2 = s.err ∧
    s.statusWord.getLsbD 3 = s.warn ∧ s.statusWord.getLsbD 4 = s.herr := by
  simp only [State.statusWord, BitVec.getLsbD_append]
  simp

/-- The codes of STATUS (10_state.md R112). -/
theorem State.statusWord_codes (s : State) :
    s.statusWord.extractLsb' 8 8 = s.errCode ∧ s.statusWord.extractLsb' 16 8 = s.fsm.code := by
  constructor <;>
  · apply BitVec.eq_of_getLsbD_eq
    intro i hi
    simp (disch := omega) only [State.statusWord, BitVec.getLsbD_extractLsb', BitVec.getLsbD_append, if_pos, if_neg]
    rw [decide_eq_true hi, Bool.true_and]
    congr 1
    omega

/-- The reserved bits of STATUS read 0 (10_state.md R112). -/
theorem State.statusWord_reserved (s : State) :
    s.statusWord.extractLsb' 5 3 = 0 ∧ s.statusWord.extractLsb' 24 8 = 0 := by
  constructor <;>
  · apply BitVec.eq_of_getLsbD_eq
    intro i hi
    simp (disch := omega) only [State.statusWord, BitVec.getLsbD_extractLsb', BitVec.getLsbD_append, if_pos, if_neg]
    simp

/-- Settles O41: STATUS is reached at any time, reads as `State.statusWord` and is written as `State.clearStatus`. -/
theorem statusRegister : Obligations.StatusRegister := by
  intro s v
  have hreach : s.reach 0x010 4 = some (.csr .status) := s.reach_csr (c := .status) rfl
  have hread : (s.busRead 0x010 4).rdata = s.statusWord := by rw [State.busRead_of_reach hreach]; rfl
  obtain ⟨hbusy, hdone, herr, hwarn, hherr⟩ := s.statusWord_flags
  obtain ⟨hcode, hfsm⟩ := s.statusWord_codes
  obtain ⟨hmid, htop⟩ := s.statusWord_reserved
  dsimp only
  rw [hread]
  exact ⟨hbusy, hdone, herr, hwarn, hherr, hmid, hcode, hfsm, htop, State.busWrite_of_reach hreach v⟩

theorem State.ctrlWord_fields (s : State) :
    s.ctrlWord.extractLsb' 0 2 = 0 ∧ s.ctrlWord.getLsbD 2 = s.rngSrc ∧ s.ctrlWord.getLsbD 3 = s.irqEn ∧
    s.ctrlWord.extractLsb' 4 28 = 0 := by
  have h : ∀ a b : Bool, ((0 : BitVec 28) ++ BitVec.ofBool a ++ BitVec.ofBool b ++ (0 : BitVec 2)).extractLsb' 0 2 = 0 ∧
      ((0 : BitVec 28) ++ BitVec.ofBool a ++ BitVec.ofBool b ++ (0 : BitVec 2)).getLsbD 2 = b ∧
      ((0 : BitVec 28) ++ BitVec.ofBool a ++ BitVec.ofBool b ++ (0 : BitVec 2)).getLsbD 3 = a ∧
      ((0 : BitVec 28) ++ BitVec.ofBool a ++ BitVec.ofBool b ++ (0 : BitVec 2)).extractLsb' 4 28 = 0 := by decide
  exact h s.irqEn s.rngSrc

/-- The output ranges of a command do not depend on IRQ_EN and HERR. -/
theorem State.outputRanges_flags (s : State) (irqEn herr : Bool) :
    ({ s with irqEn := irqEn, herr := herr }).outputRanges = s.outputRanges := by
  have hcmd : ({ s with irqEn := irqEn, herr := herr }).command = s.command := rfl
  rw [State.outputRanges, State.outputRanges, hcmd]
  cases s.command with
  | none => rfl
  | some i => cases i <;> rfl

/-- The bits a CTRL write sets before its soft reset do not outlive it (10_state.md R111). -/
theorem State.resetEngine_ctrlBits (s : State) (v : Word) : (s.ctrlBits v).resetEngine = s.resetEngine := by
  cases hb : s.busy with
  | false => simp only [State.resetEngine, State.ctrlBits, hb, Bool.false_eq_true, if_false]
  | true =>
    have habandon : (s.ctrlBits v).abandon = s.abandon := by
      have hbits : s.ctrlBits v = { s with irqEn := v.getLsbD 3, herr := s.herr || (v.getLsbD 2 != s.rngSrc) } := by
        simp [State.ctrlBits, hb]
      rw [hbits]
      unfold State.abandon
      rw [State.outputRanges_flags]
    simp only [State.resetEngine, habandon]
    rfl

/-- Settles O42: a CTRL write in the order of `State.writeCtrl`, and CTRL reads as `State.ctrlWord`. -/
theorem ctrlRegister : Obligations.CtrlRegister := by
  intro s v
  have hreach : s.reach 0x00C 4 = some (.csr .ctrl) := s.reach_csr (c := .ctrl) rfl
  have hread : (s.busRead 0x00C 4).rdata = s.ctrlWord := by rw [State.busRead_of_reach hreach]; rfl
  refine ⟨(State.busWrite_of_reach hreach v).trans ?_, ?_⟩
  · show s.writeCtrl v = _
    unfold State.writeCtrl
    rw [State.resetEngine_ctrlBits]
    cases hb : s.busy <;> cases hgo : v.getLsbD 0 <;> simp [State.ctrlBits, State.refuse, hb]
  · dsimp only
    rw [hread]
    exact s.ctrlWord_fields

/-! ### What a read does not show -/

/-- Settles O45: what the host reaches and what a register or a DMEM range reads as are made without the hidden buffers. -/
theorem hiddenBuffersAreInvisible : Obligations.HiddenBuffersAreInvisible := by
  intro s k iv c sh off size
  have hreach : ({ s with keyBuf := k, ivBuf := iv, coefBuf := c, shareBuf := sh }).reach off size = s.reach off size := rfl
  cases h : s.reach off size with
  | none =>
    rw [State.busRead, State.busRead, hreach, h]
  | some t =>
    rw [State.busRead_of_reach (hreach.trans h), State.busRead_of_reach h]
    cases t with
    | csr c => cases c <;> rfl
    | gpr r => rfl
    | dmem a => rfl

/-! ### The ROM tables, row by row (10_state.md R142, R143) -/

/-- What holds in every row and column of a table of sixteen rows holds at every index. -/
theorem forall_lt_of_rows {P : Nat → Prop} {n : Nat} (hn : n ≤ 256)
    (h : ∀ r c : Fin 16, 16 * r.val + c.val < n → P (16 * r.val + c.val)) {i : Nat} (hi : i < n) : P i := by
  have hrow := h ⟨i / 16, by omega⟩ ⟨i % 16, by omega⟩
  dsimp only at hrow
  rw [Nat.div_add_mod] at hrow
  exact hrow hi

theorem expRom_succ {i : Nat} (hi : i < 254) : expRom (i + 1) = mulpoly (expRom i) 0x03 :=
  forall_lt_of_rows (P := fun i => expRom (i + 1) = mulpoly (expRom i) 0x03) (by decide) (by decide) hi

theorem logRom_expRom {i : Nat} (hi : i < 255) : logRom (expRom i) = i :=
  forall_lt_of_rows (P := fun i => logRom (expRom i) = i) (by decide) (by decide) hi

/-- Settles O49: the recurrence of EXP and its inverse LOG, row by row; every nonzero byte is the power of its logarithm. -/
theorem romTables : Obligations.RomTables :=
  ⟨rfl, fun _ hi => expRom_succ hi, rfl, fun _ hi => logRom_expRom hi, rfl,
    fun a ha => ⟨logRom a, logRom_lt a ha, expRom_logRom a ha⟩⟩

end Sys2Proof.Machine
end

section
/-! The range and overlap checks, from the first range or pair that fails them (20_memory.md R210-R212). -/

namespace Sys2Proof.Machine

/-- Settles O36: the ranges before `r` are legal and `r` is not, so the search for an illegal range stops at `r`. -/
theorem firstIllegalRangeDecides : Obligations.FirstIllegalRangeDecides := by
  intro size before after r hbefore hlen hend
  have hlegal : before.find? (fun x => !x.legal size) = none := List.find?_eq_none.2 fun x hx => by
    rw [(Range.legal_iff size x).2 (hbefore x hx)]
    decide
  have hr : (!r.legal size) = true := by
    rw [Bool.not_eq_true', Bool.eq_false_iff, ne_eq, Range.legal_iff, not_or, Nat.not_le]
    exact ⟨hlen, hend⟩
  have hfirst : (before ++ r :: after).find? (fun x => !x.legal size) = some r := by
    rw [List.find?_append, hlegal, Option.none_or]
    exact List.find?_cons_of_pos hr
  rw [checkRanges, rangeError, hfirst]
  rfl

/-- Ranges overlap where both are nonempty and share a byte (20_memory.md R212). -/
theorem Range.overlaps_iff (x y : Range) :
    x.overlaps y = true ↔ 0 < x.len ∧ 0 < y.len ∧ x.addr < y.addr + y.len ∧ y.addr < x.addr + x.len := by
  simp [Range.overlaps, and_assoc]

/-- Outputs that overlap no input and no later output do not decide the check. -/
theorem firstOverlap_append_of_clear (ins before later : List Range)
    (h : ∀ (p : List Range) (y : Range) (q : List Range), before = p ++ y :: q →
      ∀ z ∈ ins ++ (q ++ later), ¬ y.overlaps z = true) :
    firstOverlap ins (before ++ later) = firstOverlap ins later := by
  induction before with
  | nil => rfl
  | cons o before ih =>
    have hclear : (ins ++ (before ++ later)).find? (fun z => o.overlaps z) = none :=
      List.find?_eq_none.2 (h [] o before rfl)
    rw [List.cons_append, firstOverlap, hclear]
    exact ih fun p y q he => h (o :: p) y q (congrArg (o :: ·) he)

/-- The first overlap of an output, in the order of the check, decides. -/
theorem firstOverlap_cons_of_overlap {ins later pre post : List Range} {o x : Range}
    (hsplit : ins ++ later = pre ++ x :: post) (hpre : ∀ z ∈ pre, ¬ o.overlaps z = true) (hx : o.overlaps x = true) :
    firstOverlap ins (o :: later) = some (.bufferOverlap o.id x.id) := by
  have hfind : (ins ++ later).find? (fun z => o.overlaps z) = some x := by
    rw [hsplit, List.find?_append, List.find?_eq_none.2 hpre, Option.none_or, List.find?_cons_of_pos hx]
  rw [firstOverlap, hfind]

/-- Settles O37: the range check passes; the outputs before `o` are clear, and the search of `o` stops at `x`
(`firstOverlap_cons_of_overlap`); with every output clear the check comes to its end. -/
theorem firstOverlapDecides : Obligations.FirstOverlapDecides := by
  intro size rs
  dsimp only
  simp only [← Range.overlaps_iff, ← Range.legal_iff]
  intro hlegal
  have hranges : checkRanges size rs = firstOverlap (inputs rs) (outputs rs) := by
    rw [checkRanges, (rangeError_eq_none_iff size rs).2 hlegal]
  rw [hranges]
  refine ⟨fun before later pre post o x houts hsplit hbefore hpre hx => ?_, fun hclear => ?_⟩
  · rw [houts, firstOverlap_append_of_clear _ _ _ hbefore, firstOverlap_cons_of_overlap hsplit hpre hx]
  · have hall := firstOverlap_append_of_clear (inputs rs) (outputs rs) []
      fun p y q he z hz => hclear p y q he z (by simpa using hz)
    rwa [List.append_nil] at hall

end Sys2Proof.Machine
end

section
/-! The DMEM window of the aperture, and the accesses that are refused (20_memory.md R201-R207). -/

namespace Sys2Proof.Machine

/-! ### Little-endian values (20_memory.md R202) -/

@[simp] theorem length_leBytes (size : Nat) (v : Word) : (leBytes size v).length = size := by simp [leBytes]

theorem leNat_lt (bs : List Byte) : leNat bs < 2 ^ (8 * bs.length) := by
  induction bs with
  | nil => simp [leNat]
  | cons b bs ih =>
    have hb := b.isLt
    have hpow : 2 ^ (8 * (b :: bs).length) = 2 ^ 8 * 2 ^ (8 * bs.length) := by
      rw [List.length_cons, Nat.mul_succ, Nat.add_comm, Nat.pow_add]
    rw [leNat, hpow]
    omega

/-- The little-endian number of a DMEM range is the sum of its bytes, each at its place. -/
theorem leNat_read (m : Mem) (a n : Nat) :
    leNat (m.read a n) = ((List.range n).map (fun i => (m.byte (a + i)).toNat * 2 ^ (8 * i))).sum := by
  induction n generalizing a with
  | zero => rfl
  | succ n ih =>
    have hread : m.read a (n + 1) = m.byte a :: m.read (a + 1) n := by
      simp only [Mem.read, List.range_succ_eq_map, List.map_cons, List.map_map, Function.comp_def]
      simp [Nat.add_assoc, Nat.add_comm 1]
    have hplace : ∀ i, (m.byte (a + i.succ)).toNat * 2 ^ (8 * i.succ)
        = 2 ^ 8 * ((m.byte (a + 1 + i)).toNat * 2 ^ (8 * i)) := fun i => by
      rw [Nat.succ_eq_add_one, show a + (i + 1) = a + 1 + i by omega, Nat.mul_succ, Nat.pow_add]
      ring
    rw [hread, leNat, ih, List.range_succ_eq_map, List.map_cons, List.map_map, List.sum_cons]
    simp only [Function.comp_def, hplace, List.sum_map_mul_left]
    simp

/-- Settles O38: the idle engine lets the host reach DMEM, where a write stores bytes as `Mem.write` does and a read returns
their little-endian number, which a word holds. -/
theorem dmemWindow : Obligations.DmemWindow := by
  intro s a size v hb hsize halign hend
  have hreach : s.reach (0x100_0000 + a) size = some (.dmem a) := by
    rw [s.reach_idle _ _ hb, targetAt_dmem hsize halign hend]
  have hwrite : s.busWrite (0x100_0000 + a) size v = s.memWrite a (leBytes size v) := State.busWrite_of_reach hreach v
  have hread := State.busRead_of_reach hreach
  dsimp only
  rw [hwrite, hread]
  refine ⟨fun i hi => ?_, fun x hx => ?_, rfl, rfl, ?_⟩
  · have hbyte := Mem.byte_write_of_mem s.dmem a (leBytes size v) i (by simpa using hi)
    simpa [leBytes] using hbyte
  · exact Mem.byte_write_of_notin s.dmem a (leBytes size v) x (by simpa using hx)
  · have hlt := leNat_lt (s.dmem.read a size)
    have hword : 2 ^ (8 * (s.dmem.read a size).length) ≤ 2 ^ 32 :=
      Nat.pow_le_pow_right (by omega) (by rw [Mem.length_read]; omega)
    show (BitVec.ofNat 32 (leNat (s.dmem.read a size))).toNat = _
    rw [BitVec.toNat_ofNat, Nat.mod_eq_of_lt (hlt.trans_le hword), leNat_read]

/-! ### Refused accesses (20_memory.md R204, R207) -/

/-- An access that reaches nothing is refused. -/
theorem State.refused_of_reach {s : State} {off size : Nat} (h : s.reach off size = none) (v : Word) :
    s.busWrite off size v = { s with herr := true } ∧ s.busRead off size = { s with herr := true, rdata := 0 } := by
  rw [State.busWrite, State.busRead, h]
  exact ⟨rfl, rfl⟩

/-- The registers of the window are at the multiples of 4 below 0x024 and from 0x040 to 0x07C (10_state.md R110). -/
theorem offset_of_registerAt {off : Nat} {t : Target} (h : registerAt off = some t) :
    off % 4 = 0 ∧ (off < 0x024 ∨ (0x040 ≤ off ∧ off < 0x080)) := by
  by_contra hn
  have hcsr : ∀ k ∈ [0x000, 0x004, 0x008, 0x00C, 0x010, 0x014, 0x018, 0x01C, 0x020], off ≠ k := by
    have hoffsets : ∀ k ∈ [0x000, 0x004, 0x008, 0x00C, 0x010, 0x014, 0x018, 0x01C, 0x020], k % 4 = 0 ∧ k < 0x024 := by
      decide
    rintro k hk rfl
    exact hn ((hoffsets off hk).imp_right .inl)
  have hgpr : ¬ (0x040 ≤ off ∧ off < 0x080 ∧ off % 4 = 0) := fun ⟨hlo, hhi, halign⟩ => hn ⟨halign, .inr ⟨hlo, hhi⟩⟩
  simp only [List.forall_mem_cons] at hcsr
  obtain ⟨hid, hversion, hparam, hctrl, hstatus, hcmd, herrInfo, hrngPtr, hrngCnt, -⟩ := hcsr
  rw [registerAt, if_neg hid, if_neg hversion, if_neg hparam, if_neg hctrl, if_neg hstatus, if_neg hcmd,
    if_neg herrInfo, if_neg hrngPtr, if_neg hrngCnt, dif_neg hgpr] at h
  cases h

/-- What a legal access reaches: a register with an aligned 32-bit access, or DMEM (20_memory.md R202, R203). -/
theorem targetAt_eq_some {dmemBytes off size : Nat} {t : Target} (h : targetAt dmemBytes off size = some t) :
    (off < 0x1000 ∧ size = 4 ∧ registerAt off = some t) ∨
    (t = .dmem (off - dmemBase) ∧ dmemBase ≤ off ∧ (size = 1 ∨ size = 2 ∨ size = 4) ∧ (off - dmemBase) % size = 0 ∧
      off - dmemBase + size ≤ dmemBytes) := by
  unfold targetAt at h
  split_ifs at h with hwin hsize hdmem
  · exact .inl ⟨hwin, hsize, h⟩
  · exact .inr ⟨(Option.some.inj h).symm, hdmem⟩

/-- Settles O43: what `targetAt` answers is an aligned register or a legal range of DMEM, and the access is neither. -/
theorem refusedAccess : Obligations.RefusedAccess := by
  intro s off size v hreg hdmem
  refine State.refused_of_reach ?_ v
  unfold State.reach
  cases ht : targetAt s.params.dmemBytes off size with
  | none => rfl
  | some t =>
    rcases targetAt_eq_some ht with ⟨-, hsize, hr⟩ | ⟨-, hd⟩
    · exact absurd ⟨hsize, offset_of_registerAt hr⟩ hreg
    · exact absurd hd hdmem

/-- The registers at these offsets are the engine's own (20_memory.md R207). -/
theorem engineOwned_of_registerAt {off : Nat} {t : Target} (h : registerAt off = some t)
    (ho : off = 0x014 ∨ off = 0x01C ∨ (0x040 ≤ off ∧ off < 0x080)) : t.engineOwned = true := by
  rcases ho with rfl | rfl | ⟨hlo, hhi⟩
  · obtain rfl : .csr .cmd = t := Option.some.inj h
    rfl
  · obtain rfl : .csr .rngPtr = t := Option.some.inj h
    rfl
  · obtain ⟨halign, -⟩ := offset_of_registerAt h
    have hplace : off = 0x040 + 4 * ((off - 0x040) / 4) := by omega
    have hgpr := registerAt_gpr ⟨(off - 0x040) / 4, by omega⟩
    rw [← hplace, h] at hgpr
    cases hgpr
    rfl

/-- Settles O44: whatever these offsets reach is the engine's own, which a running engine refuses (`State.reach_busy`). -/
theorem busyRefusal : Obligations.BusyRefusal := by
  intro s off size v hb ho
  refine State.refused_of_reach ?_ v
  cases ht : targetAt s.params.dmemBytes off size with
  | none => rw [State.reach, ht]
  | some t =>
    have howned : t.engineOwned = true := by
      rcases targetAt_eq_some ht with ⟨hwin, -, hr⟩ | ⟨rfl, -⟩
      · exact engineOwned_of_registerAt hr (ho.resolve_left (by omega))
      · rfl
    rw [s.reach_busy off size t hb ht, if_pos howned]

end Sys2Proof.Machine
end

section
/-! What the engine writes to DMEM, said once (`turnWrites_turnOf`): it stays in its canonical form, and a command changes
no byte outside its output ranges. -/

namespace Sys2Proof.Machine

open Sys2Proof.Safety

/-! ### Writes of output ranges -/

/-- DMEM after writes to some ranges, each within its range where `fit` holds. -/
def WritesIn (fit : Prop) (rs : List Range) (m m' : Mem) : Prop :=
  ∃ ws : List (Range × List Byte), m' = ws.foldl (fun m w => m.write w.1.addr w.2) m ∧
    ∀ w ∈ ws, w.1 ∈ rs ∧ (fit → w.2.length ≤ w.1.len)

theorem WritesIn.refl {fit : Prop} {rs : List Range} {m : Mem} : WritesIn fit rs m m := ⟨[], rfl, nofun⟩

theorem WritesIn.write {fit : Prop} {rs : List Range} {m m' : Mem} {r : Range} {bs : List Byte}
    (h : WritesIn fit rs m m') (hr : r ∈ rs) (hl : fit → bs.length ≤ r.len) :
    WritesIn fit rs m (m'.write r.addr bs) := by
  obtain ⟨ws, rfl, hws⟩ := h
  refine ⟨ws ++ [(r, bs)], by rw [List.foldl_append]; rfl, fun w hw => ?_⟩
  rcases List.mem_append.1 hw with hw | hw
  · exact hws w hw
  · rw [List.mem_singleton.1 hw]
    exact ⟨hr, hl⟩

theorem WritesIn.wf {fit : Prop} {rs : List Range} {m m' : Mem} (h : WritesIn fit rs m m') (hm : m.wf) : m'.wf := by
  obtain ⟨ws, rfl, -⟩ := h
  induction ws generalizing m with
  | nil => exact hm
  | cons w ws ih => exact ih (Mem.wf_write m w.1.addr w.2 hm)

theorem WritesIn.byte {fit : Prop} {rs : List Range} {m m' : Mem} (h : WritesIn fit rs m m') (hf : fit) {a : Nat}
    (ha : ¬ inRanges rs a) : m'.byte a = m.byte a := by
  obtain ⟨ws, rfl, hws⟩ := h
  induction ws generalizing m with
  | nil => rfl
  | cons w ws ih =>
    obtain ⟨⟨hr, hl⟩, hws⟩ := List.forall_mem_cons.1 hws
    have hlen := hl hf
    have hout : ¬ (w.1.addr ≤ a ∧ a < w.1.addr + w.1.len) := fun hin => ha ⟨w.1, hr, hin⟩
    rw [List.foldl_cons, ih hws, Mem.byte_write_of_notin _ _ _ _ (by omega)]

/-! ### The output ranges of a command -/

/-- An output range at place `k` of the ranges of a command. -/
theorem mem_outputs {r : Range} {rs : List Range} (k : Nat) (hr : rs[k]? = some r) (hd : r.dir = .output) :
    r ∈ outputs rs :=
  List.mem_filter.2 ⟨List.mem_of_getElem? hr, by rw [hd]; rfl⟩

theorem outputs_append (xs ys : List Range) : outputs (xs ++ ys) = outputs xs ++ outputs ys := List.filter_append xs ys

/-- The range of the replayed bytes is an input. -/
theorem outputs_append_replayRange (rs : List Range) (s : State) (n : Nat) :
    outputs (rs ++ s.replayRange n) = outputs rs := by
  have hreplay : outputs (s.replayRange n) = [] := by
    unfold State.replayRange
    split <;> rfl
  rw [outputs_append, hreplay, List.append_nil]

/-- The tokens of VOPEN are inputs, and the plaintext is its only output. -/
theorem outputs_rangesVopen (s : State) : outputs (rangesVopen s) = [⟨.output, 5, s.arg 5, plainLen (s.arg 2)⟩] := by
  have htokens : ∀ entries : List ((Nat × Nat) × Nat),
      outputs (entries.map (fun ei => ⟨.input, tokenId ei.2, ei.1.1, ei.1.2⟩)) = [] := fun entries => by
    induction entries with
    | nil => rfl
    | cons ei entries ih => exact ih
  rw [rangesVopen, outputs_append, outputs_append, htokens]
  rfl

/-- The output ranges of a command are made of the general registers alone. -/
theorem outputs_rangesOf_of_regs_eq {s t : State} (i : Instr) (h : t.regs = s.regs) :
    outputs (rangesOf i t) = outputs (rangesOf i s) := by
  suffices hregs : outputs (rangesOf i t) = outputs (rangesOf i { s with regs := t.regs }) by rw [hregs, h]
  cases i with
  | split | aenc | vseal => exact (outputs_append_replayRange _ t _).trans (outputs_append_replayRange _ _ _).symm
  | vopen =>
    show outputs (rangesVopen _) = outputs (rangesVopen _)
    rw [outputs_rangesVopen, outputs_rangesVopen]
    rfl
  | _ => rfl

/-! ### Sizes of what is written -/

@[simp] theorem State.length_memRead (s : State) (a n : Nat) : (s.memRead a n).length = n := Mem.length_read s.dmem a n

theorem length_flatten_le {xss : List (List Byte)} {k : Nat} (h : ∀ x ∈ xss, x.length ≤ k) :
    xss.flatten.length ≤ xss.length * k := by
  rw [List.length_flatten]
  refine (List.sum_le_card_nsmul _ k (List.forall_mem_map.2 h)).trans ?_
  rw [List.length_map, smul_eq_mul]

/-- What ADEC and VOPEN decrypt fits the plaintext range. -/
theorem length_of_gcmDec {k iv ct p : List Byte} (h : gcmDec k iv ct = some p) : p.length ≤ plainLen ct.length := by
  unfold gcmDec at h
  split_ifs at h
  cases h
  exact length_gcmPlain_le k iv ct

/-- The ciphertext with its tag fits the range AENC and VSEAL have for it. -/
theorem length_gcmEnc_memRead_le (k iv : List Byte) (s : State) (a n : Nat) :
    (gcmEnc k iv (s.memRead a n)).length ≤ n + 16 := by
  have hlen := length_gcmEnc_le k iv (s.memRead a n)
  rwa [State.length_memRead] at hlen

/-! ### One turn -/

/-- What a turn writes: output ranges of its command; and a turn that goes on keeps the buffers the outputs are made of
within the size of the outputs. -/
def TurnWrites (i : Instr) (s : State) : Progress → Prop
  | .more t => WritesIn (OutputsFit s) (outputs (rangesOf i s)) s.dmem t.dmem ∧ (OutputsFit s → OutputsFit t)
  | .ends t => WritesIn (OutputsFit s) (outputs (rangesOf i s)) s.dmem t.dmem

/-- The FSM moves to a state that does not look at SHAREBUF. -/
theorem outputsFit_move {s : State} {f : Fsm} {m : Mem} {key iv : List Byte} {shares : List (List Byte)}
    (hf : ¬ (f = .sealScrub ∨ f = .sealEncode)) (hkey : key.length ≤ 32) (hiv : iv.length ≤ 12)
    (hshare : ∀ r ∈ shares, r.length ≤ 34) :
    OutputsFit { s with fsm := f, dmem := m, keyBuf := key, ivBuf := iv, shareBuf := shares } :=
  ⟨hkey, hiv, hshare, fun hs => absurd hs hf⟩

theorem outputsFit_putCoef {s : State} (b : Byte) (h : OutputsFit s) : OutputsFit (putCoef b (s.afterDraws 1)) :=
  ⟨h.key, h.iv, h.share, h.count⟩

/-- A draw that KEYBUF or IVBUF has still room for. -/
theorem outputsFit_putKeyIv {s : State} (hl : leftKeyIv s ≠ 0) (b : Byte) (h : OutputsFit s) :
    OutputsFit (putKeyIv b (s.afterDraws 1)) := by
  have hsum : s.keyBuf.length + s.ivBuf.length < 44 := Nat.lt_of_sub_ne_zero hl
  by_cases hk : s.keyBuf.length < 32
  · rw [show putKeyIv b (s.afterDraws 1) = { s.afterDraws 1 with keyBuf := s.keyBuf ++ [b] } from if_pos hk]
    exact ⟨List.length_append.trans_le hk, h.iv, h.share, h.count⟩
  · have hiv : s.ivBuf.length < 12 := by omega
    rw [show putKeyIv b (s.afterDraws 1) = { s.afterDraws 1 with ivBuf := s.ivBuf ++ [b] } from if_neg hk]
    exact ⟨h.key, List.length_append.trans_le hiv, h.share, h.count⟩

theorem turnWrites_move {i : Instr} {s : State} {f : Fsm} (hf : ¬ (f = .sealScrub ∨ f = .sealEncode)) {m : Mem}
    (hm : WritesIn (OutputsFit s) (outputs (rangesOf i s)) s.dmem m) :
    TurnWrites i s (.more { s with fsm := f, dmem := m }) :=
  ⟨hm, fun h => outputsFit_move hf h.key h.iv h.share⟩

theorem turnWrites_ite {i : Instr} {s : State} {c : Prop} [Decidable c] {p q : Progress} (hp : TurnWrites i s p)
    (hq : TurnWrites i s q) : TurnWrites i s (if c then p else q) := by
  split
  · exact hp
  · exact hq

theorem turnWrites_simpleTurn {i : Instr} {s : State} {check : State → Option CmdError} {work : State → Progress}
    (hw : TurnWrites i s (work s)) : TurnWrites i s (simpleTurn check work s) := by
  rcases simpleTurn_cases check work s with ⟨-, h⟩ | ⟨-, e, -, h⟩ | ⟨-, -, h⟩ <;> rw [h]
  · exact hw
  · exact .refl
  · exact turnWrites_move (by decide) .refl

theorem turnWrites_drawThen {i : Instr} {s : State} {left : Nat} {put : Byte → State → State} {k : State → Progress}
    (hput : ∀ b u, (put b u).dmem = u.dmem)
    (hfit : left ≠ 0 → ∀ b, OutputsFit s → OutputsFit (put b (s.afterDraws 1))) (hk : TurnWrites i s (k s)) :
    TurnWrites i s (drawThen left put k s) := by
  rcases drawThen_cases left put k s with ⟨-, h⟩ | ⟨-, -, h⟩ | ⟨hl, -, b, -, h⟩ <;> rw [h]
  · exact hk
  · exact .refl
  · refine ⟨?_, hfit hl b⟩
    rw [hput]
    exact .refl

/-! ### The commands whose work is in EXEC -/

theorem turnWrites_fieldResult (i : Instr) (rd : RegNum) (s : State) (o : Option Byte) :
    TurnWrites i s (fieldResult rd o s) := by
  cases o <;> exact .refl

theorem turnWrites_workSplit (s : State) : TurnWrites .split s (workSplit s) := by
  have hrecs : ∀ r ∈ splitfn (s.memRead (s.arg 1) (s.arg 2)) (s.arg 3) (s.arg 4) s.coefBuf, r.length ≤ s.arg 2 + 2 :=
    fun r hr => by rw [length_of_mem_splitfn hr, State.length_memRead]
  exact .write (r := ⟨.output, 5, s.arg 5, s.arg 3 * (s.arg 2 + 2)⟩) .refl (mem_outputs 1 rfl rfl)
    fun _ => (length_flatten_le hrecs).trans_eq (congrArg (· * _) (length_splitfn _ _ _ _))

theorem turnWrites_workCombine (s : State) : TurnWrites .combine s (workCombine s) := by
  unfold workCombine
  dsimp only
  split
  · exact .refl
  · exact .write (r := ⟨.output, 5, s.arg 5, s.arg 2⟩) .refl (mem_outputs 1 rfl rfl)
      fun _ => (length_combinefn _ _).le

theorem turnWrites_workEncode (s : State) : TurnWrites .encode s (workEncode s) := by
  refine turnWrites_ite .refl (turnWrites_ite .refl ?_)
  exact .write (r := ⟨.output, 5, s.arg 5, 3 + 2 * s.arg 2⟩) .refl (mem_outputs 1 rfl rfl)
    fun _ => by rw [length_encodefn, State.length_memRead, Nat.add_sub_cancel]

theorem turnWrites_workDecode (s : State) : TurnWrites .decode s (workDecode s) := by
  unfold workDecode
  split
  · exact .refl
  next r hr =>
    exact .write (r := ⟨.output, 5, s.arg 5, s.arg 3 + 2⟩) .refl (mem_outputs 1 rfl rfl)
      fun _ => (length_of_decodefn hr).le

theorem turnWrites_workAenc (s : State) : TurnWrites .aenc s (workAenc s) := by
  have hct : WritesIn (OutputsFit s) (outputs (rangesOf .aenc s)) s.dmem _ :=
    .write (r := ⟨.output, 5, s.arg 5, s.arg 2 + 16⟩) .refl (mem_outputs 1 rfl rfl)
      fun _ => length_gcmEnc_memRead_le s.keyBuf s.ivBuf s (s.arg 1) (s.arg 2)
  have hkey := hct.write (r := ⟨.output, 6, s.arg 6, 32⟩) (mem_outputs 2 rfl rfl) OutputsFit.key
  have hiv := hkey.write (r := ⟨.output, 7, s.arg 7, 12⟩) (mem_outputs 3 rfl rfl) OutputsFit.iv
  exact hiv.write (r := ⟨.output, 8, s.arg 8, 32⟩) (mem_outputs 4 rfl rfl)
    fun _ => (length_sha256 (s.memRead (s.arg 1) (s.arg 2))).le

theorem turnWrites_workAdec (s : State) : TurnWrites .adec s (workAdec s) := by
  refine turnWrites_ite .refl ?_
  dsimp only
  split
  · exact .refl
  next p hp =>
    exact .write (r := ⟨.output, 5, s.arg 5, plainLen (s.arg 2)⟩) .refl (mem_outputs 3 rfl rfl)
      fun _ => (length_of_gcmDec hp).trans_eq (congrArg plainLen (State.length_memRead _ _ _))

theorem turnWrites_workHash (s : State) : TurnWrites .hash s (workHash s) :=
  .write (r := ⟨.output, 5, s.arg 5, 32⟩) .refl (mem_outputs 1 rfl rfl) fun _ => (length_sha256 _).le

/-! ### The vault -/

/-- SEAL_KEYGEN writes 24 hex digits of the IV (46_vault_fsm.md R610). -/
theorem turnWrites_sealKeygen (s : State) :
    TurnWrites .vseal s (.more { sealKeygen s with fsm := .sealEncrypt }) :=
  turnWrites_move (by decide)
    (.write (r := ⟨.output, 6, s.arg 6, 24⟩) .refl (mem_outputs 2 rfl rfl)
      fun h => by have hiv := h.iv; rw [length_hexhex]; dsimp only; omega)

theorem turnWrites_sealEncrypt (s : State) : TurnWrites .vseal s (.more { sealEncrypt s with fsm := .sealDigest }) :=
  turnWrites_move (by decide)
    (.write (r := ⟨.output, 5, s.arg 5, s.arg 2 + 16⟩) .refl (mem_outputs 1 rfl rfl)
      fun _ => length_gcmEnc_memRead_le _ _ _ _ _)

theorem turnWrites_sealDigest (s : State) : TurnWrites .vseal s (.more { sealDigest s with fsm := .sealSplit }) :=
  turnWrites_move (by decide)
    (.write (r := ⟨.output, 8, s.arg 8, 64⟩) .refl (mem_outputs 4 rfl rfl)
      fun _ => by rw [length_hexhex, length_sha256])

/-- SEAL_SPLIT computes n shares of 34 bytes. -/
theorem turnWrites_sealSplit (s : State) : TurnWrites .vseal s (.more { sealSplit s with fsm := .sealScrub }) := by
  refine ⟨.refl, fun h => ⟨h.key, h.iv, fun r hr => ?_, fun _ => (length_splitfn _ _ _ _).le⟩⟩
  exact (length_of_mem_splitfn hr).trans_le (Nat.add_le_add_right h.key 2)

/-- SEAL_ENCODE writes at most n tokens of 67 bytes (46_vault_fsm.md R610). -/
theorem length_tokens_le {s : State} (hf : s.fsm = .sealEncode) (h : OutputsFit s) :
    (s.shareBuf.map encodefn).flatten.length ≤ tokenLen * s.arg 3 := by
  have htoken : ∀ tok ∈ s.shareBuf.map encodefn, tok.length ≤ tokenLen := fun tok ht => by
    obtain ⟨r, hr, rfl⟩ := List.mem_map.1 ht
    have hlen := h.share r hr
    rw [length_encodefn, tokenLen]
    omega
  have hcount : s.shareBuf.length ≤ s.arg 3 := h.count (.inr hf)
  calc (s.shareBuf.map encodefn).flatten.length
      ≤ (s.shareBuf.map encodefn).length * tokenLen := length_flatten_le htoken
    _ ≤ s.arg 3 * tokenLen := by rw [List.length_map]; exact Nat.mul_le_mul_right _ hcount
    _ = tokenLen * s.arg 3 := Nat.mul_comm _ _

theorem turnWrites_turnVseal (s : State) : TurnWrites .vseal s (turnVseal s) := by
  rcases turnVseal_cases s with ⟨-, h⟩ | ⟨-, h⟩ | ⟨-, h⟩ | ⟨-, h⟩ | ⟨hf, h⟩ | ⟨hf, h⟩ | ⟨-, e, -, h⟩ | ⟨-, -, h⟩ <;> rw [h]
  · exact turnWrites_drawThen (fun b u => putKeyIv_dmem u b) outputsFit_putKeyIv (turnWrites_sealKeygen s)
  · exact turnWrites_sealEncrypt s
  · exact turnWrites_sealDigest s
  · exact turnWrites_drawThen (fun _ _ => rfl) (fun _ => outputsFit_putCoef) (turnWrites_sealSplit s)
  · exact ⟨.refl, fun h => ⟨Nat.zero_le _, h.iv, h.share, fun _ => h.count (.inl hf)⟩⟩
  · exact .write (r := ⟨.output, 7, s.arg 7, tokenLen * s.arg 3⟩) .refl (mem_outputs 3 rfl rfl)
      (length_tokens_le hf)
  · exact .refl
  · exact turnWrites_move (by decide) .refl

theorem turnWrites_turnVopen (s : State) : TurnWrites .vopen s (turnVopen s) := by
  rcases turnVopen_cases s with ⟨-, h⟩ | ⟨-, h⟩ | ⟨-, h⟩ | ⟨-, h⟩ | ⟨-, h⟩ | ⟨-, h⟩ | ⟨-, e, -, h⟩ | ⟨-, -, h⟩ <;> rw [h]
  · rcases openDecode_cases s with ⟨e, h⟩ | ⟨recs, hd, h⟩ <;> rw [h]
    · exact .refl
    · obtain ⟨-, hall⟩ := length_of_decodeTokens hd
      exact ⟨.refl, fun h => outputsFit_move (by decide) h.key h.iv fun r hr => (hall r hr).le⟩
  · rcases openIvCheck_cases s with ⟨e, h⟩ | ⟨-, h⟩ <;> rw [h]
    · exact .refl
    · have hiv : (unhex (s.memRead (s.arg 3) 24)).length = 12 := length_unhex 12 _ (Mem.length_read _ _ _)
      exact ⟨.refl, fun h => outputsFit_move (by decide) h.key hiv.le h.share⟩
  · rcases openCombine_cases s with ⟨e, -, h⟩ | ⟨-, h⟩ <;> rw [h]
    · exact .refl
    · exact ⟨.refl, fun h => outputsFit_move (by decide) (length_combinefn _ _).le h.iv nofun⟩
  · rcases openAuth_cases s with ⟨e, h⟩ | ⟨-, -, h⟩ <;> rw [h]
    · exact .refl
    · exact turnWrites_move (by decide) .refl
  · refine turnWrites_move (f := .openDigest) (by decide)
      (.write (r := ⟨.output, 5, s.arg 5, plainLen (s.arg 2)⟩) .refl (outputs_rangesVopen s ▸ List.mem_singleton_self _) fun _ => ?_)
    simpa [openPlain, plainLen, State.memRead] using length_gcmPlain_le s.keyBuf s.ivBuf (s.memRead (s.arg 1) (s.arg 2))
  · exact .refl
  · exact .refl
  · exact turnWrites_move (by decide) .refl

/-- Every turn of every command writes output ranges of the command alone (20_memory.md R213). -/
theorem turnWrites_turnOf (i : Instr) (s : State) : TurnWrites i s (turnOf i s) := by
  cases i with
  | nop | gadd | gmul | gpow | geval =>
    apply turnWrites_simpleTurn
    exact .refl
  | gdiv | ginv =>
    apply turnWrites_simpleTurn
    exact turnWrites_fieldResult _ _ s _
  | split =>
    apply turnWrites_simpleTurn
    exact turnWrites_drawThen (fun _ _ => rfl) (fun _ => outputsFit_putCoef) (turnWrites_workSplit s)
  | combine =>
    apply turnWrites_simpleTurn
    exact turnWrites_workCombine s
  | encode =>
    apply turnWrites_simpleTurn
    exact turnWrites_workEncode s
  | decode =>
    apply turnWrites_simpleTurn
    exact turnWrites_workDecode s
  | aenc =>
    apply turnWrites_simpleTurn
    exact turnWrites_drawThen (fun b u => putKeyIv_dmem u b) outputsFit_putKeyIv (turnWrites_workAenc s)
  | adec =>
    apply turnWrites_simpleTurn
    exact turnWrites_workAdec s
  | hash =>
    apply turnWrites_simpleTurn
    exact turnWrites_workHash s
  | vseal => exact turnWrites_turnVseal s
  | vopen => exact turnWrites_turnVopen s

/-! ### A command changes no byte outside its output ranges -/

/-- Settles O27: a turn writes output ranges alone (`turnWrites_turnOf`), and while the turns go on the registers, and with
them the output ranges, stay as they were, and the buffers stay within the sizes of the outputs. -/
theorem commandsWriteOnlyOutputs : Obligations.CommandsWriteOnlyOutputs := by
  intro i s t a hfit hexec ha
  rw [exec_eq_runCommand, runCommand, Host.Outcome.next.injEq] at hexec
  subst hexec
  refine runTurns_induction (fun u => OutputsFit u ∧ u.regs = s.regs ∧ u.dmem.byte a = s.dmem.byte a)
    (fun u => u.dmem.byte a = s.dmem.byte a) (fun u ⟨_, _, hu⟩ => hu) ?_ ?_ _ s ⟨hfit, rfl, rfl⟩
  · rintro u w ⟨hfitu, hregs, hu⟩ hw
    obtain ⟨hwrites, hkeep⟩ : TurnWrites i u (.more w) := hw ▸ turnWrites_turnOf i u
    have hshape : TurnShape i u (.more w) := hw ▸ turnShape_turnOf i u
    obtain ⟨hmove, -⟩ := hshape
    rw [outputs_rangesOf_of_regs_eq i hregs] at hwrites
    exact ⟨hkeep hfitu, by rw [hmove]; exact hregs, (hwrites.byte hfitu ha).trans hu⟩
  · rintro u w ⟨hfitu, hregs, hu⟩ hw
    have hwrites : WritesIn _ _ _ _ := hw ▸ turnWrites_turnOf i u
    rw [outputs_rangesOf_of_regs_eq i hregs] at hwrites
    exact (hwrites.byte hfitu ha).trans hu

/-! ### DMEM stays in its canonical form -/

theorem turnOf_wf (i : Instr) (s : State) (h : s.dmem.wf) : (turnOf i s).state.dmem.wf := by
  have hw := turnWrites_turnOf i s
  cases hp : turnOf i s with
  | more t =>
    rw [hp] at hw
    obtain ⟨hwrites, -⟩ := hw
    exact hwrites.wf h
  | ends t =>
    rw [hp] at hw
    exact hw.wf h

theorem engineTurn_wf (s : State) (h : s.dmem.wf) : (engineTurn s).dmem.wf := by
  unfold engineTurn
  split_ifs
  · cases s.command with
    | some i => exact turnOf_wf i s h
    | none => exact h
  · exact h

theorem exec_wf {i : Instr} {s t : State} (h : s.dmem.wf) (he : exec i s = .next t) : t.dmem.wf := by
  rw [exec_eq_runCommand, runCommand, Host.Outcome.next.injEq] at he
  subst he
  exact runTurns_invariant (fun u => u.dmem.wf) (turnOf_wf i) _ s h

theorem engineRun_wf {s t : State} (h : s.dmem.wf) (he : engineRun s = .next t) : t.dmem.wf := by
  unfold engineRun at he
  split_ifs at he
  · cases hc : s.command with
    | some i => rw [hc] at he; exact exec_wf h he
    | none => rw [hc] at he; cases he; exact h
  · cases he; exact h

theorem State.writeCtrl_wf (s : State) (v : Word) (h : s.dmem.wf) : (s.writeCtrl v).dmem.wf := by
  unfold State.writeCtrl
  split_ifs
  · exact State.resetEngine_wf (s.ctrlBits v) h
  · exact h
  · exact h
  · exact h

/-- A host write reaches DMEM through a write of DMEM or the soft reset of CTRL. -/
theorem State.writeTarget_wf (s : State) (t : Target) (size : Nat) (v : Word) (h : s.dmem.wf) :
    (s.writeTarget t size v).dmem.wf := by
  cases t with
  | csr c =>
    cases c with
    | ctrl => exact s.writeCtrl_wf v h
    | id | version | param | status | cmd | errInfo | rngPtr | rngCnt => exact h
  | gpr r => exact h
  | dmem a => exact Mem.wf_write _ _ _ h

theorem State.hostWrite_wf (s : State) (off size : Nat) (v : Word) (h : s.dmem.wf) : (s.hostWrite off size v).dmem.wf := by
  rcases s.hostWrite_cases off size v with ⟨-, e⟩ | ⟨-, e⟩ <;> rw [e]
  · unfold State.busWrite
    cases s.reach off size with
    | some t => exact s.writeTarget_wf t size v h
    | none => exact h
  · exact h

/-- A host read leaves DMEM alone. -/
theorem State.hostRead_dmem (s : State) (off size : Nat) : (s.hostRead off size).dmem = s.dmem := by
  rcases s.hostRead_cases off size with ⟨-, e⟩ | ⟨-, e⟩ <;> rw [e]
  unfold State.busRead
  cases s.reach off size <;> rfl

/-- Settles O28: writes of the host (`State.hostWrite_wf`) and of the engine (`turnOf_wf`), and a reset
(`State.driveReset_wf`), keep the addresses rising, and nothing else touches DMEM. -/
theorem memoryStaysCanonical : Obligations.MemoryStaysCanonical := by
  intro s t h he
  unfold step at he
  split at he
  · exact engineRun_wf h he
  next e rest _ =>
    cases e with
    | busWrite off size v =>
      obtain rfl := Host.Outcome.next.inj he
      exact State.hostWrite_wf _ off size v h
    | busRead off size =>
      obtain rfl := Host.Outcome.next.inj he
      exact (State.hostRead_dmem { s with pending := rest } off size).symm ▸ h
    | entropyByte b =>
      obtain rfl := Host.Outcome.next.inj he
      exact h
    | rstPin high =>
      obtain rfl := Host.Outcome.next.inj he
      exact State.driveReset_wf _ high h
    | engineTurn =>
      obtain rfl := Host.Outcome.next.inj he
      exact engineTurn_wf _ h
    | engineRun => exact engineRun_wf (s := { s with pending := rest }) h he

end Sys2Proof.Machine
end

section
/-! Draws and waits of a command, and that a command taken by turns, or resumed after a wait, gives what one run gives: a
command has turns enough to finish (`turnsLeft`), and the bytes at the end of the port change no turn before they are drawn
(`turnOf_offer`). -/

namespace Sys2Proof.Machine

open Sys2Proof.Safety

/-! ### One draw -/

/-- The states that draw (20_memory.md R233, 46_vault_fsm.md R605). -/
theorem drawing_of_drawsLeft {i : Instr} {s : State} (h : drawsLeft i s ≠ 0) :
    (i = .split ∧ s.fsm = .exec) ∨ (i = .aenc ∧ s.fsm = .exec) ∨ (i = .vseal ∧ s.fsm = .sealKeygen) ∨
    (i = .vseal ∧ s.fsm = .sealSplit) := by
  unfold drawsLeft at h
  split at h
  next hf => exact .inl ⟨rfl, hf⟩
  next hf => exact .inr (.inl ⟨rfl, hf⟩)
  next hf => exact .inr (.inr (.inl ⟨rfl, hf⟩))
  next hf => exact .inr (.inr (.inr ⟨rfl, hf⟩))
  · exact absurd rfl h

theorem drawsLeft_split {s : State} (h : s.fsm = .exec) : drawsLeft .split s = leftSplit s := by
  unfold drawsLeft
  rw [h]

theorem drawsLeft_aenc {s : State} (h : s.fsm = .exec) : drawsLeft .aenc s = leftKeyIv s := by
  unfold drawsLeft
  rw [h]

theorem drawsLeft_sealKeygen {s : State} (h : s.fsm = .sealKeygen) : drawsLeft .vseal s = leftKeyIv s := by
  unfold drawsLeft
  rw [h]

theorem drawsLeft_sealSplit {s : State} (h : s.fsm = .sealSplit) : drawsLeft .vseal s = leftSeal s := by
  unfold drawsLeft
  rw [h]

/-- Where the next drawn byte goes: to COEFBUF in SPLIT and SEAL_SPLIT, else to KEYBUF and IVBUF. -/
def putOf (i : Instr) (f : Fsm) : Byte → State → State := if i = .split ∨ f = .sealSplit then putCoef else putKeyIv

theorem putOf_split (f : Fsm) : putOf .split f = putCoef := if_pos (.inl rfl)

theorem putOf_aenc : putOf .aenc .exec = putKeyIv := if_neg (by decide)

theorem putOf_sealKeygen : putOf .vseal .sealKeygen = putKeyIv := if_neg (by decide)

theorem putOf_sealSplit : putOf .vseal .sealSplit = putCoef := if_pos (.inr rfl)

/-- While draws are left, a turn is a draw or a wait. -/
theorem turnOf_eq_drawThen {i : Instr} {s : State} (h : drawsLeft i s ≠ 0) :
    ∃ k, turnOf i s = drawThen (drawsLeft i s) (putOf i s.fsm) k s := by
  rcases drawing_of_drawsLeft h with ⟨rfl, hf⟩ | ⟨rfl, hf⟩ | ⟨rfl, hf⟩ | ⟨rfl, hf⟩
  · rw [drawsLeft_split hf, putOf_split]
    exact ⟨workSplit, by rw [turnOf, turnSplit, simpleTurn_exec hf]⟩
  · rw [drawsLeft_aenc hf, hf, putOf_aenc]
    exact ⟨workAenc, by rw [turnOf, turnAenc, simpleTurn_exec hf]⟩
  · rw [drawsLeft_sealKeygen hf, hf, putOf_sealKeygen]
    exact ⟨_, by rw [turnOf, turnVseal, hf]⟩
  · rw [drawsLeft_sealSplit hf, hf, putOf_sealSplit]
    exact ⟨_, by rw [turnOf, turnVseal, hf]⟩

/-- Everything a turn of a drawing state can do while draws are left (20_memory.md R230-R232). -/
theorem turnOf_of_drawsLeft {i : Instr} {s : State} (h : drawsLeft i s ≠ 0) :
    (s.canDraw 1 = false ∧ turnOf i s = .ends s) ∨
    (s.canDraw 1 = true ∧ ∃ b, s.nextBytes 1 = [b] ∧ turnOf i s = .more (putOf i s.fsm b (s.afterDraws 1))) := by
  obtain ⟨k, hk⟩ := turnOf_eq_drawThen h
  rw [hk]
  rcases drawThen_cases (drawsLeft i s) (putOf i s.fsm) k s with ⟨h0, -⟩ | ⟨-, hwait⟩ | ⟨-, hdraw⟩
  · exact absurd h0 h
  · exact .inl hwait
  · exact .inr hdraw

/-- Settles O12: with nothing on offer at the selected port, the first turn waits, and the run ends where it began. -/
theorem commandsWaitForEntropy : Obligations.CommandsWaitForEntropy := by
  intro i s hb hd hsrc hent hleft
  have hwait : turnOf i s = .ends s := by
    rcases turnOf_of_drawsLeft (Nat.ne_of_gt hleft) with ⟨-, h⟩ | ⟨hc, -⟩
    · exact h
    · simp [State.canDraw, hsrc, hent] at hc
  refine ⟨?_, ?_⟩
  · rw [exec_eq_runCommand]
    exact runCommand_of_ends hwait
  · simp [State.rngReady, hb, hsrc, State.command_eq_some.2 hd, hleft]

theorem engineTurn_eq_turnOf {i : Instr} {s : State} (hb : s.busy = true) (hd : decode s.cmd = .ok i) :
    engineTurn s = (turnOf i s).state := by
  simp [engineTurn, hb, State.command_eq_some.2 hd]

/-- The byte a draw gives: DMEM at RNG_PTR in replay mode, else the first on offer (20_memory.md R230, R231). -/
theorem State.nextBytes_one {s : State} (h : s.canDraw 1 = true) :
    s.nextBytes 1 = [if s.rngSrc then s.dmem.byte s.rngPtr.toNat else s.entropy.headD 0] := by
  unfold State.canDraw at h
  unfold State.nextBytes
  cases hs : s.rngSrc with
  | true => simp [State.memRead, Mem.read]
  | false =>
    cases he : s.entropy with
    | nil => simp [hs, he] at h
    | cons b rest => simp

theorem leftSplit_putCoef (b : Byte) (s : State) : leftSplit (putCoef b (s.afterDraws 1)) = leftSplit s - 1 := by
  have hneed : needSplit (putCoef b (s.afterDraws 1)) = needSplit s := rfl
  rw [leftSplit, hneed, putCoef_coefBuf, State.afterDraws_coefBuf, List.length_append, leftSplit, Nat.sub_sub,
    List.length_singleton]

theorem leftSeal_putCoef (b : Byte) (s : State) : leftSeal (putCoef b (s.afterDraws 1)) = leftSeal s - 1 := by
  have hneed : needSeal (putCoef b (s.afterDraws 1)) = needSeal s := rfl
  rw [leftSeal, hneed, putCoef_coefBuf, State.afterDraws_coefBuf, List.length_append, leftSeal, Nat.sub_sub,
    List.length_singleton]

theorem leftKeyIv_putKeyIv (b : Byte) (s : State) : leftKeyIv (putKeyIv b (s.afterDraws 1)) = leftKeyIv s - 1 := by
  have hlen : (putKeyIv b (s.afterDraws 1)).keyBuf.length + (putKeyIv b (s.afterDraws 1)).ivBuf.length
      = s.keyBuf.length + s.ivBuf.length + 1 := by
    rw [putKeyIv_keyBuf, putKeyIv_ivBuf]
    split
    · exact (congrArg (· + _) List.length_append).trans (Nat.add_right_comm _ _ _)
    · exact congrArg (_ + ·) List.length_append
  rw [leftKeyIv, hlen, Nat.sub_add_eq, leftKeyIv]

/-- One draw less is left after a draw. -/
theorem drawsLeft_putOf {i : Instr} {s : State} (h : drawsLeft i s ≠ 0) (b : Byte) :
    drawsLeft i (putOf i s.fsm b (s.afterDraws 1)) = drawsLeft i s - 1 := by
  rcases drawing_of_drawsLeft h with ⟨rfl, hf⟩ | ⟨rfl, hf⟩ | ⟨rfl, hf⟩ | ⟨rfl, hf⟩
  · have hf' : (putCoef b (s.afterDraws 1)).fsm = .exec := hf
    rw [putOf_split, drawsLeft_split hf, drawsLeft_split hf', leftSplit_putCoef]
  · have hf' : (putKeyIv b (s.afterDraws 1)).fsm = .exec := (putKeyIv_fsm _ b).trans hf
    rw [hf, putOf_aenc, drawsLeft_aenc hf, drawsLeft_aenc hf', leftKeyIv_putKeyIv]
  · have hf' : (putKeyIv b (s.afterDraws 1)).fsm = .sealKeygen := (putKeyIv_fsm _ b).trans hf
    rw [hf, putOf_sealKeygen, drawsLeft_sealKeygen hf, drawsLeft_sealKeygen hf', leftKeyIv_putKeyIv]
  · have hf' : (putCoef b (s.afterDraws 1)).fsm = .sealSplit := hf
    rw [hf, putOf_sealSplit, drawsLeft_sealSplit hf, drawsLeft_sealSplit hf', leftSeal_putCoef]

/-- Settles O13: a turn with draws left and a byte to draw is `putOf` of that byte after one draw. -/
theorem oneDrawEachTurn : Obligations.OneDrawEachTurn := by
  intro i s n hb hd hleft hc
  have hne : drawsLeft i s ≠ 0 := by omega
  obtain ⟨b, hbyte, hturn⟩ : ∃ b, s.nextBytes 1 = [b] ∧ turnOf i s = .more (putOf i s.fsm b (s.afterDraws 1)) := by
    rcases turnOf_of_drawsLeft hne with ⟨hn, -⟩ | ⟨-, h⟩
    · simp [hc] at hn
    · exact h
  rw [State.nextBytes_one hc, List.singleton_inj] at hbyte
  have hnext : drawsLeft i (putOf i s.fsm b (s.afterDraws 1)) = n := by rw [drawsLeft_putOf hne, hleft]; rfl
  dsimp only
  rw [engineTurn_eq_turnOf hb hd, hturn, hbyte]
  simp only [Progress.state, hnext]
  by_cases hcoef : i = .split ∨ s.fsm = .sealSplit
  · simp [putOf, hcoef, hb]
  · by_cases hk : s.keyBuf.length < 32 <;> simp [putOf, hcoef, hb, putKeyIv_keyBuf, putKeyIv_ivBuf, hk]

/-! ### The turns a command has still to take -/

/-- The states of the path of a command that come after a state; off its path a command stands before DISPATCH. -/
def stagesLeft (i : Instr) (f : Fsm) : Nat := (pathOf i).reverse.idxOf f

/-- The draws a command has still to make, over all its states (20_memory.md R233). -/
def drawsToCome (i : Instr) (s : State) : Nat :=
  match i with
  | .split => leftSplit s
  | .aenc => leftKeyIv s
  | .vseal => if s.fsm = .sealScrub ∨ s.fsm = .sealEncode then 0 else leftKeyIv s + leftSeal s
  | _ => 0

/-- At least as many turns as a command goes on for: one for each draw and one for each state. -/
def turnsLeft (i : Instr) (s : State) : Nat := stagesLeft i s.fsm + drawsToCome i s

theorem stagesLeft_le (i : Instr) (f : Fsm) : stagesLeft i f ≤ 7 := by
  refine List.idxOf_le_length.trans ?_
  rw [List.length_reverse]
  cases i with
  | vseal | vopen => exact le_rfl
  | _ => exact (by decide : 2 ≤ 7)

/-- Off the states of its path after DISPATCH, a command has all of them to come. -/
theorem length_le_stagesLeft {i : Instr} {states : List Fsm} {f : Fsm} (hpath : pathOf i = .dispatch :: states)
    (hf : f ∉ states) : states.length ≤ stagesLeft i f := by
  rw [stagesLeft, hpath, List.reverse_cons, List.idxOf_append_of_notMem (by rwa [List.mem_reverse]), List.length_reverse]
  exact Nat.le_add_right _ _

theorem drawsToCome_vseal {s : State} (hs : s.fsm ∉ [.sealScrub, .sealEncode]) :
    drawsToCome .vseal s = leftKeyIv s + leftSeal s :=
  if_neg (by simpa using hs)

theorem drawsToCome_vseal_le (s : State) : drawsToCome .vseal s ≤ leftKeyIv s + leftSeal s := by
  show (if s.fsm = .sealScrub ∨ s.fsm = .sealEncode then 0 else leftKeyIv s + leftSeal s) ≤ _
  split
  · exact Nat.zero_le _
  · exact le_rfl

/-- A command that passed its parameter check has less turns to take than a run takes at most. -/
theorem turnsLeft_lt_maxTurns {i : Instr} {s : State} (h : paramsOf i s = none) : turnsLeft i s + 1 < maxTurns := by
  have hdraws : drawsToCome i s ≤ 256 * 254 := by
    cases i with
    | split => exact (Nat.sub_le _ _).trans (needSplit_le h)
    | aenc => exact (Nat.sub_le _ _).trans (by decide)
    | vseal =>
      have hkey : leftKeyIv s ≤ 44 := Nat.sub_le _ _
      have hcoef : leftSeal s ≤ 32 * 254 := (Nat.sub_le _ _).trans (needSeal_le h)
      exact (drawsToCome_vseal_le s).trans ((Nat.add_le_add hkey hcoef).trans (by decide))
    | _ => exact Nat.zero_le _
  exact Nat.succ_lt_succ ((Nat.add_le_add (stagesLeft_le i s.fsm) hdraws).trans_lt (by decide))

theorem turnsLeft_lt {i : Instr} {s t : State} {f g : Fsm} (hf : s.fsm = f) (hg : t.fsm = g)
    (hstage : stagesLeft i g < stagesLeft i f) (hdraws : drawsToCome i t ≤ drawsToCome i s) :
    turnsLeft i t < turnsLeft i s := by
  rw [turnsLeft, turnsLeft, hf, hg]
  exact Nat.add_lt_add_of_lt_of_le hstage hdraws

theorem turnsLeft_lt_of_draw {i : Instr} {s t : State} (hf : t.fsm = s.fsm)
    (hdraws : drawsToCome i t < drawsToCome i s) : turnsLeft i t < turnsLeft i s := by
  rw [turnsLeft, turnsLeft, hf]
  exact Nat.add_lt_add_left hdraws _

theorem leftSeal_putKeyIv (b : Byte) (s : State) : leftSeal (putKeyIv b (s.afterDraws 1)) = leftSeal s := by
  unfold putKeyIv
  split <;> rfl

theorem leftKeyIv_putCoef (b : Byte) (s : State) : leftKeyIv (putCoef b (s.afterDraws 1)) = leftKeyIv s := rfl

/-- A draw is one of the turns to take. -/
theorem turnsLeft_putOf {i : Instr} {s : State} (h : drawsLeft i s ≠ 0) (b : Byte) :
    turnsLeft i (putOf i s.fsm b (s.afterDraws 1)) < turnsLeft i s := by
  rcases drawing_of_drawsLeft h with ⟨rfl, hf⟩ | ⟨rfl, hf⟩ | ⟨rfl, hf⟩ | ⟨rfl, hf⟩
  · rw [drawsLeft_split hf] at h
    rw [putOf_split]
    exact turnsLeft_lt_of_draw rfl ((leftSplit_putCoef b s).trans_lt (Nat.sub_one_lt h))
  · rw [drawsLeft_aenc hf] at h
    rw [hf, putOf_aenc]
    exact turnsLeft_lt_of_draw (putKeyIv_fsm _ b) ((leftKeyIv_putKeyIv b s).trans_lt (Nat.sub_one_lt h))
  · rw [drawsLeft_sealKeygen hf] at h
    rw [hf, putOf_sealKeygen]
    refine turnsLeft_lt_of_draw (putKeyIv_fsm _ b) ((drawsToCome_vseal_le _).trans_lt ?_)
    rw [drawsToCome_vseal (s := s) (by rw [hf]; decide), leftKeyIv_putKeyIv, leftSeal_putKeyIv]
    exact Nat.add_lt_add_right (Nat.sub_one_lt h) _
  · rw [drawsLeft_sealSplit hf] at h
    rw [hf, putOf_sealSplit]
    refine turnsLeft_lt_of_draw rfl ((drawsToCome_vseal_le _).trans_lt ?_)
    rw [drawsToCome_vseal (s := s) (by rw [hf]; decide), leftKeyIv_putCoef, leftSeal_putCoef]
    exact Nat.add_lt_add_left (Nat.sub_one_lt h) _

/-! ### Turns that go on -/

/-- The state with more bytes on offer at the port, after those it has (20_memory.md R232). -/
def State.offer (s : State) (bs : List Byte) : State := { s with entropy := s.entropy ++ bs }

/-- A turn that goes on leaves fewer turns to take, and bytes offered later do not change it. -/
def MovesOn (i : Instr) (s t : State) : Prop :=
  turnsLeft i t < turnsLeft i s ∧ ∀ bs, turnOf i (s.offer bs) = .more (t.offer bs)

theorem State.afterDraws_offer {s : State} (h : s.canDraw 1 = true) (bs : List Byte) :
    (s.offer bs).canDraw 1 = true ∧ (s.offer bs).nextBytes 1 = s.nextBytes 1 ∧
    (s.offer bs).afterDraws 1 = (s.afterDraws 1).offer bs := by
  unfold State.canDraw at h
  cases hs : s.rngSrc with
  | true => simp [State.canDraw, State.nextBytes, State.afterDraws, State.offer, State.memRead, hs]
  | false =>
    cases he : s.entropy with
    | nil => simp [hs, he] at h
    | cons b rest => simp [State.canDraw, State.nextBytes, State.afterDraws, State.offer, hs, he]

theorem putOf_offer (i : Instr) (f : Fsm) (b : Byte) (s : State) (bs : List Byte) :
    putOf i f b (s.offer bs) = (putOf i f b s).offer bs := by
  unfold putOf
  split
  · rfl
  · show putKeyIv b (s.offer bs) = _
    unfold putKeyIv
    rw [show (s.offer bs).keyBuf = s.keyBuf from rfl]
    split <;> rfl

/-- A draw takes the first byte on offer, whatever comes after it. -/
theorem movesOn_of_drawsLeft {i : Instr} {s t : State} (hl : drawsLeft i s ≠ 0) (h : turnOf i s = .more t) :
    MovesOn i s t := by
  rcases turnOf_of_drawsLeft hl with ⟨-, hwait⟩ | ⟨hc, b, hb, hdraw⟩
  · rw [hwait] at h
    cases h
  · rw [hdraw] at h
    cases h
    refine ⟨turnsLeft_putOf hl b, fun bs => ?_⟩
    obtain ⟨hc', hb', hafter⟩ := State.afterDraws_offer hc bs
    have hl' : drawsLeft i (s.offer bs) ≠ 0 := by
      rcases drawing_of_drawsLeft hl with ⟨rfl, -⟩ | ⟨rfl, -⟩ | ⟨rfl, -⟩ | ⟨rfl, -⟩ <;> exact hl
    rcases turnOf_of_drawsLeft hl' with ⟨hn, -⟩ | ⟨-, b', hbb, hdraw'⟩
    · simp [hc'] at hn
    · obtain rfl : b' = b := List.singleton_inj.1 (hbb.symm.trans (hb'.trans hb))
      rw [hdraw', hafter, putOf_offer]
      rfl

/-- A command whose work is in EXEC and ends in one turn goes on only where it leaves DISPATCH. -/
theorem movesOn_simpleTurn {i : Instr} {s t : State} {check : State → Option CmdError} {work : State → Progress}
    (hturn : turnOf i = simpleTurn check work) (hpath : pathOf i = [.dispatch, .exec])
    (hdraws : drawsToCome i { s with fsm := .exec } = drawsToCome i s)
    (hcheck : ∀ bs, check (s.offer bs) = check s) (hwork : s.fsm = .exec → ∀ u, work s ≠ .more u)
    (h : turnOf i s = .more t) : MovesOn i s t := by
  rw [hturn] at h
  rcases simpleTurn_cases check work s with ⟨hf, he⟩ | ⟨-, e, -, he⟩ | ⟨hf, hn, he⟩ <;> rw [he] at h
  · exact absurd h (hwork hf t)
  · cases h
  · cases h
    refine ⟨?_, fun bs => ?_⟩
    · have hexec : stagesLeft i .exec = 0 := by rw [stagesLeft, hpath]; rfl
      have hpast : 1 ≤ stagesLeft i s.fsm := length_le_stagesLeft hpath (by simpa using hf)
      exact turnsLeft_lt rfl rfl (hexec ▸ hpast) hdraws.le
    · have hf' : (s.offer bs).fsm ≠ .exec := hf
      rw [hturn, simpleTurn_pass hf' ((hcheck bs).trans hn)]
      rfl

/-! ### The work of a command in EXEC ends in one turn -/

theorem fieldResult_ne_more (rd : RegNum) (o : Option Byte) (s t : State) : fieldResult rd o s ≠ .more t := by
  cases o <;> exact nofun

theorem workCombine_ne_more (s t : State) : workCombine s ≠ .more t := by
  unfold workCombine
  dsimp only
  split <;> exact nofun

theorem workEncode_ne_more (s t : State) : workEncode s ≠ .more t := by
  unfold workEncode
  dsimp only
  split_ifs <;> exact nofun

theorem workDecode_ne_more (s t : State) : workDecode s ≠ .more t := by
  unfold workDecode
  split <;> exact nofun

theorem workAdec_ne_more (s t : State) : workAdec s ≠ .more t := by
  unfold workAdec
  dsimp only
  split_ifs
  · exact nofun
  · split <;> exact nofun

/-! ### The vault -/

/-- Moving on before SEAL_SCRUB, VSEAL keeps what it has drawn. -/
theorem drawsToCome_vseal_move {s : State} (hs : s.fsm ∉ [.sealScrub, .sealEncode]) (f : Fsm) (m : Mem)
    (sh : List (List Byte)) :
    drawsToCome .vseal { s with fsm := f, dmem := m, shareBuf := sh } ≤ drawsToCome .vseal s :=
  (drawsToCome_vseal_le _).trans (drawsToCome_vseal hs).ge

/-- A turn of VSEAL that goes on without a draw moves the FSM on. -/
theorem turnsLeft_lt_vseal {s t : State} (hl : drawsLeft .vseal s = 0) (h : turnVseal s = .more t) :
    turnsLeft .vseal t < turnsLeft .vseal s := by
  rcases turnVseal_cases s with ⟨hf, he⟩ | ⟨hf, he⟩ | ⟨hf, he⟩ | ⟨hf, he⟩ | ⟨hf, he⟩ | ⟨-, he⟩ | ⟨-, e, -, he⟩ |
    ⟨hf, -, he⟩ <;> rw [he] at h
  · rw [(drawsLeft_sealKeygen hf).symm.trans hl] at h
    obtain rfl := Progress.more.inj h
    exact turnsLeft_lt (g := .sealEncrypt) hf rfl (by decide) (drawsToCome_vseal_move (s := s) (by rw [hf]; decide) _ _ _)
  · obtain rfl := Progress.more.inj h
    exact turnsLeft_lt (g := .sealDigest) hf rfl (by decide) (drawsToCome_vseal_move (s := s) (by rw [hf]; decide) _ _ _)
  · obtain rfl := Progress.more.inj h
    exact turnsLeft_lt (g := .sealSplit) hf rfl (by decide) (drawsToCome_vseal_move (s := s) (by rw [hf]; decide) _ _ _)
  · rw [(drawsLeft_sealSplit hf).symm.trans hl] at h
    obtain rfl := Progress.more.inj h
    exact turnsLeft_lt (g := .sealScrub) hf rfl (by decide) (drawsToCome_vseal_move (s := s) (by rw [hf]; decide) _ _ _)
  · obtain rfl := Progress.more.inj h
    exact turnsLeft_lt (g := .sealEncode) hf rfl (by decide) (Nat.zero_le _)
  · cases h
  · cases h
  · obtain rfl := Progress.more.inj h
    have hkeep : s.fsm ∉ [.sealScrub, .sealEncode] := fun hm => hf (List.mem_of_mem_drop (i := 4) hm)
    have hstage : 6 ≤ stagesLeft .vseal s.fsm := length_le_stagesLeft (states := sealStates) rfl hf
    exact turnsLeft_lt rfl rfl hstage (drawsToCome_vseal_move hkeep _ _ _)

/-- A turn of VOPEN that goes on moves the FSM on. -/
theorem turnsLeft_lt_vopen {s t : State} (h : turnVopen s = .more t) : turnsLeft .vopen t < turnsLeft .vopen s := by
  rcases turnVopen_cases s with ⟨hf, he⟩ | ⟨hf, he⟩ | ⟨hf, he⟩ | ⟨hf, he⟩ | ⟨hf, he⟩ | ⟨-, he⟩ | ⟨-, e, -, he⟩ |
    ⟨hf, -, he⟩ <;> rw [he] at h
  · rcases openDecode_cases s with ⟨e, he⟩ | ⟨recs, -, he⟩ <;> rw [he] at h
    · cases h
    · obtain rfl := Progress.more.inj h
      exact turnsLeft_lt (g := .openIvCheck) hf rfl (by decide) le_rfl
  · rcases openIvCheck_cases s with ⟨e, he⟩ | ⟨-, he⟩ <;> rw [he] at h
    · cases h
    · obtain rfl := Progress.more.inj h
      exact turnsLeft_lt (g := .openCombine) hf rfl (by decide) le_rfl
  · rcases openCombine_cases s with ⟨e, -, he⟩ | ⟨-, he⟩ <;> rw [he] at h
    · cases h
    · obtain rfl := Progress.more.inj h
      exact turnsLeft_lt (g := .openAuth) hf rfl (by decide) le_rfl
  · rcases openAuth_cases s with ⟨e, he⟩ | ⟨-, -, he⟩ <;> rw [he] at h
    · cases h
    · obtain rfl := Progress.more.inj h
      exact turnsLeft_lt (g := .openDecrypt) hf rfl (by decide) le_rfl
  · obtain rfl := Progress.more.inj h
    exact turnsLeft_lt (g := .openDigest) hf rfl (by decide) le_rfl
  · cases h
  · cases h
  · obtain rfl := Progress.more.inj h
    have hstage : 6 ≤ stagesLeft .vopen s.fsm := length_le_stagesLeft (states := openStates) rfl hf
    exact turnsLeft_lt rfl rfl hstage le_rfl

/-- The outcome of a turn with more bytes on offer at the port. -/
def Progress.offer (bs : List Byte) : Progress → Progress
  | .more s => .more (s.offer bs)
  | .ends s => .ends (s.offer bs)

theorem dispatchTo_offer (next : Fsm) (check : Option CmdError) (s : State) (bs : List Byte) :
    dispatchTo next check (s.offer bs) = (dispatchTo next check s).offer bs := by
  cases check <;> rfl

/-- VSEAL looks at the port only to draw. -/
theorem turnVseal_offer {s : State} (hl : drawsLeft .vseal s = 0) (bs : List Byte) :
    turnVseal (s.offer bs) = (turnVseal s).offer bs := by
  unfold turnVseal
  rw [show (s.offer bs).fsm = s.fsm from rfl]
  cases hf : s.fsm with
  | sealKeygen =>
    have h0 : leftKeyIv s = 0 := (drawsLeft_sealKeygen hf).symm.trans hl
    rw [show leftKeyIv (s.offer bs) = leftKeyIv s from rfl, h0]
    rfl
  | sealSplit =>
    have h0 : leftSeal s = 0 := (drawsLeft_sealSplit hf).symm.trans hl
    rw [show leftSeal (s.offer bs) = leftSeal s from rfl, h0]
    rfl
  | sealEncrypt | sealDigest | sealScrub | sealEncode => rfl
  | _ => exact dispatchTo_offer _ _ s bs

/-- VOPEN does not look at the port. -/
theorem turnVopen_offer (s : State) (bs : List Byte) : turnVopen (s.offer bs) = (turnVopen s).offer bs := by
  unfold turnVopen
  rw [show (s.offer bs).fsm = s.fsm from rfl]
  cases hf : s.fsm with
  | openDecode =>
    show openDecode (s.offer bs) = (openDecode s).offer bs
    unfold openDecode
    rw [show (tokenEntries (s.offer bs)).map (fun e => (s.offer bs).memRead e.1 e.2)
      = (tokenEntries s).map (fun e => s.memRead e.1 e.2) from rfl]
    cases decodeTokens 0 ((tokenEntries s).map (fun e => s.memRead e.1 e.2)) <;> rfl
  | openIvCheck =>
    show openIvCheck (s.offer bs) = (openIvCheck s).offer bs
    unfold openIvCheck
    rw [show (s.offer bs).memRead ((s.offer bs).arg 3) 24 = s.memRead (s.arg 3) 24 from rfl]
    dsimp only
    cases (s.memRead (s.arg 3) 24).findIdx? (fun c => !ishex c) <;> rfl
  | openCombine =>
    show openCombine (s.offer bs) = (openCombine s).offer bs
    unfold openCombine
    rw [show combineError (s.offer bs).shareBuf ((s.offer bs).arg 7) ((s.offer bs).arg 8)
      = combineError s.shareBuf (s.arg 7) (s.arg 8) from rfl]
    cases combineError s.shareBuf (s.arg 7) (s.arg 8) <;> rfl
  | openAuth =>
    show (if s.arg 2 < 16 then _ else if gcmVerify s.keyBuf s.ivBuf (s.memRead (s.arg 1) (s.arg 2)) then _ else _)
      = Progress.offer bs (openAuth s)
    unfold openAuth
    split_ifs <;> rfl
  | openDecrypt | openDigest => rfl
  | _ => exact dispatchTo_offer _ _ s bs

/-! ### Every turn that goes on -/

/-- A turn that goes on without a draw. -/
theorem movesOn_of_no_drawsLeft {i : Instr} {s t : State} (hl : drawsLeft i s = 0) (h : turnOf i s = .more t) :
    MovesOn i s t := by
  cases i with
  | nop | gadd | gmul | gpow | geval => exact movesOn_simpleTurn rfl rfl rfl (fun _ => rfl) (fun _ _ => nofun) h
  | gdiv | ginv => exact movesOn_simpleTurn rfl rfl rfl (fun _ => rfl) (fun _ => fieldResult_ne_more _ _ s) h
  | split =>
    refine movesOn_simpleTurn rfl rfl rfl (fun _ => rfl) (fun hf u => ?_) h
    rw [(drawsLeft_split hf).symm.trans hl]
    exact nofun
  | combine => exact movesOn_simpleTurn rfl rfl rfl (fun _ => rfl) (fun _ => workCombine_ne_more s) h
  | encode => exact movesOn_simpleTurn rfl rfl rfl (fun _ => rfl) (fun _ => workEncode_ne_more s) h
  | decode => exact movesOn_simpleTurn rfl rfl rfl (fun _ => rfl) (fun _ => workDecode_ne_more s) h
  | aenc =>
    refine movesOn_simpleTurn rfl rfl rfl (fun _ => rfl) (fun hf u => ?_) h
    rw [(drawsLeft_aenc hf).symm.trans hl]
    exact nofun
  | adec => exact movesOn_simpleTurn rfl rfl rfl (fun _ => rfl) (fun _ => workAdec_ne_more s) h
  | hash => exact movesOn_simpleTurn rfl rfl rfl (fun _ => rfl) (fun _ _ => nofun) h
  | vseal => exact ⟨turnsLeft_lt_vseal hl h, fun bs => (turnVseal_offer hl bs).trans (congrArg (Progress.offer bs) h)⟩
  | vopen => exact ⟨turnsLeft_lt_vopen h, fun bs => (turnVopen_offer s bs).trans (congrArg (Progress.offer bs) h)⟩

theorem movesOn_of_more {i : Instr} {s t : State} (h : turnOf i s = .more t) : MovesOn i s t := by
  by_cases hl : drawsLeft i s = 0
  · exact movesOn_of_no_drawsLeft hl h
  · exact movesOn_of_drawsLeft hl h

/-! ### One run -/

/-- With turns enough to end, a run does not depend on how many it may take. -/
theorem runTurns_of_turnsLeft_lt (i : Instr) {m n : Nat} {s : State} (hm : turnsLeft i s < m) (hn : turnsLeft i s < n) :
    runTurns m (turnOf i) s = runTurns n (turnOf i) s := by
  induction m generalizing n s with
  | zero => omega
  | succ m ih =>
    obtain ⟨n, rfl⟩ : ∃ k, n = k + 1 := ⟨n - 1, by omega⟩
    cases h : turnOf i s with
    | more t =>
      obtain ⟨hlt, -⟩ := movesOn_of_more h
      rw [runTurns_more m h, runTurns_more n h]
      exact ih (by omega) (by omega)
    | ends t => rw [runTurns_ends m h, runTurns_ends n h]

/-- A command that goes on has passed its parameter check, now or before (46_vault_fsm.md R603). -/
theorem paramsOf_eq_none_of_more {i : Instr} {s t : State} (hchk : s.fsm ≠ .dispatch → paramsOf i s = none)
    (h : turnOf i s = .more t) : paramsOf i s = none := by
  have hshape : TurnShape i s (.more t) := h ▸ turnShape_turnOf i s
  obtain ⟨-, -, -, -, hdispatch, -⟩ := hshape
  by_cases hf : s.fsm = .dispatch
  · exact hdispatch hf
  · exact hchk hf

/-- A run from the state after a turn that goes on is the run from before it. -/
theorem exec_of_more {i : Instr} {s t : State} (hchk : s.fsm ≠ .dispatch → paramsOf i s = none)
    (h : turnOf i s = .more t) : exec i t = exec i s := by
  have hmax := turnsLeft_lt_maxTurns (paramsOf_eq_none_of_more hchk h)
  obtain ⟨hlt, -⟩ := movesOn_of_more h
  rw [exec_eq_runCommand, exec_eq_runCommand, runCommand, runCommand, show maxTurns = 65535 + 1 from rfl,
    runTurns_more 65535 h]
  unfold maxTurns at hmax
  exact congrArg _ (runTurns_of_turnsLeft_lt i (by omega) (by omega))

/-- A command that a turn ends and leaves BUSY waits as it was (20_memory.md R232). -/
theorem eq_of_ends_of_busy {i : Instr} {s t : State} (h : turnOf i s = .ends t) (hb : t.busy = true) : t = s := by
  have hshape : TurnShape i s (.ends t) := h ▸ turnShape_turnOf i s
  rcases hshape with rfl | ⟨e, rfl⟩ | ⟨regs, m, w, rfl, -⟩
  · rfl
  · cases hb
  · cases hb

/-- Settles O60: a turn that goes on leaves the run what it was (`exec_of_more`); along the turns before a wait this also
holds with the later bytes on offer, which change none of these turns (`MovesOn`). -/
theorem resumedRunIsOneRun : Obligations.ResumedRunIsOneRun := by
  intro i s hb hd hchk
  have hpast : s.fsm ≠ .dispatch → paramsOf i s = none := hchk i hb hd
  refine ⟨fun hbt => ?_, fun t bs he => ?_⟩
  · rw [engineTurn_eq_turnOf hb hd] at hbt ⊢
    cases h : turnOf i s with
    | more t => exact exec_of_more hpast h
    | ends t =>
      rw [h] at hbt
      exact congrArg (exec i) (eq_of_ends_of_busy h hbt)
  · rw [exec_eq_runCommand, runCommand, Host.Outcome.next.injEq] at he
    subst he
    refine runTurns_induction
      (fun u => (u.fsm ≠ .dispatch → paramsOf i u = none) ∧ exec i (u.offer bs) = exec i (s.offer bs))
      (fun u => u.busy = true → exec i (u.offer bs) = exec i (s.offer bs)) (fun u ⟨_, hu⟩ _ => hu) ?_ ?_ _ s ⟨hpast, rfl⟩
    · rintro u w ⟨hchku, hu⟩ hw
      obtain ⟨-, hoffer⟩ := movesOn_of_more hw
      have hpar := paramsOf_eq_none_of_more hchku hw
      have hshape : TurnShape i u (.more w) := hw ▸ turnShape_turnOf i u
      obtain ⟨hmove, -⟩ := hshape
      have hregs : w.regs = u.regs := by rw [hmove]
      have hoffered : (u.offer bs).fsm ≠ .dispatch → paramsOf i (u.offer bs) = none := fun _ =>
        (paramsOf_of_regs_eq (s := u) (t := u.offer bs) i rfl).trans hpar
      exact ⟨fun _ => (paramsOf_of_regs_eq i hregs).trans hpar, (exec_of_more hoffered (hoffer bs)).trans hu⟩
    · rintro u w ⟨-, hu⟩ hw hbw
      rw [eq_of_ends_of_busy hw hbw]
      exact hu

end Sys2Proof.Machine
end

section
/-! The decoder through the rows of the opcode map (30_encoding.md R303): a word decodes to a command just where it selects a
row that builds it (`decode_eq_ok_iff`), and the command a row builds has the fields of the row's form and no other
(`encodeFields_build`). -/

namespace Sys2Proof

open Sys2Proof.Machine

/-! ### The opcode map, row by row -/

/-- The opcodes of the map are distinct (30_encoding.md R303). -/
theorem nodup_map_opc_opRows : (opRows.map (fun r => r.opc)).Nodup := by decide

theorem opRow_eq_of_opc_eq {r r' : OpRow} (hr : r ∈ opRows) (hr' : r' ∈ opRows) (h : r.opc = r'.opc) : r = r' :=
  List.inj_on_of_nodup_map nodup_map_opc_opRows hr hr' h

/-- Every command is built from its own fields, by the row of its opcode. -/
theorem exists_build_encodeFields (i : Instr) : ∃ r ∈ opRows, r.build (encodeFields i) = i := by
  have hfind : (opRows.find? (fun r => r.opc == opcodeOf i)).map (fun r => r.build (encodeFields i)) = some i := by
    cases i <;> rfl
  obtain ⟨r, hr, hbuild⟩ := Option.map_eq_some_iff.1 hfind
  exact ⟨r, List.mem_of_find?_eq_some hr, hbuild⟩

/-- What a row builds has the row's form. -/
theorem formOf_build (f : Fields) : ∀ r ∈ opRows, formOf (r.build f) = r.form := by
  refine List.forall_iff_forall_mem.1 ?_
  exact ⟨rfl, rfl, rfl, rfl, rfl, rfl, rfl, rfl, rfl, rfl, rfl, rfl, rfl, rfl, rfl, rfl⟩

/-- The word of every command has the command's fields, with its opcode, and its form allows them. -/
theorem encoding_statement : ∀ i : Instr, Laws.Encoding.Statement i
  | .nop => Laws.Encoding.nop
  | .gadd rd rs1 rs2 => Laws.Encoding.gadd rd rs1 rs2
  | .gmul rd rs1 rs2 => Laws.Encoding.gmul rd rs1 rs2
  | .gdiv rd rs1 rs2 => Laws.Encoding.gdiv rd rs1 rs2
  | .gpow rd rs1 rs2 => Laws.Encoding.gpow rd rs1 rs2
  | .ginv rd rs1 => Laws.Encoding.ginv rd rs1
  | .geval rd rs1 rs2 rs3 => Laws.Encoding.geval rd rs1 rs2 rs3
  | .split => Laws.Encoding.split
  | .combine => Laws.Encoding.combine
  | .encode => Laws.Encoding.encode
  | .decode => Laws.Encoding.decode
  | .aenc => Laws.Encoding.aenc
  | .adec => Laws.Encoding.adec
  | .hash => Laws.Encoding.hash
  | .vseal => Laws.Encoding.vseal
  | .vopen => Laws.Encoding.vopen

/-- A row builds a command of its own opcode whose operands are the fields that the row's form uses (30_encoding.md R302). -/
theorem encodeFields_build (f : Fields) : ∀ r ∈ opRows,
    encodeFields (r.build f) =
      { rsv := 0
        rs3 := bif r.form == .r3 then f.rs3 else 0
        rs2 := bif r.form == .r3 || r.form == .r2 then f.rs2 else 0
        rs1 := bif r.form == .r3 || (r.form == .r2 || r.form == .r1) then f.rs1 else 0
        rd := bif r.form == .r3 || (r.form == .r2 || r.form == .r1) then f.rd else 0
        opc := r.opc } := by
  refine List.forall_iff_forall_mem.1 ?_
  exact ⟨rfl, rfl, rfl, rfl, rfl, rfl, rfl, rfl, rfl, rfl, rfl, rfl, rfl, rfl, rfl, rfl⟩

theorem cond_eq_self_of_beq_zero_or {x : BitVec 4} {used : Bool} (h : (x == 0 || used) = true) :
    (bif used then x else 0) = x := by
  cases used with
  | true => rfl
  | false => exact (by simpa using h : x = 0).symm

/-- No field that a row accepts is lost in the command it builds: those its form does not use are 0. -/
theorem encodeFields_build_of_wellFormed {r : OpRow} (hr : r ∈ opRows) {f : Fields} (hopc : f.opc = r.opc)
    (hwf : f.wellFormed r.form = true) : encodeFields (r.build f) = f := by
  simp only [Fields.wellFormed, Bool.and_eq_true, Bool.or_assoc] at hwf
  obtain ⟨⟨⟨⟨hrsv, hrs3⟩, hrs2⟩, hrs1⟩, hrd⟩ := hwf
  rw [encodeFields_build f r hr, cond_eq_self_of_beq_zero_or hrs3, cond_eq_self_of_beq_zero_or hrs2,
    cond_eq_self_of_beq_zero_or hrs1, cond_eq_self_of_beq_zero_or hrd, ← hopc, ← eq_of_beq hrsv]

/-! ### What a word decodes to -/

/-- A word decodes to the command of the row it selects. -/
theorem decode_of_selects {w : Word} {r : OpRow} (hr : r ∈ opRows) (hsel : selects w r = true) :
    decode w = .ok (r.build (fieldsOf w)) := by
  obtain ⟨hopc, -⟩ := (selects_iff w r).1 hsel
  unfold decode
  cases hfind : opRows.find? (fun r' => r'.opc == (fieldsOf w).opc) with
  | none => exact absurd hopc.symm (by simpa using List.find?_eq_none.1 hfind r hr)
  | some r' =>
    have hopc' : r'.opc = (fieldsOf w).opc := by simpa using List.find?_some hfind
    obtain rfl : r' = r := opRow_eq_of_opc_eq (List.mem_of_find?_eq_some hfind) hr (hopc'.trans hopc)
    exact if_pos hsel

/-- A word decodes to a command just where it selects a row that builds it. -/
theorem decode_eq_ok_iff {w : Word} {i : Instr} :
    decode w = .ok i ↔ ∃ r ∈ opRows, selects w r = true ∧ r.build (fieldsOf w) = i := by
  constructor
  · intro h
    unfold decode at h
    cases hfind : opRows.find? (fun r => r.opc == (fieldsOf w).opc) with
    | none => simp [hfind] at h
    | some r =>
      by_cases hsel : selects w r = true
      · exact ⟨r, List.mem_of_find?_eq_some hfind, hsel, by simpa [hfind, hsel] using h⟩
      · simp [hfind, hsel] at h
  · rintro ⟨r, hr, hsel, rfl⟩
    exact decode_of_selects hr hsel

/-- A word is rejected just where it selects no row (30_encoding.md R304). -/
theorem decode_eq_error_iff {w : Word} : (∃ e, decode w = .error e) ↔ ∀ r ∈ opRows, selects w r = false := by
  constructor
  · rintro ⟨e, he⟩ r hr
    rw [Bool.eq_false_iff]
    intro hsel
    rw [decode_of_selects hr hsel] at he
    cases he
  · intro hnone
    cases hd : decode w with
    | error e => exact ⟨e, rfl⟩
    | ok i =>
      obtain ⟨r, hr, hsel, -⟩ := decode_eq_ok_iff.1 hd
      rw [hnone r hr] at hsel
      cases hsel

/-- A word is rejected for its opcode where no row has it (30_encoding.md R305). -/
theorem decode_of_forall_opc_ne {w : Word} (h : ∀ r ∈ opRows, r.opc ≠ (fieldsOf w).opc) :
    decode w = .error .reservedOpcode := by
  have hfind : opRows.find? (fun r => r.opc == (fieldsOf w).opc) = none :=
    List.find?_eq_none.2 fun r hr => by simpa using h r hr
  rw [decode, hfind]

/-! ### Decoding and encoding are inverse -/

/-- Settles O1: the word of a command selects the row that builds it (`selects_iff`), since the command has the row's opcode
(`encodeFields_build`) and form, and the row builds it from the word's fields. -/
theorem decodeOfEncode : Obligations.DecodeOfEncode := by
  intro i
  obtain ⟨r, hr, hbuild⟩ := exists_build_encodeFields i
  obtain ⟨hfields, -, hwf, -⟩ := encoding_statement i
  have hopc : (encodeFields i).opc = r.opc := by
    rw [← hbuild, encodeFields_build _ r hr]
  have hform : formOf i = r.form := by
    rw [← hbuild, formOf_build _ r hr]
  have hsel : selects (encode i) r = true := by
    rw [selects_iff, hfields]
    exact ⟨hopc, hform ▸ hwf⟩
  rw [decode_of_selects hr hsel, hfields, hbuild]

/-- Settles O2: a row keeps every field of a word that selects it (`encodeFields_build_of_wellFormed`), and the fields are
the word. -/
theorem encodeOfDecode : Obligations.EncodeOfDecode := by
  intro w i h
  obtain ⟨r, hr, hsel, rfl⟩ := decode_eq_ok_iff.1 h
  obtain ⟨hopc, hwf⟩ := (selects_iff w r).1 hsel
  rw [encode, encodeFields_build_of_wellFormed hr hopc hwf, wordOf_fieldsOf]

/-- Settles O5: each word is the word of its command, so the command is what it decodes to (`decodeOfEncode`). -/
theorem encodingExamples : Obligations.EncodingExamples := by
  have both {w : Word} {i : Instr} (h : encode i = w) : decode w = .ok i ∧ encode i = w := ⟨h ▸ decodeOfEncode i, h⟩
  exact ⟨both (by decide), both (by decide), both (by decide), both (by decide), both (by decide)⟩

/-! ### Words that are no command -/

/-- The opcodes that 30_encoding.md R305 reserves. -/
def IsReservedOpcode (o : Nat) : Prop :=
  (0x07 ≤ o ∧ o ≤ 0x0F) ∨ (0x14 ≤ o ∧ o ≤ 0x1F) ∨ (0x23 ≤ o ∧ o ≤ 0x2F) ∨ 0x32 ≤ o

theorem not_isReservedOpcode_of_mem_opRows : ∀ r ∈ opRows, ¬ IsReservedOpcode r.opc.toNat := by
  unfold IsReservedOpcode
  decide

/-- Settles O4: no row has a reserved opcode, and 0 is the word of NOP (`decodeOfEncode`) and of no other command
(`encodeOfDecode`). -/
theorem reservedOpcodesAreIllegal : Obligations.ReservedOpcodesAreIllegal := by
  constructor
  · intro w o hreserved
    refine decode_of_forall_opc_ne fun r hr hopc => not_isReservedOpcode_of_mem_opRows r hr ?_
    rw [hopc]
    exact hreserved
  · intro w
    constructor
    · intro h
      rw [← encodeOfDecode w _ h]
      decide
    · rintro rfl
      exact decodeOfEncode .nop

/-- A busy engine with a rejected word in CMD completes with IllegalCommand (40_command_lifecycle.md R402). -/
theorem engineRun_of_decode_error {s : State} {e : DecodeError} (hb : s.busy = true) (he : decode s.cmd = .error e) :
    engineRun s = .next (s.fail (.illegalCommand s.cmd)) := by
  simp [engineRun, hb, State.command, he, Except.toOption, illegal]

/-- Settles O3: a word selects at most one row, since a row it selects has its opcode (`selects_iff`), and it decodes just
where it selects one (`decode_of_selects`, `decode_eq_error_iff`). -/
theorem decoderIsTotal : Obligations.DecoderIsTotal := by
  refine ⟨nodup_map_opc_opRows, fun w => ?_, fun w => ?_, fun s e hb he => ⟨engineRun_of_decode_error hb he, rfl⟩⟩
  · by_cases hsome : ∃ r ∈ opRows, selects w r = true
    · obtain ⟨r, hr, hsel⟩ := hsome
      obtain ⟨hopc, -⟩ := (selects_iff w r).1 hsel
      refine .inl ⟨r, hr, hsel, decode_of_selects hr hsel, fun r' _ hsel' => ?_⟩
      obtain ⟨hopc', -⟩ := (selects_iff w r').1 hsel'
      exact hopc'.symm.trans hopc
    · have hnone : ∀ r ∈ opRows, selects w r = false := by simpa using hsome
      exact .inr ⟨decode_eq_error_iff.2 hnone, hnone⟩
  · rw [decode_eq_error_iff]
    refine forall₂_congr fun r _ => ?_
    rw [Bool.eq_false_iff, Ne, selects_iff, not_and, Bool.not_eq_true]
    exact imp_congr_left eq_comm

end Sys2Proof
end
